-- ==== Sys2Proof/Word.lean ====
section
/-! DEFINITION. The words the CCU computes with: 32-bit registers and addresses (spec/00_scope.md R4 XLEN, AW),
bytes, the 16-bit values of the accumulator (R20) and 24-bit packed triples (R14). -/

namespace Sys2Proof

/-- A general register, a control register as read, a command word (R4, R10, R60). -/
abbrev Word := BitVec 32

/-- A byte of memory or one channel of a triple (R14, R22). -/
abbrev Byte := BitVec 8

/-- A 16-bit value: accumulator, delta, step count, immediate (R20, R62). -/
abbrev Half := BitVec 16

/-- A packed triple: bits 23:16 red or hue, 15:8 green or saturation, 7:0 blue or value (R14). -/
abbrev Pixel := BitVec 24

end Sys2Proof
end

