-- ==== Sys2Proof/Syntax.lean ====
section
/-! DEFINITION. The 42 commands of spec/30_encoding.md R64 and their operands. One constructor per row of
spec/opcode_table.json; the operand order is that of the assembler syntax (R70), width, direction and channel first. -/

namespace Sys2Proof

/-- A general register number, 0 to 15 (R10, R61). -/
abbrev Reg := Fin 16

/-- The operand width of a scalar command: the `W` bit, N = 8 or N = 16 (R65). -/
inductive Width where
  | w8
  | w16
  deriving DecidableEq, Repr

/-- A channel of a triple or of the accumulator: `ch` = 0, 1, 2 (R14, R65, R161). The value 3 is reserved (R67 c). -/
inductive Chan where
  | c0
  | c1
  | c2
  deriving DecidableEq, Repr

/-- The gradient direction, "a closed enumeration" (R65, R189). -/
inductive Dir where
  | forward
  | backwards
  | shortest
  | longest
  deriving DecidableEq, Repr

/-- The 13 control registers (R15). -/
inductive Csr where
  | id
  | status
  | finfo
  | fcmd
  | wbase
  | wlimit
  | lacc (c : Chan)
  | ldel (c : Chan)
  | lrem
  deriving DecidableEq, Repr

/-- The 42 commands (R64). -/
inductive Instr where
  | nop
  | li (rd : Reg) (imm : Half)
  | lih (rd : Reg) (imm : Half)
  | mv (rd rs1 : Reg)
  | csrr (rd : Reg) (n : Csr)
  | csrw (n : Csr) (rs1 : Reg)
  | pack (rd rs1 rs2 rs3 : Reg)
  | chan (rd rs1 : Reg) (ch : Chan)
  | scale (w : Width) (rd rs1 rs2 : Reg)
  | scalev (w : Width) (rd rs1 rs2 : Reg)
  | dimr (w : Width) (rd rs1 : Reg)
  | dimv (w : Width) (rd rs1 : Reg)
  | diml (w : Width) (rd rs1 : Reg)
  | brtr (w : Width) (rd rs1 : Reg)
  | brtv (w : Width) (rd rs1 : Reg)
  | brtl (w : Width) (rd rs1 : Reg)
  | blend (w : Width) (rd rs1 rs2 rs3 : Reg)
  /-- In place: `rd` is source and destination (R117). -/
  | nscale2 (w : Width) (rd rs2 : Reg)
  | nscale3 (w : Width) (rd rs2 : Reg)
  | nscale4 (w : Width) (rd rs2 : Reg)
  | qadd (w : Width) (rd rs1 rs2 : Reg)
  | qsub (w : Width) (rd rs1 rs2 : Reg)
  | padd (rd rs1 rs2 : Reg)
  | psub (rd rs1 rs2 : Reg)
  | hue2rgb (rd rs1 : Reg)
  | hsv2rgb (rd rs1 : Reg)
  | hsv2spc (rd rs1 : Reg)
  | hdist (d : Dir) (rd rs1 rs2 : Reg)
  | lsetd (ch : Chan) (rs1 rs2 : Reg)
  | lsete (ch : Chan) (rs1 rs2 : Reg)
  | ldiv (rs1 : Reg)
  | lnext (rd : Reg)
  | lfill (rs1 : Reg)
  | bscale (rs1 rs2 rs3 : Reg)
  | fade (rs1 rs2 rs3 : Reg)
  | blur (rs1 rs2 rs3 : Reg)
  | fill (rs1 rs2 rs3 : Reg)
  /-- The amount `rs4` is encoded in the `rd` field (R61, R206). -/
  | bblend (rs1 rs2 rs3 rs4 : Reg)
  | ldp (rd rs1 : Reg) (off : Byte)
  | stp (rs2 rs1 : Reg) (off : Byte)
  | ldb (rd rs1 : Reg) (off : Byte)
  | stb (rs2 rs1 : Reg) (off : Byte)
  deriving DecidableEq, Repr

end Sys2Proof
end

