-- ==== Sys2Proof/WellFormed.lean ====
section
/-! DEFINITION. Which terms of `Instr` are commands of the CCU: the operand checks of spec/30_encoding.md R67 (d) and
(e) that the operand types do not already make. (`ch` = 3 and unknown control register numbers cannot be written as
terms.) -/

namespace Sys2Proof

/-- The control registers that `CSRW` may name: the read-write ones of R15. -/
def Csr.writable : Csr → Bool
  | .id => false
  | .status => false
  | .finfo => false
  | .fcmd => false
  | .wbase => true
  | .wlimit => true
  | .lacc _ => true
  | .ldel _ => true
  | .lrem => true

/-- R67 (d), R120: with 16-bit lanes, 3 or 4 lanes need an even `rd`. -/
def laneRegOk (w : Width) (rd : Reg) : Bool :=
  match w with
  | .w8 => true
  | .w16 => rd.val % 2 == 0

/-- The term is one of the 42 commands with operands that R67 admits. -/
def Instr.wellFormed : Instr → Bool
  | .nop => true
  | .li _ _ => true
  | .lih _ _ => true
  | .mv _ _ => true
  | .csrr _ _ => true
  | .csrw n _ => n.writable
  | .pack _ _ _ _ => true
  | .chan _ _ _ => true
  | .scale _ _ _ _ => true
  | .scalev _ _ _ _ => true
  | .dimr _ _ _ => true
  | .dimv _ _ _ => true
  | .diml _ _ _ => true
  | .brtr _ _ _ => true
  | .brtv _ _ _ => true
  | .brtl _ _ _ => true
  | .blend _ _ _ _ _ => true
  | .nscale2 _ _ _ => true
  | .nscale3 w rd _ => laneRegOk w rd
  | .nscale4 w rd _ => laneRegOk w rd
  | .qadd _ _ _ _ => true
  | .qsub _ _ _ _ => true
  | .padd _ _ _ => true
  | .psub _ _ _ => true
  | .hue2rgb _ _ => true
  | .hsv2rgb _ _ => true
  | .hsv2spc _ _ => true
  | .hdist _ _ _ _ => true
  | .lsetd _ _ _ => true
  | .lsete _ _ _ => true
  | .ldiv _ => true
  | .lnext _ => true
  | .lfill _ => true
  | .bscale _ _ _ => true
  | .fade _ _ _ => true
  | .blur _ _ _ => true
  | .fill _ _ _ => true
  | .bblend _ _ _ _ => true
  | .ldp _ _ _ => true
  | .stp _ _ _ => true
  | .ldb _ _ _ => true
  | .stb _ _ _ => true

end Sys2Proof
end

