-- ==== Sys2Proof/Decode.lean ====
section
/-! DEFINITION. Command words (spec/30_encoding.md): the fields of the two formats, the decoder (R72), total on any
32-bit word, and after it the encoder written from the same tables. -/

namespace Sys2Proof

/-! ### Fields (R61, R62) -/

/-- Bits 31:24, the opcode (R60). -/
def fieldOp (w : Word) : Byte := w.extractLsb' 24 8
/-- Bits 23:20. -/
def fieldRd (w : Word) : BitVec 4 := w.extractLsb' 20 4
/-- Bits 19:16. -/
def fieldRs1 (w : Word) : BitVec 4 := w.extractLsb' 16 4
/-- Bits 15:12 of format R. -/
def fieldRs2 (w : Word) : BitVec 4 := w.extractLsb' 12 4
/-- Bits 11:8 of format R. -/
def fieldRs3 (w : Word) : BitVec 4 := w.extractLsb' 8 4
/-- Bits 7:0 of format R, the modifiers of R65. -/
def fieldFn (w : Word) : Byte := w.extractLsb' 0 8
/-- Bits 15:0 of format I. -/
def fieldImm (w : Word) : Half := w.extractLsb' 0 16

/-- The register a 4-bit field names (R61). -/
def regOf (f : BitVec 4) : Reg := f.toFin

/-- The 4-bit field that names a register (R61). -/
def regBits (r : Reg) : BitVec 4 := BitVec.ofFin r

/-! ### Sub-fields of `fn` (R65). Each decoder takes the whole of `fn`, so that a bit R65 does not assign to the
command makes it answer `none` (R66). -/

/-- The `W` bit, every other bit of `fn` zero. -/
def widthOf (fn : Byte) : Option Width :=
  match fn.toNat with
  | 0 => some .w8
  | 1 => some .w16
  | _ => none

/-- `fn` of a command with a `W` bit. -/
def widthBits : Width → Byte
  | .w8 => 0
  | .w16 => 1

/-- `ch`, every other bit of `fn` zero; 3 is reserved (R67 c). -/
def chanOf (fn : Byte) : Option Chan :=
  match fn.toNat with
  | 0 => some .c0
  | 1 => some .c1
  | 2 => some .c2
  | _ => none

/-- `fn` of a command with a `ch` field. -/
def chanBits : Chan → Byte
  | .c0 => 0
  | .c1 => 1
  | .c2 => 2

/-- `dir`, every other bit of `fn` zero. -/
def dirOf (fn : Byte) : Option Dir :=
  match fn.toNat with
  | 0 => some .forward
  | 1 => some .backwards
  | 2 => some .shortest
  | 3 => some .longest
  | _ => none

/-- `fn` of `HDIST`. -/
def dirBits : Dir → Byte
  | .forward => 0
  | .backwards => 1
  | .shortest => 2
  | .longest => 3

/-- Opcode 0x19: the command and its width from `k` = `fn[2:1]` and `W` = `fn[0]`, `fn[7:3]` zero; `k` = 0 is
reserved (R67 b). -/
def nscaleOf (fn : Byte) (rd rs2 : Reg) : Option Instr :=
  match fn.toNat with
  | 2 => some (.nscale2 .w8 rd rs2)
  | 3 => some (.nscale2 .w16 rd rs2)
  | 4 => some (.nscale3 .w8 rd rs2)
  | 5 => some (.nscale3 .w16 rd rs2)
  | 6 => some (.nscale4 .w8 rd rs2)
  | 7 => some (.nscale4 .w16 rd rs2)
  | _ => none

/-- `fn` of `NSCALE2/3/4` with `k` code `k`. -/
def nscaleBits (k : Byte) (w : Width) : Byte := (k <<< 1) ||| widthBits w

/-- The control register a number names (R15); all 16 bits count (R63 c). -/
def csrOf (n : Half) : Option Csr :=
  match n.toNat with
  | 0x000 => some .id
  | 0x001 => some .status
  | 0x002 => some .finfo
  | 0x003 => some .fcmd
  | 0x010 => some .wbase
  | 0x011 => some .wlimit
  | 0x020 => some (.lacc .c0)
  | 0x021 => some (.lacc .c1)
  | 0x022 => some (.lacc .c2)
  | 0x024 => some (.ldel .c0)
  | 0x025 => some (.ldel .c1)
  | 0x026 => some (.ldel .c2)
  | 0x028 => some .lrem
  | _ => none

/-- The number of a control register (R15). -/
def csrNumber : Csr → Half
  | .id => 0x000
  | .status => 0x001
  | .finfo => 0x002
  | .fcmd => 0x003
  | .wbase => 0x010
  | .wlimit => 0x011
  | .lacc .c0 => 0x020
  | .lacc .c1 => 0x021
  | .lacc .c2 => 0x022
  | .ldel .c0 => 0x024
  | .ldel .c1 => 0x025
  | .ldel .c2 => 0x026
  | .lrem => 0x028

/-! ### The decoder -/

/-- The command that the fields spell, with every must-be-zero field checked (R64, R66), but without the last check of
R72 (the extra constraints R67 d and e that `Instr.wellFormed` makes). -/
def decodeFields (w : Word) : Option Instr :=
  let rd := regOf (fieldRd w)
  let rs1 := regOf (fieldRs1 w)
  let rs2 := regOf (fieldRs2 w)
  let rs3 := regOf (fieldRs3 w)
  let fn := fieldFn w
  let imm := fieldImm w
  let rd0 := fieldRd w == 0
  let rs10 := fieldRs1 w == 0
  let rs20 := fieldRs2 w == 0
  let rs30 := fieldRs3 w == 0
  let fn0 := fieldFn w == 0
  match (fieldOp w).toNat with
  | 0x01 => if rd0 && rs10 && rs20 && rs30 && fn0 then some .nop else none
  | 0x02 => if rs10 then some (.li rd imm) else none
  | 0x03 => if rs10 then some (.lih rd imm) else none
  | 0x04 => if rs20 && rs30 && fn0 then some (.mv rd rs1) else none
  | 0x05 => if rs10 then (csrOf imm).map (fun n => .csrr rd n) else none
  | 0x06 => if rd0 then (csrOf imm).map (fun n => .csrw n rs1) else none
  | 0x07 => if fn0 then some (.pack rd rs1 rs2 rs3) else none
  | 0x08 => if rs20 && rs30 then (chanOf fn).map (fun c => .chan rd rs1 c) else none
  | 0x10 => if rs30 then (widthOf fn).map (fun v => .scale v rd rs1 rs2) else none
  | 0x11 => if rs30 then (widthOf fn).map (fun v => .scalev v rd rs1 rs2) else none
  | 0x12 => if rs20 && rs30 then (widthOf fn).map (fun v => .dimr v rd rs1) else none
  | 0x13 => if rs20 && rs30 then (widthOf fn).map (fun v => .dimv v rd rs1) else none
  | 0x14 => if rs20 && rs30 then (widthOf fn).map (fun v => .diml v rd rs1) else none
  | 0x15 => if rs20 && rs30 then (widthOf fn).map (fun v => .brtr v rd rs1) else none
  | 0x16 => if rs20 && rs30 then (widthOf fn).map (fun v => .brtv v rd rs1) else none
  | 0x17 => if rs20 && rs30 then (widthOf fn).map (fun v => .brtl v rd rs1) else none
  | 0x18 => (widthOf fn).map (fun v => .blend v rd rs1 rs2 rs3)
  | 0x19 => if rs10 && rs30 then nscaleOf fn rd rs2 else none
  | 0x1A => if rs30 then (widthOf fn).map (fun v => .qadd v rd rs1 rs2) else none
  | 0x1B => if rs30 then (widthOf fn).map (fun v => .qsub v rd rs1 rs2) else none
  | 0x20 => if rs30 && fn0 then some (.padd rd rs1 rs2) else none
  | 0x21 => if rs30 && fn0 then some (.psub rd rs1 rs2) else none
  | 0x30 => if rs20 && rs30 && fn0 then some (.hue2rgb rd rs1) else none
  | 0x31 => if rs20 && rs30 && fn0 then some (.hsv2rgb rd rs1) else none
  | 0x32 => if rs20 && rs30 && fn0 then some (.hsv2spc rd rs1) else none
  | 0x33 => if rs30 then (dirOf fn).map (fun d => .hdist d rd rs1 rs2) else none
  | 0x40 => if rd0 && rs30 then (chanOf fn).map (fun c => .lsetd c rs1 rs2) else none
  | 0x41 => if rd0 && rs30 then (chanOf fn).map (fun c => .lsete c rs1 rs2) else none
  | 0x42 => if rd0 && rs20 && rs30 && fn0 then some (.ldiv rs1) else none
  | 0x43 => if rs10 && rs20 && rs30 && fn0 then some (.lnext rd) else none
  | 0x44 => if rd0 && rs20 && rs30 && fn0 then some (.lfill rs1) else none
  | 0x50 => if rd0 && fn0 then some (.bscale rs1 rs2 rs3) else none
  | 0x51 => if rd0 && fn0 then some (.fade rs1 rs2 rs3) else none
  | 0x52 => if rd0 && fn0 then some (.blur rs1 rs2 rs3) else none
  | 0x53 => if rd0 && fn0 then some (.fill rs1 rs2 rs3) else none
  | 0x54 => if fn0 then some (.bblend rs1 rs2 rs3 rd) else none
  | 0x58 => if rs20 && rs30 then some (.ldp rd rs1 fn) else none
  | 0x59 => if rd0 && rs30 then some (.stp rs2 rs1 fn) else none
  | 0x5A => if rs20 && rs30 then some (.ldb rd rs1 fn) else none
  | 0x5B => if rd0 && rs30 then some (.stb rs2 rs1 fn) else none
  | _ => none

/-- R72: decoding, a total function of the word. `none` is `illegal` (R67): the step raises `Fault(ILLEGAL)`. -/
def decode (w : Word) : Option Instr := (decodeFields w).filter Instr.wellFormed

/-! ### The encoder -/

/-- The opcode of a command (R64). -/
def Instr.opcode : Instr → Byte
  | .nop => 0x01
  | .li _ _ => 0x02
  | .lih _ _ => 0x03
  | .mv _ _ => 0x04
  | .csrr _ _ => 0x05
  | .csrw _ _ => 0x06
  | .pack _ _ _ _ => 0x07
  | .chan _ _ _ => 0x08
  | .scale _ _ _ _ => 0x10
  | .scalev _ _ _ _ => 0x11
  | .dimr _ _ _ => 0x12
  | .dimv _ _ _ => 0x13
  | .diml _ _ _ => 0x14
  | .brtr _ _ _ => 0x15
  | .brtv _ _ _ => 0x16
  | .brtl _ _ _ => 0x17
  | .blend _ _ _ _ _ => 0x18
  | .nscale2 _ _ _ => 0x19
  | .nscale3 _ _ _ => 0x19
  | .nscale4 _ _ _ => 0x19
  | .qadd _ _ _ _ => 0x1A
  | .qsub _ _ _ _ => 0x1B
  | .padd _ _ _ => 0x20
  | .psub _ _ _ => 0x21
  | .hue2rgb _ _ => 0x30
  | .hsv2rgb _ _ => 0x31
  | .hsv2spc _ _ => 0x32
  | .hdist _ _ _ _ => 0x33
  | .lsetd _ _ _ => 0x40
  | .lsete _ _ _ => 0x41
  | .ldiv _ => 0x42
  | .lnext _ => 0x43
  | .lfill _ => 0x44
  | .bscale _ _ _ => 0x50
  | .fade _ _ _ => 0x51
  | .blur _ _ _ => 0x52
  | .fill _ _ _ => 0x53
  | .bblend _ _ _ _ => 0x54
  | .ldp _ _ _ => 0x58
  | .stp _ _ _ => 0x59
  | .ldb _ _ _ => 0x5A
  | .stb _ _ _ => 0x5B

/-- A word of format R (R61). -/
def wordR (op : Byte) (rd rs1 rs2 rs3 : BitVec 4) (fn : Byte) : Word :=
  op ++ rd ++ rs1 ++ rs2 ++ rs3 ++ fn

/-- A word of format I (R62). -/
def wordI (op : Byte) (rd rs1 : BitVec 4) (imm : Half) : Word :=
  op ++ rd ++ rs1 ++ imm

/-- The command word of an instruction (R61 to R65, R70); every unused field is zero (R66). -/
def encode : Instr → Word
  | .nop => wordR 0x01 0 0 0 0 0
  | .li rd imm => wordI 0x02 (regBits rd) 0 imm
  | .lih rd imm => wordI 0x03 (regBits rd) 0 imm
  | .mv rd rs1 => wordR 0x04 (regBits rd) (regBits rs1) 0 0 0
  | .csrr rd n => wordI 0x05 (regBits rd) 0 (csrNumber n)
  | .csrw n rs1 => wordI 0x06 0 (regBits rs1) (csrNumber n)
  | .pack rd rs1 rs2 rs3 => wordR 0x07 (regBits rd) (regBits rs1) (regBits rs2) (regBits rs3) 0
  | .chan rd rs1 ch => wordR 0x08 (regBits rd) (regBits rs1) 0 0 (chanBits ch)
  | .scale w rd rs1 rs2 => wordR 0x10 (regBits rd) (regBits rs1) (regBits rs2) 0 (widthBits w)
  | .scalev w rd rs1 rs2 => wordR 0x11 (regBits rd) (regBits rs1) (regBits rs2) 0 (widthBits w)
  | .dimr w rd rs1 => wordR 0x12 (regBits rd) (regBits rs1) 0 0 (widthBits w)
  | .dimv w rd rs1 => wordR 0x13 (regBits rd) (regBits rs1) 0 0 (widthBits w)
  | .diml w rd rs1 => wordR 0x14 (regBits rd) (regBits rs1) 0 0 (widthBits w)
  | .brtr w rd rs1 => wordR 0x15 (regBits rd) (regBits rs1) 0 0 (widthBits w)
  | .brtv w rd rs1 => wordR 0x16 (regBits rd) (regBits rs1) 0 0 (widthBits w)
  | .brtl w rd rs1 => wordR 0x17 (regBits rd) (regBits rs1) 0 0 (widthBits w)
  | .blend w rd rs1 rs2 rs3 =>
    wordR 0x18 (regBits rd) (regBits rs1) (regBits rs2) (regBits rs3) (widthBits w)
  | .nscale2 w rd rs2 => wordR 0x19 (regBits rd) 0 (regBits rs2) 0 (nscaleBits 1 w)
  | .nscale3 w rd rs2 => wordR 0x19 (regBits rd) 0 (regBits rs2) 0 (nscaleBits 2 w)
  | .nscale4 w rd rs2 => wordR 0x19 (regBits rd) 0 (regBits rs2) 0 (nscaleBits 3 w)
  | .qadd w rd rs1 rs2 => wordR 0x1A (regBits rd) (regBits rs1) (regBits rs2) 0 (widthBits w)
  | .qsub w rd rs1 rs2 => wordR 0x1B (regBits rd) (regBits rs1) (regBits rs2) 0 (widthBits w)
  | .padd rd rs1 rs2 => wordR 0x20 (regBits rd) (regBits rs1) (regBits rs2) 0 0
  | .psub rd rs1 rs2 => wordR 0x21 (regBits rd) (regBits rs1) (regBits rs2) 0 0
  | .hue2rgb rd rs1 => wordR 0x30 (regBits rd) (regBits rs1) 0 0 0
  | .hsv2rgb rd rs1 => wordR 0x31 (regBits rd) (regBits rs1) 0 0 0
  | .hsv2spc rd rs1 => wordR 0x32 (regBits rd) (regBits rs1) 0 0 0
  | .hdist d rd rs1 rs2 => wordR 0x33 (regBits rd) (regBits rs1) (regBits rs2) 0 (dirBits d)
  | .lsetd ch rs1 rs2 => wordR 0x40 0 (regBits rs1) (regBits rs2) 0 (chanBits ch)
  | .lsete ch rs1 rs2 => wordR 0x41 0 (regBits rs1) (regBits rs2) 0 (chanBits ch)
  | .ldiv rs1 => wordR 0x42 0 (regBits rs1) 0 0 0
  | .lnext rd => wordR 0x43 (regBits rd) 0 0 0 0
  | .lfill rs1 => wordR 0x44 0 (regBits rs1) 0 0 0
  | .bscale rs1 rs2 rs3 => wordR 0x50 0 (regBits rs1) (regBits rs2) (regBits rs3) 0
  | .fade rs1 rs2 rs3 => wordR 0x51 0 (regBits rs1) (regBits rs2) (regBits rs3) 0
  | .blur rs1 rs2 rs3 => wordR 0x52 0 (regBits rs1) (regBits rs2) (regBits rs3) 0
  | .fill rs1 rs2 rs3 => wordR 0x53 0 (regBits rs1) (regBits rs2) (regBits rs3) 0
  | .bblend rs1 rs2 rs3 rs4 =>
    wordR 0x54 (regBits rs4) (regBits rs1) (regBits rs2) (regBits rs3) 0
  | .ldp rd rs1 off => wordR 0x58 (regBits rd) (regBits rs1) 0 0 off
  | .stp rs2 rs1 off => wordR 0x59 0 (regBits rs1) (regBits rs2) 0 off
  | .ldb rd rs1 off => wordR 0x5A (regBits rd) (regBits rs1) 0 0 off
  | .stb rs2 rs1 off => wordR 0x5B 0 (regBits rs1) (regBits rs2) 0 off

/-! ### The host's entry point -/

/-- The instruction the decoder reads from the low `nbits` bits of `w`, every other bit zero. A command is one 32-bit
word (R60) and is not fetched from memory (R12), so its bits are given to the decoder as they are. -/
def decodeTableWord (nbits w : Nat) : Option Instr :=
  decode (BitVec.ofNat 32 (w % 2 ^ nbits))

end Sys2Proof
end

