-- ==== Sys2Proof/Machine/Arith.lean ====
section
/-! DEFINITION. The CCU's arithmetic on numbers, bytes and packed triples: the scalar fixed-point functions
(spec/41_scalar_fixed_point.md R100 to R106), saturating addition and the pixel helpers (42_saturating_add.md R130,
R131), the packed-lane multiply (43_batch_scale.md R140 to R142), the buffer blend (46_buffer_ops.md R205) and the hue
distance (45_hue.md R190). Arithmetic is on mathematical integers, and a reduction to a width is written out (R8);
`n` is the operand width in bits (8 or 16). -/

namespace Sys2Proof.Machine

/-- N of a scalar command: 8 when `W` = 0 and 16 when `W` = 1 (spec/00_scope.md section 6.3). -/
def widthN : Width → Nat
  | .w8 => 8
  | .w16 => 16

/-- `MAX` = 2^N − 1 (R4). -/
def maxN (n : Nat) : Nat := 2 ^ n - 1

/-! ### Scalar fixed-point functions -/

/-- R100: `scale_N(i, s)`. -/
def scaleN (n i s : Nat) : Nat := i * (s + 1) / 2 ^ n

/-- R101: `scale_video_N(i, s)`. -/
def scaleVideoN (n i s : Nat) : Nat := i * s / 2 ^ n + (if i ≠ 0 ∧ s ≠ 0 then 1 else 0)

/-- R102. -/
def dimRawN (n x : Nat) : Nat := scaleN n x x

/-- R103. -/
def dimVideoN (n x : Nat) : Nat := scaleVideoN n x x

/-- R104: halving below the half range, `dim_raw` from it on. -/
def dimLinN (n x : Nat) : Nat := if x < 2 ^ (n - 1) then (x + 1) / 2 else dimRawN n x

/-- R105. -/
def brightenRawN (n x : Nat) : Nat := maxN n - dimRawN n (maxN n - x)

/-- R105. -/
def brightenVideoN (n x : Nat) : Nat := maxN n - dimVideoN n (maxN n - x)

/-- R105. -/
def brightenLinN (n x : Nat) : Nat := maxN n - dimLinN n (maxN n - x)

/-- R106: `blend_N(a, b, amt)`. -/
def blendN (n a b amt : Nat) : Nat := (a * (maxN n - amt) + a + b * amt + b) / 2 ^ n

/-- R130: `qadd_N(a, b)`. -/
def qaddN (n a b : Nat) : Nat := min (a + b) (maxN n)

/-- R130: `qsub_N(a, b)` = max(a − b, 0), which is what subtraction of naturals is. -/
def qsubN (a b : Nat) : Nat := a - b

/-! ### Packed triples (R14, R131) -/

/-- R131: `chan(p, c)`. -/
def chan (p : Pixel) : Chan → Byte
  | .c0 => p.extractLsb' 16 8
  | .c1 => p.extractLsb' 8 8
  | .c2 => p.extractLsb' 0 8

/-- R131: `pack(a, b, c)`. -/
def pack (a b c : Byte) : Pixel := a ++ b ++ c

/-- `pack` of three numbers, each reduced to a byte. -/
def packNat (a b c : Nat) : Pixel := pack (BitVec.ofNat 8 a) (BitVec.ofNat 8 b) (BitVec.ofNat 8 c)

/-- R131: the same function on each channel. -/
def pmap (f : Nat → Nat) (p : Pixel) : Pixel :=
  packNat (f (chan p .c0).toNat) (f (chan p .c1).toNat) (f (chan p .c2).toNat)

/-- A function of two bytes on each pair of channels (the shape of `padd` and `psub` in R131). -/
def pzip (f : Nat → Nat → Nat) (p q : Pixel) : Pixel :=
  packNat (f (chan p .c0).toNat (chan q .c0).toNat) (f (chan p .c1).toNat (chan q .c1).toNat)
    (f (chan p .c2).toNat (chan q .c2).toNat)

/-- R131: `pscale(p, s)`. -/
def pscale (p : Pixel) (s : Nat) : Pixel := pmap (fun c => scaleN 8 c s) p

/-- R131: `padd(p, q)`. -/
def padd (p q : Pixel) : Pixel := pzip (qaddN 8) p q

/-- R131: `psub(p, q)`. -/
def psub (p q : Pixel) : Pixel := pzip qsubN p q

/-! ### Batch scaling -/

/-- R140: `scale_post(b, f)`. -/
def scalePost (b f : Nat) : Nat := b * (f + 1) / 256

/-- R142: `lanes(w, sc)`, with two 32-bit multiplies. -/
def lanes (w : Word) (sc : Nat) : Word :=
  let even := w &&& 0x00FF00FF#32
  let odd := (w &&& 0xFF00FF00#32) >>> 8
  let e := ((even * BitVec.ofNat 32 sc) >>> 8) &&& 0x00FF00FF#32
  let o := ((odd * BitVec.ofNat 32 sc) >>> 8) &&& 0x00FF00FF#32
  e ||| (o <<< 8)

/-- The regions of R141. -/
structure Split where
  head : Nat
  words : Nat
  tail : Nat
  deriving DecidableEq, Repr

/-- R141: `split(a, n)`. -/
def splitExtent (a n : Nat) : Split :=
  let head := min n ((4 - a % 4) % 4)
  { head := head, words := (n - head) / 4, tail := (n - head) % 4 }

/-! ### Lanes of the x-wide scale (R120) -/

/-- Byte lane `j` of a register (R120, N = 8). -/
def lane8 (w : Word) (j : Nat) : Byte := w.extractLsb' (8 * j) 8

/-- Half-word lane `j` of a register (R120, N = 16). -/
def lane16 (w : Word) (j : Nat) : Half := w.extractLsb' (16 * j) 16

/-- Byte lane `j` of the result: scaled when it is one of the first `k` lanes, else unchanged (R120). -/
def scaledLane8 (k s : Nat) (w : Word) (j : Nat) : Byte :=
  if j < k then BitVec.ofNat 8 (scaleN 8 (lane8 w j).toNat s) else lane8 w j

/-- Half-word lane `j` of the result. -/
def scaledLane16 (k s : Nat) (w : Word) (j : Nat) : Half :=
  if j < k then BitVec.ofNat 16 (scaleN 16 (lane16 w j).toNat s) else lane16 w j

/-- The register with its first `k` byte lanes scaled by `s`. -/
def scaleLanes8 (k s : Nat) (w : Word) : Word :=
  scaledLane8 k s w 3 ++ scaledLane8 k s w 2 ++ scaledLane8 k s w 1 ++ scaledLane8 k s w 0

/-- The register with its first `k` half-word lanes scaled by `s`. -/
def scaleLanes16 (k s : Nat) (w : Word) : Word :=
  scaledLane16 k s w 1 ++ scaledLane16 k s w 0

/-! ### Buffer blend and blur factors -/

/-- R205: `bblend(c, o, amt)`. -/
def bblend (amt c o : Nat) : Nat := (c * (255 - amt) + o * amt) / 256

/-- R200: `keep`. -/
def blurKeep (amount : Nat) : Nat := 255 - amount

/-- R200: `seep`. -/
def blurSeep (amount : Nat) : Nat := amount / 2

/-! ### Hue distance (R190) -/

/-- The raw wrapping hue difference `(b − a) mod 256`. -/
def hueDiff (a b : Byte) : Nat := (b - a).toNat

/-- R189, R190: a derived direction resolved into Forward (true) or Backwards (false). -/
def goesForward (start stop : Byte) : Dir → Bool
  | .forward => true
  | .backwards => false
  | .shortest => !decide (hueDiff start stop > 127)
  | .longest => decide (hueDiff start stop > 127)

/-- R190: `hue_dist(start, end, dir)`, in units of 1/128 of a hue step. -/
def hueDist (start stop : Byte) (d : Dir) : Int :=
  if goesForward start stop d then (hueDiff start stop : Int) * 128 else -((hueDiff stop start : Int) * 128)

end Sys2Proof.Machine
end

