-- ==== Sys2Proof/Machine/HueMaps.lean ====
section
/-! DEFINITION. The two configured hue-to-RGB functions of spec/00_scope.md R4, `HUE_RAINBOW` and `SPECTRUM`, with their
defaults (spec/45_hue.md R182, R187) and the constraints of R181 that a configured `HUE_RAINBOW` must satisfy. -/

namespace Sys2Proof

/-- `HUE_RAINBOW` (R4, R181): the default of R182, or another function from a hue byte, given by its 256 values. -/
inductive HueMap where
  /-- The default of R182, marked by the spec `[from general knowledge, not in source]` (log 6). -/
  | builtin
  /-- Any other function of a hue byte; a `Config` holds it only if it satisfies R181. -/
  | table (t : Vector Pixel 256)
  deriving DecidableEq, Repr

/-- `SPECTRUM` (R4, R186): the default of R187, or another function from a packed HSV triple, given by its value
almost everywhere and a list of the triples where it differs (every function of a triple has this form). -/
inductive SpectrumMap where
  /-- The default of R187, marked by the spec `[from general knowledge, not in source]` (log 7). -/
  | builtin
  /-- Any other function: the first entry for the triple, or `base` where there is none. -/
  | given (base : Pixel) (entries : List (Pixel × Pixel))
  deriving DecidableEq, Repr

namespace Machine

/-! ### The rainbow mapping -/

/-- R180: `sec` = `h[7:5]`. -/
def hueSection (h : Byte) : Nat := h.toNat / 32

/-- R180: `off8` = `h[4:0] << 3`. -/
def hueOffset (h : Byte) : Nat := h.toNat % 32 * 8

/-- R182: the default `HUE_RAINBOW` (log 6). -/
def rainbowDefault (h : Byte) : Pixel :=
  let third := scaleN 8 (hueOffset h) 85
  let two := scaleN 8 (hueOffset h) 170
  match hueSection h with
  | 0 => packNat (255 - third) third 0
  | 1 => packNat 171 (85 + third) 0
  | 2 => packNat (171 - two) (170 + third) 0
  | 3 => packNat 0 (255 - third) third
  | 4 => packNat 0 (171 - two) (85 + two)
  | 5 => packNat third 0 (255 - third)
  | 6 => packNat (85 + third) 0 (171 - third)
  | _ => packNat (170 + third) 0 (85 - third)

/-- `HUE_RAINBOW` as a function, computed or looked up (R181 constraints 1 and 7, R192). -/
def rainbowOf (m : HueMap) (h : Byte) : Pixel :=
  match m with
  | .builtin => rainbowDefault h
  | .table t => t[h.toNat]'h.isLt

/-! ### The spectrum mapping -/

/-- R187: the default `SPECTRUM`, for hues up to 191 (log 7). -/
def spectrumDefault (p : Pixel) : Pixel :=
  let h := (chan p .c0).toNat
  let sat := (chan p .c1).toNat
  let val := (chan p .c2).toNat
  let floor := val * (255 - sat) / 256
  let amp := val - floor
  let off := h % 64
  let up := off * amp / 64 + floor
  let down := (63 - off) * amp / 64 + floor
  match h / 64 with
  | 0 => packNat down up floor
  | 1 => packNat floor down up
  | _ => packNat up floor down

/-- `SPECTRUM` as a function; the default has no value for a hue above 191 (R187). -/
def spectrumOf (m : SpectrumMap) (p : Pixel) : Option Pixel :=
  match m with
  | .builtin => if (chan p .c0).toNat ≤ 191 then some (spectrumDefault p) else none
  | .given base entries => some ((entries.lookup p).getD base)

/-! ### The constraints of R181

A section is 32 hues (R180), and `v i` stands for one channel at offset `i` of it. How far a channel may be off a
straight line, or move from one section to the next, the spec does not say in numbers: log 9. -/

/-- The channel `c` of `HUE_RAINBOW` at offset `i` of section `sec`. -/
def rampAt (m : HueMap) (c : Chan) (sec i : Nat) : Nat := (chan (rainbowOf m (BitVec.ofNat 8 (32 * sec + i))) c).toNat

/-- The channel does not decrease along the section. -/
def rising (v : Nat → Nat) : Bool := (List.range 31).all fun i => decide (v i ≤ v (i + 1))

/-- The channel does not increase along the section. -/
def falling (v : Nat → Nat) : Bool := (List.range 31).all fun i => decide (v (i + 1) ≤ v i)

/-- The channel is one constant along the section. -/
def held (v : Nat → Nat) : Bool := (List.range 32).all fun i => decide (v i = v 0)

/-- The channel is interpolated linearly between the section's ends: less than one unit off the straight line, as an
interpolation rounded or truncated to bytes is. -/
def interpolated (v : Nat → Nat) : Bool :=
  (List.range 32).all fun i =>
    decide (31 * v i < v 0 * (31 - i) + v 31 * i + 31 ∧ v 0 * (31 - i) + v 31 * i < 31 * v i + 31)

/-- R181 constraint 2 and the ramps of constraint 3, in one section: every channel ramps in one direction and is
interpolated between the section's ends, and at most two channels move. -/
def sectionRamps (m : HueMap) (sec : Nat) : Bool :=
  [Chan.c0, .c1, .c2].all (fun c =>
    (rising (rampAt m c sec) || falling (rampAt m c sec)) && interpolated (rampAt m c sec)) &&
  [Chan.c0, .c1, .c2].any fun c => held (rampAt m c sec)

/-- R181 constraint 3, where a section meets the next (the last meets the first): no channel moves by more than `off8`
does from one hue to the next. -/
def sectionConnects (m : HueMap) (sec : Nat) : Bool :=
  [Chan.c0, .c1, .c2].all fun c =>
    decide (rampAt m c sec 31 ≤ rampAt m c ((sec + 1) % 8) 0 + 8 ∧
      rampAt m c ((sec + 1) % 8) 0 ≤ rampAt m c sec 31 + 8)

/-- R181 constraint 6 at one hue: `SPECTRUM` at full saturation and value has a colour, and it is not the rainbow's. -/
def mapsDiffer (m : HueMap) (sp : SpectrumMap) (h : Nat) : Bool :=
  (spectrumOf sp (packNat h 255 255)).any fun c => decide (c ≠ rainbowOf m (BitVec.ofNat 8 h))

/-- R181: the constraints on a configured `HUE_RAINBOW` (1 and 7 hold of every `HueMap`). -/
def rainbowConstraints (m : HueMap) (sp : SpectrumMap) : Bool :=
  -- 2 and 3
  (List.range 8).all (fun sec => sectionRamps m sec && sectionConnects m sec) &&
  -- 4
  (falling (rampAt m .c0 0) && rising (rampAt m .c1 0)) &&
  -- 5
  (held (rampAt m .c0 1) && rising (rampAt m .c1 1)) &&
  -- 6
  (List.range 256).any (mapsDiffer m sp)

end Machine

end Sys2Proof
end

