-- ==== Sys2Proof/Config.lean ====
section
/-! DEFINITION. The parameters of spec/00_scope.md R4 whose kind is "argument", as plain data. They are held in
`State.config`, which no step changes, so that every statement about every state holds for every configuration. The
functions they select are in Sys2Proof/Machine/HueMaps.lean and Hue.lean. -/

namespace Sys2Proof

/-- `SPECTRUM_PRE` (R4, R188, 90_conflicts.md C2): which operand of `HSV2SPC` the bound restricts. -/
inductive SpectrumPre where
  | value
  | hue
  | both
  deriving DecidableEq, Repr

/-- The configuration of R4. `HUE_IMPL` and `SAT_IMPL` have no behavioural effect (U5, U6) and are no fields. -/
structure Config where
  /-- `BATCH_THRESHOLD`, default 8 (R144). -/
  batchThreshold : Nat
  /-- `HUE_RAINBOW`. -/
  hue : HueMap
  /-- `SPECTRUM`. -/
  spectrum : SpectrumMap
  /-- `SPECTRUM_BOUND`, default 191 (R188). -/
  spectrumBound : Nat
  /-- `SPECTRUM_PRE`, default `BOTH` (R188). -/
  spectrumPre : SpectrumPre
  /-- R181: "a configured function must satisfy all of these". A mapping that breaks a constraint is in no `Config`. -/
  lawful : Machine.rainbowConstraints hue spectrum = true
  deriving DecidableEq, Repr

/-- The defaults of R4, R182 and R187 (log 5). -/
def Config.standard : Config where
  batchThreshold := 8
  hue := .builtin
  spectrum := .builtin
  spectrumBound := 191
  spectrumPre := .both
  lawful := by decide +kernel

end Sys2Proof
end

