-- ==== Sys2Proof/Machine/State.lean ====
section
/-! DEFINITION. The state of the CCU (spec/10_state.md), plain data, and its value right after reset (R25). -/

namespace Sys2Proof.Machine

/-- The three causes of R240. A fault of the CCU is recorded in the state (R243): it is a next state, never a stop of
the model (log 10). -/
inductive FaultCode where
  | illegal
  | access
  | spectrum
  deriving DecidableEq, Repr

/-- The reasons a step stops with a fault: there are none. Every fault the spec describes (R240) is a state the unit
goes to (R243) and stays in until reset (R244). Safe: no step of the model is cut short (log 10). -/
inductive Fault : Type
  deriving DecidableEq, Repr

/-- The reasons a step is refused. -/
inductive Refusal where
  /-- Raised by an arm of `exec` whose instruction has no meaning yet: by none now. Safe: a refusal proves nothing. -/
  | notModelled (mnemonic : String)
  /-- Raised by `HSV2SPC` when the configured `SPECTRUM` is the default of R187, the configured precondition admits the
  operand, and its hue is above 191, where "the default is not defined"; 93_implementation_defined.md U3 has a model
  `refuse` that configuration (log 8). Never with the standard configuration. Safe: a refusal proves nothing. -/
  | spectrumUndefined
  deriving DecidableEq, Repr

/-- `STATUS` (R17): the bits that hold state. Reserved bits read 0 and hold none. -/
structure Status where
  /-- Bit 0: the unit is in the faulted state. -/
  f : Bool
  /-- Bits 7:4: the fault code. -/
  fc : BitVec 4
  /-- Bit 8: an `LNEXT` found the accumulator exhausted. -/
  lx : Bool
  deriving DecidableEq, Repr

/-- One value for each of the three channels (R14, R20). -/
structure PerChan (α : Type) where
  c0 : α
  c1 : α
  c2 : α
  deriving DecidableEq, Repr

/-- The interpolation accumulator (R20). -/
structure Lerp where
  /-- `lerp.acc[c]`, 8.8 fixed point. -/
  acc : PerChan Half
  /-- `lerp.del[c]`, a two's-complement pattern: total distance before `LDIV`, per-step delta after it. -/
  del : PerChan Half
  /-- `lerp.rem`, the triples still to be produced. -/
  rem : Half
  deriving DecidableEq, Repr

/-- Memory (R22, R40): the bytes that are not 0, by rising address. An address that is not listed reads 0 (log 4);
since 0 is a byte value like another, every contents of the 2^32 bytes has exactly one such list. -/
abbrev Memory := List Host.Cell

/-- What the host may do between two commands (R268). Reading the unit or the memory changes nothing and is no input. -/
inductive HostInput where
  /-- A word on the command port. -/
  | command (w : Word)
  /-- The reset input (R260). -/
  | reset
  /-- The host writes a byte of memory. -/
  | writeByte (a : Word) (b : Byte)
  deriving DecidableEq, Repr

/-- The state: all of spec/10_state.md, and two fields of the model's own, `config` and `inputs`. -/
structure State where
  /-- `x[0]` to `x[15]` (R10). -/
  regs : Vector Word 16
  /-- Control register 0x001 (R17). -/
  status : Status
  /-- Control register 0x002 (R18). -/
  finfo : Word
  /-- Control register 0x003 (R18). -/
  fcmd : Word
  /-- Control register 0x010 (R19). -/
  wbase : Word
  /-- Control register 0x011 (R19). -/
  wlimit : Word
  /-- Control registers 0x020 to 0x028 (R20, R21). -/
  lerp : Lerp
  /-- Memory (R22). -/
  mem : Memory
  /-- The model's own: the parameters of R4 (log 5). -/
  config : Config
  /-- The model's own: what the host will do next, oldest first (log 1). -/
  inputs : List HostInput
  deriving DecidableEq, Repr

/-- The state right after reset (R25, R261), with the standard configuration (log 5), no byte of memory listed (log 4)
and nothing presented by the host (log 1). -/
def State.reset : State where
  regs := Vector.replicate 16 0
  status := { f := false, fc := 0, lx := false }
  finfo := 0
  fcmd := 0
  wbase := 0
  wlimit := 0
  lerp := { acc := { c0 := 0, c1 := 0, c2 := 0 }, del := { c0 := 0, c1 := 0, c2 := 0 }, rem := 0 }
  mem := []
  config := Config.standard
  inputs := []

end Sys2Proof.Machine
end

