-- ==== Sys2Proof/Machine/Flags.lean ====
section
/-! DEFINITION. The status bits (spec/10_state.md R17): the only flags of the CCU (R13). -/

namespace Sys2Proof.Machine

/-- The code of a cause in `STATUS.FC` (R240). -/
def faultNumber : FaultCode → BitVec 4
  | .illegal => 1
  | .access => 2
  | .spectrum => 3

/-- `STATUS` as read: `F` in bit 0, `FC` in bits 7:4, `LX` in bit 8, every other bit 0 (R17). -/
def statusWord (st : Status) : Word :=
  (0 : BitVec 23) ++ BitVec.ofBool st.lx ++ st.fc ++ (0 : BitVec 3) ++ BitVec.ofBool st.f

/-- `STATUS.LX <- v` (R85, R164, R169). -/
def State.setLx (s : State) (v : Bool) : State := { s with status := { s.status with lx := v } }

/-- `STATUS.F` and `STATUS.FC` at a fault; `LX` is kept (R243). -/
def Status.faulted (st : Status) (code : FaultCode) : Status :=
  { st with f := true, fc := faultNumber code }

end Sys2Proof.Machine
end

