-- ==== Sys2Proof/Machine/Ops.lean ====
section
/-! DEFINITION. The named operations over memory, registers and control registers, fault entry (spec/60_exceptions.md
R243) and, beside it, the one way out of the faulted state, reset (R244, R260). -/

namespace Sys2Proof.Machine

/-- What a meaning answers. -/
abbrev Result := Host.Outcome State Fault Refusal

/-! ### Memory (spec/20_memory.md) -/

/-- `MemRead(a, 1)`: the byte at address `a`; an unlisted byte reads 0 (log 4). -/
def Memory.read : Memory → Nat → Byte
  | [], _ => 0
  | (k, v) :: rest, a => if k = a then v else Memory.read rest a

/-- The list without the byte at `a`. -/
def Memory.erase (m : Memory) (a : Nat) : Memory := m.filter (fun c => c.1 ≠ a)

/-- The list with a cell put before the first higher address. -/
def Memory.insert : Memory → Nat → Byte → Memory
  | [], a, b => [(a, b)]
  | (k, v) :: rest, a, b => if a < k then (a, b) :: (k, v) :: rest else (k, v) :: Memory.insert rest a b

/-- `MemWrite(a, 1, b)`. Writing 0 removes the entry, so that equal memories are equal lists. -/
def Memory.write (m : Memory) (a : Nat) (b : Byte) : Memory :=
  if b = 0 then Memory.erase m a else Memory.insert (Memory.erase m a) a b

/-- The canonical form, for addresses from `lo`: strictly rising, below 2^32, no byte 0. -/
def Memory.wfFrom : Nat → Memory → Bool
  | _, [] => true
  | lo, (a, b) :: rest => decide (lo ≤ a) && decide (a < 2 ^ 32) && b != 0 && Memory.wfFrom (a + 1) rest

/-- The canonical form of memory. -/
def Memory.wf (m : Memory) : Bool := Memory.wfFrom 0 m

/-- R42: `MemRead(a, 4)`, little-endian. -/
def Memory.read4 (m : Memory) (a : Nat) : Word :=
  m.read (a + 3) ++ m.read (a + 2) ++ m.read (a + 1) ++ m.read a

/-- R42: `MemWrite(a, 4, v)`, little-endian. -/
def Memory.write4 (m : Memory) (a : Nat) (v : Word) : Memory :=
  (((m.write a (lane8 v 0)).write (a + 1) (lane8 v 1)).write (a + 2) (lane8 v 2)).write (a + 3) (lane8 v 3)

/-- R212: `ReadPix(a)`, first channel at the lowest address (R23). -/
def Memory.readPix (m : Memory) (a : Nat) : Pixel := pack (m.read a) (m.read (a + 1)) (m.read (a + 2))

/-- R212: `WritePix(a, p)`. -/
def Memory.writePix (m : Memory) (a : Nat) (p : Pixel) : Memory :=
  ((m.write a (chan p .c0)).write (a + 1) (chan p .c1)).write (a + 2) (chan p .c2)

/-- The state with another memory. -/
def State.setMem (s : State) (m : Memory) : State := { s with mem := m }

/-! ### General registers (R10) -/

/-- `x[r]`. No register is hard-wired. -/
def State.reg (s : State) (r : Reg) : Word := s.regs[r.val]

/-- `x[r] <- v`. -/
def State.setReg (s : State) (r : Reg) (v : Word) : State := { s with regs := s.regs.set r.val v r.isLt }

/-! ### The accumulator (R20) -/

/-- The value of one channel. -/
def PerChan.get {α : Type} (t : PerChan α) : Chan → α
  | .c0 => t.c0
  | .c1 => t.c1
  | .c2 => t.c2

/-- The three values with one channel replaced: channels are independent (R161). -/
def PerChan.put {α : Type} (t : PerChan α) (c : Chan) (v : α) : PerChan α :=
  match c with
  | .c0 => { t with c0 := v }
  | .c1 => { t with c1 := v }
  | .c2 => { t with c2 := v }

/-- The state with another accumulator. -/
def State.setLerp (s : State) (l : Lerp) : State := { s with lerp := l }

/-- `lerp.acc[c] <- v`. -/
def State.setAcc (s : State) (c : Chan) (v : Half) : State :=
  s.setLerp { s.lerp with acc := s.lerp.acc.put c v }

/-- `lerp.del[c] <- v`. -/
def State.setDel (s : State) (c : Chan) (v : Half) : State :=
  s.setLerp { s.lerp with del := s.lerp.del.put c v }

/-- `lerp.rem <- v`. -/
def State.setRem (s : State) (v : Half) : State := s.setLerp { s.lerp with rem := v }

/-! ### Control registers (R15) -/

/-- `ID_VALUE`, the ASCII bytes CCU1 (R16). -/
def idValue : Word := 0x43435531

/-- The "reads as" column of R15: `LACCc` and `LREM` zero-extended, `LDELc` sign-extended (R21). -/
def State.csrRead (s : State) : Csr → Word
  | .id => idValue
  | .status => statusWord s.status
  | .finfo => s.finfo
  | .fcmd => s.fcmd
  | .wbase => s.wbase
  | .wlimit => s.wlimit
  | .lacc c => (s.lerp.acc.get c).setWidth 32
  | .ldel c => (s.lerp.del.get c).signExtend 32
  | .lrem => s.lerp.rem.setWidth 32

/-- R85: `csr[n] <- v`. The seven accumulator registers take the low 16 bits; a write of `LREM` also clears
`STATUS.LX`. A read-only register keeps its value: `CSRW` to one is illegal and never comes here. -/
def State.csrWrite (s : State) (n : Csr) (v : Word) : State :=
  match n with
  | .id => s
  | .status => s
  | .finfo => s
  | .fcmd => s
  | .wbase => { s with wbase := v }
  | .wlimit => { s with wlimit := v }
  | .lacc c => s.setAcc c (v.setWidth 16)
  | .ldel c => s.setDel c (v.setWidth 16)
  | .lrem => (s.setRem (v.setWidth 16)).setLx false

/-! ### Faults (spec/60_exceptions.md) -/

/-- R243: fault entry, the whole effect of a command that raises `Fault(code, info)`. -/
def State.raiseFault (s : State) (code : FaultCode) (info cmd : Word) : State :=
  { s with status := s.status.faulted code, finfo := info, fcmd := cmd }

/-- The effect of a word that decoding does not recognise (R241); none in the faulted state (R244). -/
def State.illegalWord (s : State) (w : Word) : State :=
  if s.status.f then s else s.raiseFault .illegal 0 w

/-- R260 to R262: reset, the only way out of the faulted state (R244). Every register takes its reset value; memory is
not touched, and neither is what the model holds of the host and the configuration (log 16). -/
def State.applyReset (s : State) : State :=
  { State.reset with mem := s.mem, config := s.config, inputs := s.inputs }

/-! ### The frame of every command -/

/-- A command that cannot fault once it is decoded: no effect in the faulted state (R244), else its effect. -/
def command (s : State) (effect : State → State) : Result :=
  if s.status.f then .next s else .next (effect s)

/-- A command whose term may fail a check of R67 (d) or (e): the decoder never gives such a term; on one, the unit
raises `ILLEGAL` with the word the term encodes to (R241, log 11). -/
def checkedCommand (ok : Bool) (i : Instr) (s : State) (effect : State → State) : Result :=
  if ok then command s effect else .next (s.illegalWord (encode i))

end Sys2Proof.Machine
end

