-- ==== Sys2Proof/Machine/Operands.lean ====
section
/-! DEFINITION. The operand forms of the commands (spec/10_state.md R11) and the writes of their results. -/

namespace Sys2Proof.Machine

/-- An N-bit operand: the low `n` bits of the register, the rest ignored (R11). -/
def State.low (s : State) (n : Nat) (r : Reg) : Nat := (s.reg r).toNat % 2 ^ n

/-- The low byte of a register, as bits. -/
def State.byteOf (s : State) (r : Reg) : Byte := (s.reg r).setWidth 8

/-- The low 16 bits of a register, as bits. -/
def State.halfOf (s : State) (r : Reg) : Half := (s.reg r).setWidth 16

/-- A packed triple: bits 23:0 of the register (R11, R14). -/
def State.triple (s : State) (r : Reg) : Pixel := (s.reg r).setWidth 24

/-- An address, a byte length or an element count: all 32 bits, unsigned (R11). -/
def State.count (s : State) (r : Reg) : Nat := (s.reg r).toNat

/-- R211: the effective address `x[rs1] + off`, a mathematical integer. -/
def State.effective (s : State) (rs1 : Reg) (off : Byte) : Nat := s.count rs1 + off.toNat

/-- An unsigned result, zero-extended to 32 bits (R11). -/
def State.writeNat (s : State) (rd : Reg) (v : Nat) : State := s.setReg rd (BitVec.ofNat 32 v)

/-- A packed triple as a result, zero-extended to 32 bits (R11). -/
def State.writeTriple (s : State) (rd : Reg) (p : Pixel) : State := s.setReg rd (p.setWidth 32)

/-- The register after `r`: `x[rd+1]` of R120. -/
def nextReg (r : Reg) : Reg := r + 1

end Sys2Proof.Machine
end

