-- ==== Sys2Proof/Machine/Window.lean ====
section
/-! DEFINITION. The memory window (spec/20_memory.md R41, R46, R47): the byte extent of each memory command and its
check before the first access. -/

namespace Sys2Proof.Machine

/-- R41: the extent (first byte, number of bytes) of a memory command, a mathematical integer each; `none` for the
commands that access no memory. -/
def extentOf (s : State) : Instr → Option (Nat × Nat)
  | .bscale rs1 rs2 _ => some (s.count rs1, s.count rs2)
  | .fade rs1 rs2 _ => some (s.count rs1, 3 * s.count rs2)
  | .lfill rs1 => some (s.count rs1, 3 * s.lerp.rem.toNat)
  | .blur rs1 rs2 _ => some (s.count rs1, 3 * s.count rs2)
  | .fill rs1 rs2 _ => some (s.count rs1, 3 * s.count rs2)
  | .bblend rs1 rs2 _ _ => some (s.count rs1, 3 * s.count rs2)
  | .ldp _ rs1 off => some (s.effective rs1 off, 3)
  | .stp _ rs1 off => some (s.effective rs1 off, 3)
  | .ldb _ rs1 off => some (s.effective rs1 off, 1)
  | .stb _ rs1 off => some (s.effective rs1 off, 1)
  | .nop => none
  | .li _ _ => none
  | .lih _ _ => none
  | .mv _ _ => none
  | .csrr _ _ => none
  | .csrw _ _ => none
  | .pack _ _ _ _ => none
  | .chan _ _ _ => none
  | .scale _ _ _ _ => none
  | .scalev _ _ _ _ => none
  | .dimr _ _ _ => none
  | .dimv _ _ _ => none
  | .diml _ _ _ => none
  | .brtr _ _ _ => none
  | .brtv _ _ _ => none
  | .brtl _ _ _ => none
  | .blend _ _ _ _ _ => none
  | .nscale2 _ _ _ => none
  | .nscale3 _ _ _ => none
  | .nscale4 _ _ _ => none
  | .qadd _ _ _ _ => none
  | .qsub _ _ _ _ => none
  | .padd _ _ _ => none
  | .psub _ _ _ => none
  | .hue2rgb _ _ => none
  | .hsv2rgb _ _ => none
  | .hsv2spc _ _ => none
  | .hdist _ _ _ _ => none
  | .lsetd _ _ _ => none
  | .lsete _ _ _ => none
  | .ldiv _ => none
  | .lnext _ => none

/-- R46: `check_extent(a, nbytes)`. The sum is not reduced modulo 2^32 (R47); an empty extent is always inside (R56). -/
def State.inWindow (s : State) (a nbytes : Nat) : Bool :=
  nbytes == 0 || (decide (s.wbase.toNat ≤ a) && decide (a + nbytes ≤ s.wlimit.toNat))

/-- R46, R243, R244: a memory command. No effect in the faulted state; `Fault(ACCESS, a)` when its extent is not inside
the window, with nothing accessed; else its effect. An effective address above 2^32 − 1 (R211) is above every window,
so the one check refuses it, with the information word `ea mod 2^32` that R240 asks for (log 12). -/
def memoryCommand (i : Instr) (s : State) (effect : State → State) : Result :=
  if s.status.f then .next s else
  match extentOf s i with
  | none => .next (effect s)
  | some (a, nbytes) =>
    if s.inWindow a nbytes then .next (effect s)
    else .next (s.raiseFault .access (BitVec.ofNat 32 a) (encode i))

end Sys2Proof.Machine
end

