-- ==== Sys2Proof/Machine/Batch.lean ====
section
/-! DEFINITION. The batch byte-scaling pipeline (spec/43_batch_scale.md), as the sequence of byte and word steps of
R144. -/

namespace Sys2Proof.Machine

/-- One step of R144: a read and then a write of the same byte or aligned word (R145). -/
inductive BatchStep where
  | byte (addr : Nat)
  | word (addr : Nat)
  deriving DecidableEq, Repr

/-- `byte_step(a + k)` for k = 0 .. n − 1. -/
def byteSteps (a n : Nat) : List BatchStep := (List.range n).map fun k => .byte (a + k)

/-- `word_step(a + 4 j)` for j = 0 .. n − 1. -/
def wordSteps (a n : Nat) : List BatchStep := (List.range n).map fun j => .word (a + 4 * j)

/-- R144: the steps of `batch_scale(a, n, f)` in order, for a threshold. -/
def batchSteps (threshold a n : Nat) : List BatchStep :=
  if n = 0 then []
  else if n ≤ threshold then byteSteps a n
  else
    let r := splitExtent a n
    byteSteps a r.head ++ (wordSteps (a + r.head) r.words ++ byteSteps (a + r.head + 4 * r.words) r.tail)

/-- R144: `byte_step` and `word_step` with `sc` = factor + 1. -/
def batchStep (sc : Nat) (m : Memory) : BatchStep → Memory
  | .byte a => m.write a (BitVec.ofNat 8 ((m.read a).toNat * sc / 256))
  | .word a => m.write4 a (lanes (m.read4 a) sc)

/-- R144: `batch_scale(a, n, f)`. -/
def batchScale (threshold a n f : Nat) (m : Memory) : Memory :=
  (batchSteps threshold a n).foldl (batchStep (f + 1)) m

/-- R148. -/
def execBscale (rs1 rs2 rs3 : Reg) (s : State) : Result :=
  memoryCommand (.bscale rs1 rs2 rs3) s fun s =>
    s.setMem (batchScale s.config.batchThreshold (s.count rs1) (s.count rs2) (s.low 8 rs3) s.mem)

/-- R149: `3 × count` bytes scaled by `255 − amount`. -/
def execFade (rs1 rs2 rs3 : Reg) (s : State) : Result :=
  memoryCommand (.fade rs1 rs2 rs3) s fun s =>
    s.setMem (batchScale s.config.batchThreshold (s.count rs1) (3 * s.count rs2) (255 - s.low 8 rs3) s.mem)

end Sys2Proof.Machine
end

