-- ==== Sys2Proof/Machine/Buffer.lean ====
section
/-! DEFINITION. The blur engine, buffer fill and blend, pixel and byte load and store (spec/46_buffer_ops.md). -/

namespace Sys2Proof.Machine

/-! ### Blur -/

/-- The loop of R201 over the `n` pixels from address `a` up, with the carry that the pixel at `a` receives. The last
pixel has no preview and nothing is read beyond the extent. -/
def blurLoop (keep seep : Nat) : Nat → Nat → Pixel → Memory → Memory
  | 0, _, _, m => m
  | n + 1, a, carry, m =>
    let cur := padd (pscale (m.readPix a) keep) carry
    if n = 0 then m.writePix a cur
    else
      let part := pscale (m.readPix (a + 3)) seep
      blurLoop keep seep n (a + 3) part (m.writePix a (padd cur part))

/-- R201: `blur(a, n, amount)`; the first pixel's carry is black. -/
def blur (a n amount : Nat) (m : Memory) : Memory := blurLoop (blurKeep amount) (blurSeep amount) n a 0 m

/-- R203. -/
def execBlur (rs1 rs2 rs3 : Reg) (s : State) : Result :=
  memoryCommand (.blur rs1 rs2 rs3) s fun s =>
    s.setMem (blur (s.count rs1) (s.count rs2) (s.low 8 rs3) s.mem)

/-! ### Fill and blend -/

/-- The loop of R204: `WritePix(a + 3i, p)` for the `n` pixels from `a` up. -/
def fillLoop (p : Pixel) : Nat → Nat → Memory → Memory
  | 0, _, m => m
  | n + 1, a, m => fillLoop p n (a + 3) (m.writePix a p)

/-- R204. -/
def execFill (rs1 rs2 rs3 : Reg) (s : State) : Result :=
  memoryCommand (.fill rs1 rs2 rs3) s fun s =>
    s.setMem (fillLoop (s.triple rs3) (s.count rs2) (s.count rs1) s.mem)

/-- The loop of R206: each pixel is read, then written, before the next is read. -/
def bblendLoop (o : Pixel) (amt : Nat) : Nat → Nat → Memory → Memory
  | 0, _, m => m
  | n + 1, a, m => bblendLoop o amt n (a + 3) (m.writePix a (pzip (bblend amt) (m.readPix a) o))

/-- R206: the amount is in the register that the `rd` field names. -/
def execBblend (rs1 rs2 rs3 rs4 : Reg) (s : State) : Result :=
  memoryCommand (.bblend rs1 rs2 rs3 rs4) s fun s =>
    s.setMem (bblendLoop (s.triple rs3) (s.low 8 rs4) (s.count rs2) (s.count rs1) s.mem)

/-! ### Single pixel and byte access -/

/-- R207. -/
def execLdp (rd rs1 : Reg) (off : Byte) (s : State) : Result :=
  memoryCommand (.ldp rd rs1 off) s fun s => s.writeTriple rd (s.mem.readPix (s.effective rs1 off))

/-- R208. -/
def execStp (rs2 rs1 : Reg) (off : Byte) (s : State) : Result :=
  memoryCommand (.stp rs2 rs1 off) s fun s =>
    s.setMem (s.mem.writePix (s.effective rs1 off) (s.triple rs2))

/-- R209: zero-extended. -/
def execLdb (rd rs1 : Reg) (off : Byte) (s : State) : Result :=
  memoryCommand (.ldb rd rs1 off) s fun s => s.setReg rd ((s.mem.read (s.effective rs1 off)).setWidth 32)

/-- R210. -/
def execStb (rs2 rs1 : Reg) (off : Byte) (s : State) : Result :=
  memoryCommand (.stb rs2 rs1 off) s fun s =>
    s.setMem (s.mem.write (s.effective rs1 off) (s.byteOf rs2))

end Sys2Proof.Machine
end

