-- ==== Sys2Proof/Machine/Hue.lean ====
section
/-! DEFINITION. The hue mapper, HSV conversion, the spectrum path and the hue distance (spec/45_hue.md), with the two
configured functions of spec/00_scope.md R4. -/

namespace Sys2Proof.Machine

/-! ### The rainbow mapping -/

/-- The configured `HUE_RAINBOW` (R181, R192). -/
def hueRainbow (cfg : Config) (h : Byte) : Pixel := rainbowOf cfg.hue h

/-- R181 of the configured `HUE_RAINBOW`: in section 0 red does not increase and green does not decrease, in section 1
red is constant (constraints 4 and 5), and the constraints as `rainbowConstraints` has them. -/
def rainbowLawful (cfg : Config) : Prop :=
  (∀ h k : Byte, h.toNat ≤ k.toNat → k.toNat < 32 →
    (chan (hueRainbow cfg k) .c0).toNat ≤ (chan (hueRainbow cfg h) .c0).toNat ∧
      (chan (hueRainbow cfg h) .c1).toNat ≤ (chan (hueRainbow cfg k) .c1).toNat) ∧
  (∀ h k : Byte, 32 ≤ h.toNat → h.toNat < 64 → 32 ≤ k.toNat → k.toNat < 64 →
    chan (hueRainbow cfg h) .c0 = chan (hueRainbow cfg k) .c0) ∧
  rainbowConstraints cfg.hue cfg.spectrum = true

/-- R184. -/
def execHue2rgb (rd rs1 : Reg) (s : State) : Result :=
  command s fun s => s.writeTriple rd (hueRainbow s.config (s.byteOf rs1))

/-! ### Saturation and value -/

/-- The "desaturation floor" of R183. -/
def desaturationFloor (sat : Nat) : Nat := dimRawN 8 (255 - sat)

/-- The general lines of R183: saturation toward the floor, the floor added back, then value. -/
def saturate (c : Pixel) (sat val : Nat) : Pixel :=
  pscale (pmap (fun t => qaddN 8 (scaleN 8 t (255 - desaturationFloor sat)) (desaturationFloor sat)) c) val

/-- R183: `hsv_to_rgb(p)`, the two short-circuits first. -/
def hsvToRgb (cfg : Config) (p : Pixel) : Pixel :=
  let h := chan p .c0
  let sat := chan p .c1
  let val := chan p .c2
  if val = 0 then 0
  else if sat = 0 then pack val val val
  else saturate (hueRainbow cfg h) sat.toNat val.toNat

/-- R185. -/
def execHsv2rgb (rd rs1 : Reg) (s : State) : Result :=
  command s fun s => s.writeTriple rd (hsvToRgb s.config (s.triple rs1))

/-! ### The spectrum path -/

/-- The configured `SPECTRUM` (R186); the default has no value for a hue above 191 (R187). -/
def spectrumValue (cfg : Config) (p : Pixel) : Option Pixel := spectrumOf cfg.spectrum p

/-- R188: the operand violates the configured precondition; the bound is inclusive. -/
def spectrumBad (cfg : Config) (p : Pixel) : Bool :=
  let h := (chan p .c0).toNat
  let val := (chan p .c2).toNat
  match cfg.spectrumPre with
  | .value => decide (val > cfg.spectrumBound)
  | .hue => decide (h > cfg.spectrumBound)
  | .both => decide (val > cfg.spectrumBound) || decide (h > cfg.spectrumBound)

/-- A configuration that 93_implementation_defined.md U3 does not refuse: `SPECTRUM` is total on the triples that the
precondition admits (R186). -/
def spectrumTotal (cfg : Config) : Prop :=
  ∀ p : Pixel, spectrumBad cfg p = false → (spectrumValue cfg p).isSome

/-- R188: the precondition first, as a `SPECTRUM` fault that leaves `x[rd]` unchanged; then the conversion. -/
def execHsv2spc (rd rs1 : Reg) (s : State) : Result :=
  if s.status.f then .next s
  else if spectrumBad s.config (s.triple rs1) then
    .next (s.raiseFault .spectrum ((s.triple rs1).setWidth 32) (encode (.hsv2spc rd rs1)))
  else
    match spectrumValue s.config (s.triple rs1) with
    | some c => .next (s.writeTriple rd c)
    | none => .refused .spectrumUndefined

/-! ### Hue distance -/

/-- R191: the signed distance, sign-extended to 32 bits. -/
def execHdist (d : Dir) (rd rs1 rs2 : Reg) (s : State) : Result :=
  command s fun s => s.setReg rd (BitVec.ofInt 32 (hueDist (s.byteOf rs1) (s.byteOf rs2) d))

end Sys2Proof.Machine
end

