-- ==== Sys2Proof/Machine/LerpUnit.lean ====
section
/-! DEFINITION. The three-channel interpolation accumulator (spec/44_lerp.md). Each command does what its rule says to
whatever state it finds (R160). -/

namespace Sys2Proof.Machine

/-! ### Construction -/

/-- The start byte in the integer part, fraction 0 (R162, R163). -/
def startAcc (start : Byte) : Half := start ++ (0 : Byte)

/-- R163: the distance `(end − start) × 128` as a 16-bit pattern. -/
def endDistance (start stop : Byte) : Half :=
  BitVec.ofInt 16 (((stop.toNat : Int) - (start.toNat : Int)) * 128)

/-- R162. -/
def execLsetd (ch : Chan) (rs1 rs2 : Reg) (s : State) : Result :=
  command s fun s => (s.setAcc ch (startAcc (s.byteOf rs1))).setDel ch (s.halfOf rs2)

/-- R163. -/
def execLsete (ch : Chan) (rs1 rs2 : Reg) (s : State) : Result :=
  command s fun s =>
    (s.setAcc ch (startAcc (s.byteOf rs1))).setDel ch (endDistance (s.byteOf rs1) (s.byteOf rs2))

/-! ### Step computation -/

/-- R164 to R166: the signed distance divided by the count, rounded toward zero, doubled, low 16 bits kept. -/
def stepDelta (d : Half) (n : Nat) : Half := BitVec.ofInt 16 (2 * Int.tdiv d.toInt (n : Int))

/-- R164, R167: the accumulator after `LDIV` with count `n`. -/
def Lerp.divide (l : Lerp) (n : Half) : Lerp :=
  if n = 0 then { l with rem := 0 }
  else
    { l with
      del := { c0 := stepDelta l.del.c0 n.toNat, c1 := stepDelta l.del.c1 n.toNat,
               c2 := stepDelta l.del.c2 n.toNat }
      rem := n }

/-- R164: `LX` is cleared. -/
def execLdiv (rs1 : Reg) (s : State) : Result :=
  command s fun s => (s.setLerp (s.lerp.divide (s.halfOf rs1))).setLx false

/-! ### Iteration -/

/-- The top byte of an accumulator (R168). -/
def topByte (a : Half) : Byte := a.extractLsb' 8 8

/-- The triple the accumulator yields (R168, R161). -/
def Lerp.triple (l : Lerp) : Pixel := pack (topByte l.acc.c0) (topByte l.acc.c1) (topByte l.acc.c2)

/-- R168: every accumulator advances by its delta, modulo 65536. -/
def Lerp.advance (l : Lerp) : Lerp :=
  { l with
    acc := { c0 := l.acc.c0 + l.del.c0, c1 := l.acc.c1 + l.del.c1, c2 := l.acc.c2 + l.del.c2 } }

/-- R168 when a triple is left, R169 when none is. -/
def execLnext (rd : Reg) (s : State) : Result :=
  command s fun s =>
    if s.lerp.rem = 0 then s.setLx true
    else (s.writeTriple rd s.lerp.triple).setLerp { s.lerp.advance with rem := s.lerp.rem - 1 }

/-- The loop of R170: `n` triples from address `a` up, the accumulator advanced after each. -/
def lfillLoop : Nat → Nat → Lerp → Memory → Lerp × Memory
  | 0, _, l, m => (l, m)
  | n + 1, a, l, m => lfillLoop n (a + 3) l.advance (m.writePix a l.triple)

/-- The effect of `LFILL` at address `a` (R170); `LX` is not set. -/
def lfillEffect (a : Nat) (s : State) : State :=
  let r := lfillLoop s.lerp.rem.toNat a s.lerp s.mem
  (s.setMem r.2).setLerp { r.1 with rem := 0 }

/-- R170. -/
def execLfill (rs1 : Reg) (s : State) : Result :=
  memoryCommand (.lfill rs1) s fun s => lfillEffect (s.count rs1) s

end Sys2Proof.Machine
end

