-- ==== Sys2Proof/Machine/MoveSystem.lean ====
section
/-! DEFINITION. The move, immediate, control-register and triple-packing commands (spec/40_move_system.md). All sources
are read before the destination is written. -/

namespace Sys2Proof.Machine

/-- R80. -/
def execNop (s : State) : Result := command s fun s => s

/-- R81: `x[rd] <- zext_32(imm16)`. -/
def execLi (rd : Reg) (imm : Half) (s : State) : Result := command s fun s => s.setReg rd (imm.setWidth 32)

/-- R82: `x[rd] <- {imm16, x[rd][15:0]}`. -/
def execLih (rd : Reg) (imm : Half) (s : State) : Result := command s fun s => s.setReg rd (imm ++ s.halfOf rd)

/-- R83: all 32 bits. -/
def execMv (rd rs1 : Reg) (s : State) : Result := command s fun s => s.setReg rd (s.reg rs1)

/-- R84. -/
def execCsrr (rd : Reg) (n : Csr) (s : State) : Result := command s fun s => s.setReg rd (s.csrRead n)

/-- R85: `ILLEGAL` on a read-only register. -/
def execCsrw (n : Csr) (rs1 : Reg) (s : State) : Result :=
  checkedCommand n.writable (.csrw n rs1) s fun s => s.csrWrite n (s.reg rs1)

/-- R86: the low bytes of the three sources. -/
def execPack (rd rs1 rs2 rs3 : Reg) (s : State) : Result :=
  command s fun s => s.writeTriple rd (pack (s.byteOf rs1) (s.byteOf rs2) (s.byteOf rs3))

/-- R87. -/
def execChan (rd rs1 : Reg) (ch : Chan) (s : State) : Result :=
  command s fun s => s.setReg rd ((chan (s.triple rs1) ch).setWidth 32)

end Sys2Proof.Machine
end

