-- ==== Sys2Proof/Machine/Scalar.lean ====
section
/-! DEFINITION. The scalar fixed-point commands (spec/41_scalar_fixed_point.md section 2). Operands are the low N bits
of their registers, results are zero-extended; no status bit is written and no memory accessed. -/

namespace Sys2Proof.Machine

/-- The commands with one N-bit operand (R110 to R115). -/
def unaryOp (f : Nat → Nat → Nat) (w : Width) (rd rs1 : Reg) (s : State) : Result :=
  command s fun s => s.writeNat rd (f (widthN w) (s.low (widthN w) rs1))

/-- The commands with two N-bit operands (R108, R109, R132, R133). -/
def binaryOp (f : Nat → Nat → Nat → Nat) (w : Width) (rd rs1 rs2 : Reg) (s : State) : Result :=
  command s fun s => s.writeNat rd (f (widthN w) (s.low (widthN w) rs1) (s.low (widthN w) rs2))

/-- R108. -/
def execScale (w : Width) (rd rs1 rs2 : Reg) (s : State) : Result := binaryOp scaleN w rd rs1 rs2 s

/-- R109. -/
def execScalev (w : Width) (rd rs1 rs2 : Reg) (s : State) : Result := binaryOp scaleVideoN w rd rs1 rs2 s

/-- R110. -/
def execDimr (w : Width) (rd rs1 : Reg) (s : State) : Result := unaryOp dimRawN w rd rs1 s

/-- R111. -/
def execDimv (w : Width) (rd rs1 : Reg) (s : State) : Result := unaryOp dimVideoN w rd rs1 s

/-- R112. -/
def execDiml (w : Width) (rd rs1 : Reg) (s : State) : Result := unaryOp dimLinN w rd rs1 s

/-- R113. -/
def execBrtr (w : Width) (rd rs1 : Reg) (s : State) : Result := unaryOp brightenRawN w rd rs1 s

/-- R114. -/
def execBrtv (w : Width) (rd rs1 : Reg) (s : State) : Result := unaryOp brightenVideoN w rd rs1 s

/-- R115. -/
def execBrtl (w : Width) (rd rs1 : Reg) (s : State) : Result := unaryOp brightenLinN w rd rs1 s

/-- R116. -/
def execBlend (w : Width) (rd rs1 rs2 rs3 : Reg) (s : State) : Result :=
  command s fun s =>
    s.writeNat rd (blendN (widthN w) (s.low (widthN w) rs1) (s.low (widthN w) rs2) (s.low (widthN w) rs3))

/-- R120: the first `k` lanes scaled in place by the low N bits of `x[rs2]`, which is read first. With 16-bit lanes,
lanes 2 and 3 are in the register after `rd`, which 2 lanes do not touch. -/
def nscaleEffect (k : Nat) (w : Width) (rd rs2 : Reg) (s : State) : State :=
  match w with
  | .w8 => s.setReg rd (scaleLanes8 k (s.low 8 rs2) (s.reg rd))
  | .w16 =>
    let first := s.setReg rd (scaleLanes16 k (s.low 16 rs2) (s.reg rd))
    if k ≤ 2 then first
    else first.setReg (nextReg rd) (scaleLanes16 (k - 2) (s.low 16 rs2) (s.reg (nextReg rd)))

/-- R117: any `rd` is legal in both widths. -/
def execNscale2 (w : Width) (rd rs2 : Reg) (s : State) : Result := command s (nscaleEffect 2 w rd rs2)

/-- R118: `ILLEGAL` on 16-bit lanes with an odd `rd`. -/
def execNscale3 (w : Width) (rd rs2 : Reg) (s : State) : Result :=
  checkedCommand (laneRegOk w rd) (.nscale3 w rd rs2) s (nscaleEffect 3 w rd rs2)

/-- R119: `ILLEGAL` on 16-bit lanes with an odd `rd`. -/
def execNscale4 (w : Width) (rd rs2 : Reg) (s : State) : Result :=
  checkedCommand (laneRegOk w rd) (.nscale4 w rd rs2) s (nscaleEffect 4 w rd rs2)

end Sys2Proof.Machine
end

