-- ==== Sys2Proof/Machine/Saturating.lean ====
section
/-! DEFINITION. Saturating add and subtract, of scalars and of pixels (spec/42_saturating_add.md section 2). -/

namespace Sys2Proof.Machine

/-- R132. -/
def execQadd (w : Width) (rd rs1 rs2 : Reg) (s : State) : Result := binaryOp qaddN w rd rs1 rs2 s

/-- R133. -/
def execQsub (w : Width) (rd rs1 rs2 : Reg) (s : State) : Result :=
  binaryOp (fun _ a b => qsubN a b) w rd rs1 rs2 s

/-- R134. -/
def execPadd (rd rs1 rs2 : Reg) (s : State) : Result :=
  command s fun s => s.writeTriple rd (padd (s.triple rs1) (s.triple rs2))

/-- R135. -/
def execPsub (rd rs1 rs2 : Reg) (s : State) : Result :=
  command s fun s => s.writeTriple rd (psub (s.triple rs1) (s.triple rs2))

end Sys2Proof.Machine
end

