-- ==== Sys2Proof/Machine/Dispatch.lean ====
section
/-! DEFINITION. The meaning of every command: one arm per constructor, one direct call of its meaning. -/

namespace Sys2Proof.Machine

def exec (i : Instr) (s : State) : Host.Outcome State Fault Refusal :=
  match i with
  | .nop => Sys2Proof.Machine.execNop s
  | .li rd imm => Sys2Proof.Machine.execLi rd imm s
  | .lih rd imm => Sys2Proof.Machine.execLih rd imm s
  | .mv rd rs1 => Sys2Proof.Machine.execMv rd rs1 s
  | .csrr rd n => Sys2Proof.Machine.execCsrr rd n s
  | .csrw n rs1 => Sys2Proof.Machine.execCsrw n rs1 s
  | .pack rd rs1 rs2 rs3 => Sys2Proof.Machine.execPack rd rs1 rs2 rs3 s
  | .chan rd rs1 ch => Sys2Proof.Machine.execChan rd rs1 ch s
  | .scale w rd rs1 rs2 => Sys2Proof.Machine.execScale w rd rs1 rs2 s
  | .scalev w rd rs1 rs2 => Sys2Proof.Machine.execScalev w rd rs1 rs2 s
  | .dimr w rd rs1 => Sys2Proof.Machine.execDimr w rd rs1 s
  | .dimv w rd rs1 => Sys2Proof.Machine.execDimv w rd rs1 s
  | .diml w rd rs1 => Sys2Proof.Machine.execDiml w rd rs1 s
  | .brtr w rd rs1 => Sys2Proof.Machine.execBrtr w rd rs1 s
  | .brtv w rd rs1 => Sys2Proof.Machine.execBrtv w rd rs1 s
  | .brtl w rd rs1 => Sys2Proof.Machine.execBrtl w rd rs1 s
  | .blend w rd rs1 rs2 rs3 => Sys2Proof.Machine.execBlend w rd rs1 rs2 rs3 s
  | .nscale2 w rd rs2 => Sys2Proof.Machine.execNscale2 w rd rs2 s
  | .nscale3 w rd rs2 => Sys2Proof.Machine.execNscale3 w rd rs2 s
  | .nscale4 w rd rs2 => Sys2Proof.Machine.execNscale4 w rd rs2 s
  | .qadd w rd rs1 rs2 => Sys2Proof.Machine.execQadd w rd rs1 rs2 s
  | .qsub w rd rs1 rs2 => Sys2Proof.Machine.execQsub w rd rs1 rs2 s
  | .padd rd rs1 rs2 => Sys2Proof.Machine.execPadd rd rs1 rs2 s
  | .psub rd rs1 rs2 => Sys2Proof.Machine.execPsub rd rs1 rs2 s
  | .hue2rgb rd rs1 => Sys2Proof.Machine.execHue2rgb rd rs1 s
  | .hsv2rgb rd rs1 => Sys2Proof.Machine.execHsv2rgb rd rs1 s
  | .hsv2spc rd rs1 => Sys2Proof.Machine.execHsv2spc rd rs1 s
  | .hdist d rd rs1 rs2 => Sys2Proof.Machine.execHdist d rd rs1 rs2 s
  | .lsetd ch rs1 rs2 => Sys2Proof.Machine.execLsetd ch rs1 rs2 s
  | .lsete ch rs1 rs2 => Sys2Proof.Machine.execLsete ch rs1 rs2 s
  | .ldiv rs1 => Sys2Proof.Machine.execLdiv rs1 s
  | .lnext rd => Sys2Proof.Machine.execLnext rd s
  | .lfill rs1 => Sys2Proof.Machine.execLfill rs1 s
  | .bscale rs1 rs2 rs3 => Sys2Proof.Machine.execBscale rs1 rs2 rs3 s
  | .fade rs1 rs2 rs3 => Sys2Proof.Machine.execFade rs1 rs2 rs3 s
  | .blur rs1 rs2 rs3 => Sys2Proof.Machine.execBlur rs1 rs2 rs3 s
  | .fill rs1 rs2 rs3 => Sys2Proof.Machine.execFill rs1 rs2 rs3 s
  | .bblend rs1 rs2 rs3 rs4 => Sys2Proof.Machine.execBblend rs1 rs2 rs3 rs4 s
  | .ldp rd rs1 off => Sys2Proof.Machine.execLdp rd rs1 off s
  | .stp rs2 rs1 off => Sys2Proof.Machine.execStp rs2 rs1 off s
  | .ldb rd rs1 off => Sys2Proof.Machine.execLdb rd rs1 off s
  | .stb rs2 rs1 off => Sys2Proof.Machine.execStb rs2 rs1 off s

end Sys2Proof.Machine
end

