-- ==== Sys2Proof/Machine/HostPort.lean ====
section
/-! DEFINITION. What the host sees of the unit between commands (spec/70_reset_and_hazards.md R268): the host read port
and the fault output. Reading changes nothing, and works in the faulted state too. -/

namespace Sys2Proof.Machine

/-- The host read port on a general register. -/
def State.hostReadReg (s : State) (r : Reg) : Word := s.reg r

/-- The host read port on a control register. -/
def State.hostReadCsr (s : State) (n : Csr) : Word := s.csrRead n

/-- The host's read of a byte of memory. -/
def State.hostReadByte (s : State) (a : Word) : Byte := s.mem.read a.toNat

/-- The fault output: the level of `STATUS.F`. -/
def State.faultOutput (s : State) : Bool := s.status.f

/-- The host's write of a byte of memory. -/
def State.hostWriteByte (s : State) (a : Word) (b : Byte) : State := s.setMem (s.mem.write a.toNat b)

/-- A program as R269 has it: the host presents these words, in order, after what it presents already. -/
def State.present (s : State) (words : List Word) : State :=
  { s with inputs := s.inputs ++ words.map HostInput.command }

end Sys2Proof.Machine
end

