-- ==== Sys2Proof/Machine/Input.lean ====
section
/-! DEFINITION. What one input of the host does: a command word is decoded and executed completely, or records a fault,
or is ignored when the unit is faulted (spec/70_reset_and_hazards.md R268); reset and memory writes are the host's own
actions between commands. -/

namespace Sys2Proof.Machine

/-- The state after the host's oldest input is taken from the queue. -/
def State.popInput (s : State) : State := { s with inputs := s.inputs.tail }

/-- A word on the command port (R72, R241): the meaning of the command it decodes to, or `Fault(ILLEGAL)`. -/
def runWord (w : Word) (s : State) : Result :=
  match decode w with
  | some i => exec i s
  | none => .next (s.illegalWord w)

/-- One input of the host. -/
def runInput (h : HostInput) (s : State) : Result :=
  match h with
  | .command w => runWord w s
  | .reset => .next s.applyReset
  | .writeByte a b => .next (s.hostWriteByte a b)

/-- The host's oldest input, taken from the queue and acted on; with none, the unit does nothing (R269). -/
def nextInput (s : State) : Result :=
  match s.inputs with
  | [] => .next s
  | h :: _ => runInput h s.popInput

/-- The state with a word presented before every other input. -/
def State.presentFirst (s : State) (w : Word) : State := { s with inputs := .command w :: s.inputs }

end Sys2Proof.Machine
end

