-- ==== Sys2Proof/Machine/Step.lean ====
section
/-! DEFINITION. One step of the CCU: one command, or one other action of the host, completely (spec/00_scope.md R3,
70_reset_and_hazards.md R268). -/

namespace Sys2Proof.Machine

/-- One step: the host's oldest input, or nothing when the host presents none (R269). -/
def step (s : State) : Host.Outcome State Fault Refusal := nextInput s

/-- The state with the low `nbits` bits of `w` (every other bit zero) as the command word the host presents next. The
CCU fetches nothing (R12): the command port is where step takes its next instruction from (log 1). -/
def State.withFetchWord (s : State) (nbits w : Nat) : State :=
  s.presentFirst (BitVec.ofNat 32 (w % 2 ^ nbits))

end Sys2Proof.Machine
end

