-- ==== Sys2Proof/Machine/Port.lean ====
section
/-! DEFINITION. The memory port (spec/70_reset_and_hazards.md R268): the accesses that each memory command makes when it
executes, in order (spec/20_memory.md R45, R51 b; 43_batch_scale.md R145; 46_buffer_ops.md R201, R204, R206). They are a
function of the command and the state before it, not state (spec/10_state.md R24; log 13). -/

namespace Sys2Proof.Machine

/-- The direction of an access. -/
inductive AccessKind where
  | read
  | write
  deriving DecidableEq, Repr

/-- One access on the memory port: 1 byte, or 4 bytes (R45). -/
structure Access where
  kind : AccessKind
  addr : Nat
  width : Nat
  deriving DecidableEq, Repr

/-- Three 1-byte accesses at ascending addresses: a pixel (R45, R212). -/
def pixelAccesses (k : AccessKind) (a : Nat) : List Access :=
  [{ kind := k, addr := a, width := 1 }, { kind := k, addr := a + 1, width := 1 },
    { kind := k, addr := a + 2, width := 1 }]

/-- The accesses of one step of R144: the read, then the write of the same byte or word. -/
def stepAccesses : BatchStep → List Access
  | .byte a => [{ kind := .read, addr := a, width := 1 }, { kind := .write, addr := a, width := 1 }]
  | .word a => [{ kind := .read, addr := a, width := 4 }, { kind := .write, addr := a, width := 4 }]

/-- The accesses of a loop over `n` pixels from address `a` up: `per left b` for the pixel at `b` with `left` pixels
after it. -/
def pixelLoop (per : Nat → Nat → List Access) : Nat → Nat → List Access
  | 0, _ => []
  | n + 1, a => per n a ++ pixelLoop per n (a + 3)

/-- One pixel of `BLUR` (R201): pixel i is read, then pixel i+1 when there is one, then pixel i is written. -/
def blurAccesses (left a : Nat) : List Access :=
  pixelAccesses .read a ++ (if left = 0 then [] else pixelAccesses .read (a + 3)) ++ pixelAccesses .write a

/-- One pixel of `FILL` and `LFILL`: written, never read (R204, R170). -/
def fillAccesses (_left a : Nat) : List Access := pixelAccesses .write a

/-- One pixel of `BBLEND` (R206). -/
def bblendAccesses (_left a : Nat) : List Access := pixelAccesses .read a ++ pixelAccesses .write a

/-- The accesses of a command that passes its check, by command (R41). -/
def effectAccesses (s : State) : Instr → List Access
  | .bscale rs1 rs2 _ =>
    (batchSteps s.config.batchThreshold (s.count rs1) (s.count rs2)).flatMap stepAccesses
  | .fade rs1 rs2 _ =>
    (batchSteps s.config.batchThreshold (s.count rs1) (3 * s.count rs2)).flatMap stepAccesses
  | .lfill rs1 => pixelLoop fillAccesses s.lerp.rem.toNat (s.count rs1)
  | .blur rs1 rs2 _ => pixelLoop blurAccesses (s.count rs2) (s.count rs1)
  | .fill rs1 rs2 _ => pixelLoop fillAccesses (s.count rs2) (s.count rs1)
  | .bblend rs1 rs2 _ _ => pixelLoop bblendAccesses (s.count rs2) (s.count rs1)
  | .ldp _ rs1 off => pixelAccesses .read (s.effective rs1 off)
  | .stp _ rs1 off => pixelAccesses .write (s.effective rs1 off)
  | .ldb _ rs1 off => [{ kind := .read, addr := s.effective rs1 off, width := 1 }]
  | .stb _ rs1 off => [{ kind := .write, addr := s.effective rs1 off, width := 1 }]
  | .nop => []
  | .li _ _ => []
  | .lih _ _ => []
  | .mv _ _ => []
  | .csrr _ _ => []
  | .csrw _ _ => []
  | .pack _ _ _ _ => []
  | .chan _ _ _ => []
  | .scale _ _ _ _ => []
  | .scalev _ _ _ _ => []
  | .dimr _ _ _ => []
  | .dimv _ _ _ => []
  | .diml _ _ _ => []
  | .brtr _ _ _ => []
  | .brtv _ _ _ => []
  | .brtl _ _ _ => []
  | .blend _ _ _ _ _ => []
  | .nscale2 _ _ _ => []
  | .nscale3 _ _ _ => []
  | .nscale4 _ _ _ => []
  | .qadd _ _ _ _ => []
  | .qsub _ _ _ _ => []
  | .padd _ _ _ => []
  | .psub _ _ _ => []
  | .hue2rgb _ _ => []
  | .hsv2rgb _ _ => []
  | .hsv2spc _ _ => []
  | .hdist _ _ _ _ => []
  | .lsetd _ _ _ => []
  | .lsete _ _ _ => []
  | .ldiv _ => []
  | .lnext _ => []

/-- The accesses that `exec i` makes at `s`: none in the faulted state (R244) and none when the extent is not inside the
window (R46, R246). -/
def accesses (i : Instr) (s : State) : List Access :=
  if s.status.f then []
  else
    match extentOf s i with
    | none => []
    | some (a, nbytes) => if s.inWindow a nbytes then effectAccesses s i else []

end Sys2Proof.Machine
end

