-- ==== Sys2Proof/Safety.lean ====
section
/-! DEFINITION. What counts as a safe run, and the invariant of the machine, in the words the statements use. -/

namespace Sys2Proof.Machine

/-- The unit is not in the faulted state (spec/10_state.md R17). -/
abbrev State.live (s : State) : Prop := s.status.f = false

/-- `i` is one of the ten commands that access memory (spec/20_memory.md R41). -/
def isMemoryCommand (i : Instr) : Bool := (extentOf State.reset i).isSome

/-- `i` is `HSV2SPC`, the one command that raises `SPECTRUM` (spec/60_exceptions.md R240). -/
def isSpectrumCommand : Instr → Bool
  | .hsv2spc _ _ => true
  | _ => false

/-- The fault record tells the truth (spec/60_exceptions.md R240, R243; spec/10_state.md R17, R18): with `F` = 0 it is
empty; with `F` = 1, `FC` names a cause that `FCMD` can raise, with an information word of the cause's form. -/
def State.faultRecordOk (s : State) : Bool :=
  if s.status.f then
    (s.status.fc == 1 && s.finfo == 0 && (decode s.fcmd).isNone) ||
    (s.status.fc == 2 && ((decode s.fcmd).any isMemoryCommand)) ||
    (s.status.fc == 3 && decide (s.finfo.toNat < 2 ^ 24) && ((decode s.fcmd).any isSpectrumCommand))
  else s.status.fc == 0 && s.finfo == 0 && s.fcmd == 0

/-- The invariant of the machine: the fault record tells the truth and memory is in its canonical form. -/
def State.Inv (s : State) : Prop := s.faultRecordOk = true ∧ s.mem.wf = true

/-- A safe run: after `k` steps the machine is in a state in which no fault is recorded. -/
def SafeRun (k : Nat) (s : State) : Prop :=
  ∃ t : State, Host.Core.run Sys2Proof.core k s = .next t ∧ t.live

end Sys2Proof.Machine
end

