-- ==== Sys2Proof/Certificates/Slice0/Obligations.lean ====
section
/-! DEFINITION. The statements for the provers, from the numbered rules of spec/. The helpers of `Sys2Proof.Claims` say
the rules' own words again in plain arithmetic of naturals, so that a statement does not repeat the definition it is
about. "Live" is `STATUS.F` = 0. -/

namespace Sys2Proof.Claims

open Sys2Proof Sys2Proof.Machine

/-- A word of format R by the places of its fields (spec/30_encoding.md R61). -/
def cmdR (op rd rs1 rs2 rs3 fn : Nat) : Word :=
  BitVec.ofNat 32 (op * 2 ^ 24 + rd * 2 ^ 20 + rs1 * 2 ^ 16 + rs2 * 2 ^ 12 + rs3 * 2 ^ 8 + fn)

/-- A word of format I by the places of its fields (R62). -/
def cmdI (op rd rs1 imm : Nat) : Word :=
  BitVec.ofNat 32 (op * 2 ^ 24 + rd * 2 ^ 20 + rs1 * 2 ^ 16 + imm)

/-- `w` is the one word that decodes to `i`. -/
def spelledBy (i : Instr) (w : Word) : Prop := ∀ x : Word, decode x = some i ↔ x = w

/-- The `W` bit (R65). -/
def wBit : Width → Nat
  | .w8 => 0
  | .w16 => 1

/-- N (R65). -/
def bitsN : Width → Nat
  | .w8 => 8
  | .w16 => 16

/-- `ch` (R65). -/
def chNo : Chan → Nat
  | .c0 => 0
  | .c1 => 1
  | .c2 => 2

/-- `dir` (R65). -/
def dirNo : Dir → Nat
  | .forward => 0
  | .backwards => 1
  | .shortest => 2
  | .longest => 3

/-- The number of a control register (spec/10_state.md R15). -/
def csrNo : Csr → Nat
  | .id => 0x000
  | .status => 0x001
  | .finfo => 0x002
  | .fcmd => 0x003
  | .wbase => 0x010
  | .wlimit => 0x011
  | .lacc c => 0x020 + chNo c
  | .ldel c => 0x024 + chNo c
  | .lrem => 0x028

/-- The low `n` bits of a register, as a number (R11). -/
def low (s : State) (r : Reg) (n : Nat) : Nat := (s.reg r).toNat % 2 ^ n

/-- Channel `k` (0, 1, 2) of a triple given as a number: bits 23:16, 15:8, 7:0 (R14). -/
def chanNat (p k : Nat) : Nat := p / 2 ^ (16 - 8 * k) % 256

/-- `t` is `s` with `x[rd]` the number `v` and nothing else changed. -/
def onlyReg (s t : State) (rd : Reg) (v : Nat) : Prop :=
  t = { s with regs := t.regs } ∧ (t.reg rd).toNat = v ∧ ∀ r : Reg, r ≠ rd → t.reg r = s.reg r

/-- `s` with a fault recorded and nothing else changed (spec/60_exceptions.md R243). -/
def faultRecord (s : State) (fc : Nat) (info cmd : Word) : State :=
  { s with status := { f := true, fc := BitVec.ofNat 4 fc, lx := s.status.lx }, finfo := info, fcmd := cmd }

/-- The extent is empty or inside the window (spec/20_memory.md R46). -/
def inside (s : State) (a n : Nat) : Prop := n = 0 ∨ (s.wbase.toNat ≤ a ∧ a + n ≤ s.wlimit.toNat)

/-- R100. -/
def scaleFn (n i s : Nat) : Nat := i * (s + 1) / 2 ^ n

/-- R101. -/
def videoFn (n i s : Nat) : Nat := i * s / 2 ^ n + if i ≠ 0 ∧ s ≠ 0 then 1 else 0

/-- R104. -/
def linFn (n x : Nat) : Nat := if x < 2 ^ (n - 1) then (x + 1) / 2 else scaleFn n x x

/-- `truncdiv(a, b)` of spec/00_scope.md section 6.1: the quotient rounded toward zero. -/
def truncdiv (a b : Int) : Int := if 0 ≤ a then a / b else -((-a) / b)

/-- A control register as read (R15, R16, R17, R21), as a number. -/
def csrReads (s : State) : Csr → Nat
  | .id => 0x43435531
  | .status => (if s.status.f then 1 else 0) + 16 * s.status.fc.toNat + (if s.status.lx then 256 else 0)
  | .finfo => s.finfo.toNat
  | .fcmd => s.fcmd.toNat
  | .wbase => s.wbase.toNat
  | .wlimit => s.wlimit.toNat
  | .lacc c => (s.lerp.acc.get c).toNat
  | .ldel c =>
    let d := (s.lerp.del.get c).toNat
    if d < 2 ^ 15 then d else d + (2 ^ 32 - 2 ^ 16)
  | .lrem => s.lerp.rem.toNat

/-- One row of spec/opcode_table.json. -/
structure Row where
  pattern : Word
  mask : Word
  extra : Word → Bool

/-- `ch` = `fn[1:0]` is not 3 (R67 c). -/
def chLegal (w : Word) : Bool := decide (w.toNat % 4 ≠ 3)

/-- With `W` = 1, `rd` is even (R67 d). -/
def evenLegal (w : Word) : Bool := decide (w.toNat % 2 = 0 ∨ w.toNat / 2 ^ 20 % 2 = 0)

/-- `imm16` is one of the 13 control register numbers (R67 e, R15). -/
def csrLegal (w : Word) : Bool :=
  [0x000, 0x001, 0x002, 0x003, 0x010, 0x011, 0x020, 0x021, 0x022, 0x024, 0x025, 0x026, 0x028].contains
    (w.toNat % 2 ^ 16)

/-- `imm16` is one of the read-write ones. -/
def csrWriteLegal (w : Word) : Bool :=
  [0x010, 0x011, 0x020, 0x021, 0x022, 0x024, 0x025, 0x026, 0x028].contains (w.toNat % 2 ^ 16)

/-- No extra constraint. -/
def anyWord (_ : Word) : Bool := true

/-- The 42 rows of spec/opcode_table.json: match, mask, and the extra constraint of R67 where there is one. -/
def opcodeRows : List Row :=
  [⟨0x01000000, 0xFFFFFFFF, anyWord⟩, ⟨0x02000000, 0xFF0F0000, anyWord⟩, ⟨0x03000000, 0xFF0F0000, anyWord⟩,
    ⟨0x04000000, 0xFF00FFFF, anyWord⟩, ⟨0x05000000, 0xFF0F0000, csrLegal⟩, ⟨0x06000000, 0xFFF00000, csrWriteLegal⟩,
    ⟨0x07000000, 0xFF0000FF, anyWord⟩, ⟨0x08000000, 0xFF00FFFC, chLegal⟩] ++
  [⟨0x10000000, 0xFF000FFE, anyWord⟩, ⟨0x11000000, 0xFF000FFE, anyWord⟩, ⟨0x12000000, 0xFF00FFFE, anyWord⟩,
    ⟨0x13000000, 0xFF00FFFE, anyWord⟩, ⟨0x14000000, 0xFF00FFFE, anyWord⟩, ⟨0x15000000, 0xFF00FFFE, anyWord⟩,
    ⟨0x16000000, 0xFF00FFFE, anyWord⟩, ⟨0x17000000, 0xFF00FFFE, anyWord⟩, ⟨0x18000000, 0xFF0000FE, anyWord⟩,
    ⟨0x19000002, 0xFF0F0FFE, anyWord⟩, ⟨0x19000004, 0xFF0F0FFE, evenLegal⟩, ⟨0x19000006, 0xFF0F0FFE, evenLegal⟩,
    ⟨0x1A000000, 0xFF000FFE, anyWord⟩, ⟨0x1B000000, 0xFF000FFE, anyWord⟩] ++
  [⟨0x20000000, 0xFF000FFF, anyWord⟩, ⟨0x21000000, 0xFF000FFF, anyWord⟩, ⟨0x30000000, 0xFF00FFFF, anyWord⟩,
    ⟨0x31000000, 0xFF00FFFF, anyWord⟩, ⟨0x32000000, 0xFF00FFFF, anyWord⟩, ⟨0x33000000, 0xFF000FFC, anyWord⟩,
    ⟨0x40000000, 0xFFF00FFC, chLegal⟩, ⟨0x41000000, 0xFFF00FFC, chLegal⟩, ⟨0x42000000, 0xFFF0FFFF, anyWord⟩,
    ⟨0x43000000, 0xFF0FFFFF, anyWord⟩, ⟨0x44000000, 0xFFF0FFFF, anyWord⟩] ++
  [⟨0x50000000, 0xFFF000FF, anyWord⟩, ⟨0x51000000, 0xFFF000FF, anyWord⟩, ⟨0x52000000, 0xFFF000FF, anyWord⟩,
    ⟨0x53000000, 0xFFF000FF, anyWord⟩, ⟨0x54000000, 0xFF0000FF, anyWord⟩, ⟨0x58000000, 0xFF00FF00, anyWord⟩,
    ⟨0x59000000, 0xFFF00F00, anyWord⟩, ⟨0x5A000000, 0xFF00FF00, anyWord⟩, ⟨0x5B000000, 0xFFF00F00, anyWord⟩]

/-- The default `HUE_RAINBOW` as R182 tabulates it: (red, green, blue) from `sec`, `third`, `two`. -/
def rainbowRow (sec third two : Nat) : Nat × Nat × Nat :=
  if sec = 0 then (255 - third, third, 0)
  else if sec = 1 then (171, 85 + third, 0)
  else if sec = 2 then (171 - two, 170 + third, 0)
  else if sec = 3 then (0, 255 - third, third)
  else if sec = 4 then (0, 171 - two, 85 + two)
  else if sec = 5 then (third, 0, 255 - third)
  else if sec = 6 then (85 + third, 0, 171 - third)
  else (170 + third, 0, 85 - third)

/-- The operand violates the precondition of R188. -/
def violates (cfg : Config) (h v : Nat) : Prop :=
  (cfg.spectrumPre = .value ∧ v > cfg.spectrumBound) ∨ (cfg.spectrumPre = .hue ∧ h > cfg.spectrumBound) ∨
    (cfg.spectrumPre = .both ∧ (v > cfg.spectrumBound ∨ h > cfg.spectrumBound))

/-- The commands that touch the accumulator (spec/70_reset_and_hazards.md R265): `LSETD LSETE LDIV LNEXT LFILL`, and
`CSRW` to one of its registers. -/
def touchesLerp : Instr → Bool
  | .lsetd _ _ _ | .lsete _ _ _ | .ldiv _ | .lnext _ | .lfill _ => true
  | .csrw (.lacc _) _ | .csrw (.ldel _) _ | .csrw .lrem _ => true
  | _ => false

/-- A step of the batch scaler reads and writes the byte at `b`. -/
def covers (b : Nat) : BatchStep → Bool
  | .byte a => decide (b = a)
  | .word a => decide (a ≤ b ∧ b < a + 4)

end Sys2Proof.Claims

open Sys2Proof Sys2Proof.Machine Sys2Proof.Claims

/-! ### The step, decoding, encoding -/

/-- A step with a command word at the port that decodes to `i` is `exec i` on the state without that input; on a word
that does not decode it records `ILLEGAL` (or, faulted, does nothing). `withFetchWord` places a word so. -/
def Obligations.StepRunsDecodedCommand : Prop :=
  ∀ (s : State) (w : Word) (rest : List HostInput), s.inputs = .command w :: rest →
    (∀ i, decode w = some i → i.wellFormed = true ∧ step s = exec i { s with inputs := rest }) ∧
    (decode w = none → step s = .next (({ s with inputs := rest } : State).illegalWord w)) ∧
    ∀ u : State, step (u.withFetchWord 32 w.toNat) = runWord w u

/-- R64, R66, R67, R72: a word decodes to a command exactly when it matches a row of the opcode table and meets the
row's extra constraint. -/
def Obligations.DecodeMatchesOpcodeTable : Prop :=
  ∀ w : Word, (decode w).isSome = opcodeRows.any fun r => (w &&& r.mask == r.pattern) && r.extra w

/-- Decode and encode agree: every well-formed command is what its word decodes to. -/
def Obligations.DecodeEncodeRoundTrip : Prop :=
  ∀ i : Instr, i.wellFormed = true → decode (encode i) = some i

/-- Every command word has one meaning and every command one word (no aliases): the encoding of what a word decodes to
is the word. -/
def Obligations.EncodeDecodeUnique : Prop :=
  ∀ (w : Word) (i : Instr), decode w = some i → encode i = w ∧ i.wellFormed = true

/-- A few words written out from the encoding tables decode to the commands they stand for. -/
def Obligations.SpecWordsDecode : Prop :=
  decode 0x02F0FFFF = some (.li 15 0xFFFF) ∧ decode 0x06020011 = some (.csrw .wlimit 2) ∧
  decode 0x18412301 = some (.blend .w16 4 1 2 3) ∧ decode 0x19304003 = some (.nscale2 .w16 3 4) ∧
  decode 0x19304005 = none ∧ decode 0x33312003 = some (.hdist .longest 3 1 2) ∧
  decode 0x41012001 = some (.lsete .c1 1 2) ∧ decode 0x54412300 = some (.bblend 1 2 3 4) ∧
  decode 0x5B012005 = some (.stb 2 1 5) ∧ decode 0x00000000 = none ∧ decode 0xFFFFFFFF = none

/-- R241, R243: an unrecognised word presented to a live unit records `Fault(ILLEGAL, 0)` with the word and changes
nothing else, whatever the registers hold. -/
def Obligations.IllegalWordRecordsFault : Prop :=
  ∀ (s : State) (w : Word) (rest : List HostInput), s.live → s.inputs = .command w :: rest → decode w = none →
    step s = .next (faultRecord { s with inputs := rest } 1 0 w)

/-- R244: in the faulted state no command word, legal or not, has any effect, and only reset leaves that state. That the
word is taken from the input queue is the model's choice (the queue: log 1; taking the word: log 2). -/
def Obligations.FaultedStateIgnoresEveryWord : Prop :=
  ∀ s : State, s.status.f = true →
    (∀ i, exec i s = .next s) ∧
    (∀ w rest, s.inputs = .command w :: rest → step s = .next { s with inputs := rest }) ∧
    ∀ t, step s = .next t → t.status.f = true ∨ ∃ rest, s.inputs = .reset :: rest

/-- R269: the words that follow a fault have no effect: a faulted unit given any list of words ends as it was. -/
def Obligations.WordsAfterFaultHaveNoEffect : Prop :=
  ∀ (ws : List Word) (s : State), s.status.f = true → s.inputs = [] →
    Host.Core.run Sys2Proof.core ws.length (s.present ws) = .next s

/-- R25, R261, R262: the host's reset, in any state, leaves every register and control register at its reset value and
does not touch memory. -/
def Obligations.ResetInputGivesResetState : Prop :=
  ∀ (s : State) (rest : List HostInput), s.inputs = .reset :: rest →
    ∃ t, step s = .next t ∧ (∀ r : Reg, t.reg r = 0) ∧
      (∀ n : Csr, t.csrRead n = if n = .id then 0x43435531 else 0) ∧
      t.status = ⟨false, 0, false⟩ ∧ t.mem = s.mem ∧ t.config = s.config ∧ t.inputs = rest

/-- With nothing presented the unit does nothing, and a host write of a byte changes that byte only (the model's input
queue is its own: log 1, log 3). -/
def Obligations.HostActionsBetweenCommands : Prop :=
  (∀ s : State, s.inputs = [] → step s = .next s) ∧
  ∀ (s : State) (a : Word) (b : Byte) (rest : List HostInput), s.inputs = .writeByte a b :: rest →
    ∃ t, step s = .next t ∧ t = { s with inputs := rest, mem := t.mem } ∧
      ∀ k, t.mem.read k = if k = a.toNat then b else s.mem.read k

/-! ### Invariants and whole-machine rules -/

/-- Every step keeps the invariant: the fault record tells the truth (R17, R18, R240, R243) and memory stays canonical. -/
def Obligations.StepKeepsInvariant : Prop :=
  ∀ s t : State, s.Inv → step s = .next t → t.Inv

/-- The reset state has the invariant. -/
def Obligations.ResetHasInvariant : Prop := State.reset.Inv

/-- In a state with the invariant, `F` = 1 exactly when `FC` ≠ 0, `FC` is at most 3, and `FINFO` and `FCMD` read 0 while
`F` = 0 (R17, R18). -/
def Obligations.StatusAgreesWithFaultCode : Prop :=
  ∀ s : State, s.Inv →
    (s.csrRead .status).toNat % 2 = (if (s.csrRead .status).toNat / 16 % 16 = 0 then 0 else 1) ∧
    (s.csrRead .status).toNat / 16 % 16 ≤ 3 ∧
    ((s.csrRead .status).toNat % 2 = 0 → s.csrRead .finfo = 0 ∧ s.csrRead .fcmd = 0)

/-- R5, R240: with a configuration that is not refused (U3), every command answers a next state in every state: no
operand, register or accumulator value stops the unit. -/
def Obligations.EveryCommandAnswersNextState : Prop :=
  ∀ (i : Instr) (s : State), spectrumTotal s.config → ∃ t, exec i s = .next t ∧ t.config = s.config ∧ t.inputs = s.inputs

/-- R240: a well-formed command raises no fault but `ACCESS`, by a memory command with a non-empty extent outside the
window, and `SPECTRUM`, by `HSV2SPC` with a violating operand. -/
def Obligations.OnlyTwoCausesAfterDecoding : Prop :=
  ∀ (i : Instr) (s t : State), i.wellFormed = true → s.live → exec i s = .next t → t.status.f = true →
    (t.status.fc = 2 ∧ ∃ a n, extentOf s i = some (a, n) ∧ ¬ inside s a n) ∨
    (t.status.fc = 3 ∧ ∃ rd rs1, i = .hsv2spc rd rs1 ∧
      violates s.config (low s rs1 24 / 2 ^ 16) (low s rs1 24 % 2 ^ 8))

/-- R243, R246: when a command faults, recording the fault is its whole effect: no register, no other control register,
no memory byte changes, and `FCMD` is the command's word. -/
def Obligations.FaultChangesNothingElse : Prop :=
  ∀ (i : Instr) (s t : State), s.live → exec i s = .next t → t.status.f = true →
    t = faultRecord s t.status.fc.toNat t.finfo (encode i)

/-- R41: the extents of the ten memory commands, and no other command reads or writes memory. -/
def Obligations.OnlyTenCommandsAccessMemory : Prop :=
  (∀ (s : State) (rd rs1 rs2 rs3 rs4 : Reg) (off : Byte),
    extentOf s (.bscale rs1 rs2 rs3) = some ((s.reg rs1).toNat, (s.reg rs2).toNat) ∧
    extentOf s (.fade rs1 rs2 rs3) = some ((s.reg rs1).toNat, 3 * (s.reg rs2).toNat) ∧
    extentOf s (.lfill rs1) = some ((s.reg rs1).toNat, 3 * s.lerp.rem.toNat) ∧
    extentOf s (.blur rs1 rs2 rs3) = some ((s.reg rs1).toNat, 3 * (s.reg rs2).toNat) ∧
    extentOf s (.fill rs1 rs2 rs3) = some ((s.reg rs1).toNat, 3 * (s.reg rs2).toNat) ∧
    extentOf s (.bblend rs1 rs2 rs3 rs4) = some ((s.reg rs1).toNat, 3 * (s.reg rs2).toNat) ∧
    extentOf s (.ldp rd rs1 off) = some ((s.reg rs1).toNat + off.toNat, 3) ∧
    extentOf s (.stp rs2 rs1 off) = some ((s.reg rs1).toNat + off.toNat, 3) ∧
    extentOf s (.ldb rd rs1 off) = some ((s.reg rs1).toNat + off.toNat, 1) ∧
    extentOf s (.stb rs2 rs1 off) = some ((s.reg rs1).toNat + off.toNat, 1)) ∧
  ∀ (i : Instr) (s t : State), extentOf s i = none → exec i s = .next t →
    t.mem = s.mem ∧ ∀ m : Memory, exec i { s with mem := m } = .next { t with mem := m }

/-- R46, R47: a memory command of a live unit whose non-empty extent is not inside the window records
`Fault(ACCESS, first byte)` and does nothing else. -/
def Obligations.ExtentOutsideWindowFaults : Prop :=
  ∀ (i : Instr) (s : State) (a n : Nat), s.live → extentOf s i = some (a, n) → ¬ inside s a n →
    exec i s = .next (faultRecord s 2 (BitVec.ofNat 32 a) (encode i))

/-- R56: a memory command with an empty extent is a no-op that never faults, whatever the window. -/
def Obligations.EmptyExtentIsNoOp : Prop :=
  ∀ (i : Instr) (s : State) (a : Nat), extentOf s i = some (a, 0) → exec i s = .next s ∧ accesses i s = []

/-- R211, R47: an effective address above 2^32 − 1 faults with the address reduced modulo 2^32, whatever the window. -/
def Obligations.EffectiveAddressOverflowFaults : Prop :=
  ∀ (s : State) (r rs1 : Reg) (off : Byte), s.live → 2 ^ 32 ≤ (s.reg rs1).toNat + off.toNat →
    ∀ i ∈ [Instr.ldp r rs1 off, .stp r rs1 off, .ldb r rs1 off, .stb r rs1 off],
      exec i s = .next (faultRecord s 2 (BitVec.ofNat 32 ((s.reg rs1).toNat + off.toNat - 2 ^ 32)) (encode i))

/-- R19, R46: no command changes a byte outside the window, and none is influenced by one: with other contents outside
the window, every command gives the same registers, the same status and the same bytes inside. -/
def Obligations.WindowIsolatesMemory : Prop :=
  ∀ (i : Instr) (s t : State) (m : Memory),
    (∀ a, s.wbase.toNat ≤ a → a < s.wlimit.toNat → m.read a = s.mem.read a) → exec i s = .next t →
    (∀ a, ¬ (s.wbase.toNat ≤ a ∧ a < s.wlimit.toNat) → t.mem.read a = s.mem.read a) ∧
    ∃ t', exec i { s with mem := m } = .next t' ∧ t' = { t with mem := t'.mem } ∧
      (∀ a, s.wbase.toNat ≤ a → a < s.wlimit.toNat → t'.mem.read a = t.mem.read a) ∧
      ∀ a, ¬ (s.wbase.toNat ≤ a ∧ a < s.wlimit.toNat) → t'.mem.read a = m.read a

/-- R44, R45, R46: every access on the memory port is one byte, or four bytes at a multiple of four, and lies inside the
window. -/
def Obligations.AccessesAlignedInsideWindow : Prop :=
  ∀ (i : Instr) (s : State) (x : Access), x ∈ accesses i s →
    s.wbase.toNat ≤ x.addr ∧ x.addr + x.width ≤ s.wlimit.toNat ∧ (x.width = 1 ∨ (x.width = 4 ∧ x.addr % 4 = 0))

/-- A command changes a byte of memory only where its list of accesses has a write of that byte. -/
def Obligations.ChangedBytesAreWritten : Prop :=
  ∀ (i : Instr) (s t : State) (b : Nat), exec i s = .next t → t.mem.read b ≠ s.mem.read b →
    ∃ x ∈ accesses i s, x.kind = .write ∧ x.addr ≤ b ∧ b < x.addr + x.width

/-- R265 (2): the commands other than `LSETD LSETE LDIV LNEXT LFILL` and `CSRW` to its registers never touch the
accumulator. -/
def Obligations.OnlyLerpCommandsTouchAccumulator : Prop :=
  ∀ (i : Instr) (s t : State), touchesLerp i = false → exec i s = .next t → t.lerp = s.lerp

/-! ### Move and system commands -/

/-- R80, R81, R82, R83. -/
def Obligations.MoveCommands : Prop :=
  ∀ (s : State) (rd rs1 : Reg) (imm : Half),
    spelledBy .nop 0x01000000 ∧ spelledBy (.li rd imm) (cmdI 0x02 rd 0 imm.toNat) ∧
    spelledBy (.lih rd imm) (cmdI 0x03 rd 0 imm.toNat) ∧ spelledBy (.mv rd rs1) (cmdR 0x04 rd rs1 0 0 0) ∧
    exec .nop s = .next s ∧
    (s.live →
      (∃ t, exec (.li rd imm) s = .next t ∧ onlyReg s t rd imm.toNat) ∧
      (∃ t, exec (.lih rd imm) s = .next t ∧ onlyReg s t rd (imm.toNat * 2 ^ 16 + low s rd 16)) ∧
      (∃ t, exec (.mv rd rs1) s = .next t ∧ onlyReg s t rd (s.reg rs1).toNat))

/-- R84, with the "reads as" column of R15 and the layout of R17. -/
def Obligations.CsrrReadsEveryRegister : Prop :=
  ∀ (s : State) (rd : Reg) (n : Csr),
    spelledBy (.csrr rd n) (cmdI 0x05 rd 0 (csrNo n)) ∧
    (s.csrRead n).toNat = csrReads s n ∧
    (s.live → ∃ t, exec (.csrr rd n) s = .next t ∧ onlyReg s t rd (csrReads s n))

/-- R85: `CSRW` to each read-write register; the seven accumulator registers take the low 16 bits, and `LREM` clears
`LX`. -/
def Obligations.CsrwWritesEveryRegister : Prop :=
  ∀ (s : State) (rs1 : Reg), s.live →
    (∀ n, n.writable = true → spelledBy (.csrw n rs1) (cmdI 0x06 0 rs1 (csrNo n))) ∧
    exec (.csrw .wbase rs1) s = .next { s with wbase := s.reg rs1 } ∧
    exec (.csrw .wlimit rs1) s = .next { s with wlimit := s.reg rs1 } ∧
    (∀ c, ∃ t, exec (.csrw (.lacc c) rs1) s = .next t ∧ t = { s with lerp := { s.lerp with acc := t.lerp.acc } } ∧
      (t.lerp.acc.get c).toNat = low s rs1 16 ∧ ∀ d, d ≠ c → t.lerp.acc.get d = s.lerp.acc.get d) ∧
    (∀ c, ∃ t, exec (.csrw (.ldel c) rs1) s = .next t ∧ t = { s with lerp := { s.lerp with del := t.lerp.del } } ∧
      (t.lerp.del.get c).toNat = low s rs1 16 ∧ ∀ d, d ≠ c → t.lerp.del.get d = s.lerp.del.get d) ∧
    (∃ t, exec (.csrw .lrem rs1) s = .next t ∧ t.lerp.rem.toNat = low s rs1 16 ∧
      t = { s with lerp := { s.lerp with rem := t.lerp.rem }, status := { s.status with lx := false } })

/-- R15, R67 (e), (d): the words of `CSRW` to a read-only register and of `NSCALE3/4.16` with an odd `rd` decode to no
command, and the terms for them record `ILLEGAL` with the word. -/
def Obligations.IllFormedCommandsAreIllegal : Prop :=
  ∀ (s : State) (n : Csr) (rd rs : Reg), s.live →
    (n.writable = false → decode (cmdI 0x06 0 rs (csrNo n)) = none ∧
      exec (.csrw n rs) s = .next (faultRecord s 1 0 (cmdI 0x06 0 rs (csrNo n)))) ∧
    (rd.val % 2 = 1 → decode (cmdR 0x19 rd 0 rs 0 5) = none ∧ decode (cmdR 0x19 rd 0 rs 0 7) = none ∧
      exec (.nscale3 .w16 rd rs) s = .next (faultRecord s 1 0 (cmdR 0x19 rd 0 rs 0 5)) ∧
      exec (.nscale4 .w16 rd rs) s = .next (faultRecord s 1 0 (cmdR 0x19 rd 0 rs 0 7)))

/-- R86, R87, R14. -/
def Obligations.PackAndChan : Prop :=
  ∀ (s : State) (rd rs1 rs2 rs3 : Reg) (c : Chan),
    spelledBy (.pack rd rs1 rs2 rs3) (cmdR 0x07 rd rs1 rs2 rs3 0) ∧
    spelledBy (.chan rd rs1 c) (cmdR 0x08 rd rs1 0 0 (chNo c)) ∧
    (s.live →
      (∃ t, exec (.pack rd rs1 rs2 rs3) s = .next t ∧
        onlyReg s t rd (low s rs1 8 * 2 ^ 16 + low s rs2 8 * 2 ^ 8 + low s rs3 8)) ∧
      (∃ t, exec (.chan rd rs1 c) s = .next t ∧ onlyReg s t rd (chanNat (low s rs1 24) (chNo c))))

/-! ### Scalar commands -/

/-- R108, R109 with R100, R101: `SCALE` and `SCALEV` at both widths. -/
def Obligations.ScaleCommands : Prop :=
  ∀ (s : State) (w : Width) (rd rs1 rs2 : Reg),
    spelledBy (.scale w rd rs1 rs2) (cmdR 0x10 rd rs1 rs2 0 (wBit w)) ∧
    spelledBy (.scalev w rd rs1 rs2) (cmdR 0x11 rd rs1 rs2 0 (wBit w)) ∧
    (s.live →
      (∃ t, exec (.scale w rd rs1 rs2) s = .next t ∧
        onlyReg s t rd (scaleFn (bitsN w) (low s rs1 (bitsN w)) (low s rs2 (bitsN w)))) ∧
      (∃ t, exec (.scalev w rd rs1 rs2) s = .next t ∧
        onlyReg s t rd (videoFn (bitsN w) (low s rs1 (bitsN w)) (low s rs2 (bitsN w)))))

/-- R110, R111, R112 with R102, R103, R104: the three dim commands at both widths. -/
def Obligations.DimCommands : Prop :=
  ∀ (s : State) (w : Width) (rd rs1 : Reg),
    spelledBy (.dimr w rd rs1) (cmdR 0x12 rd rs1 0 0 (wBit w)) ∧
    spelledBy (.dimv w rd rs1) (cmdR 0x13 rd rs1 0 0 (wBit w)) ∧
    spelledBy (.diml w rd rs1) (cmdR 0x14 rd rs1 0 0 (wBit w)) ∧
    (s.live →
      let n := bitsN w
      let x := low s rs1 n
      (∃ t, exec (.dimr w rd rs1) s = .next t ∧ onlyReg s t rd (scaleFn n x x)) ∧
      (∃ t, exec (.dimv w rd rs1) s = .next t ∧ onlyReg s t rd (videoFn n x x)) ∧
      (∃ t, exec (.diml w rd rs1) s = .next t ∧ onlyReg s t rd (linFn n x)))

/-- R113, R114, R115 with R105: the three brighten commands at both widths are the mirrored dim functions. -/
def Obligations.BrightenCommands : Prop :=
  ∀ (s : State) (w : Width) (rd rs1 : Reg),
    spelledBy (.brtr w rd rs1) (cmdR 0x15 rd rs1 0 0 (wBit w)) ∧
    spelledBy (.brtv w rd rs1) (cmdR 0x16 rd rs1 0 0 (wBit w)) ∧
    spelledBy (.brtl w rd rs1) (cmdR 0x17 rd rs1 0 0 (wBit w)) ∧
    (s.live →
      let n := bitsN w
      let top := 2 ^ n - 1
      let y := top - low s rs1 n
      (∃ t, exec (.brtr w rd rs1) s = .next t ∧ onlyReg s t rd (top - scaleFn n y y)) ∧
      (∃ t, exec (.brtv w rd rs1) s = .next t ∧ onlyReg s t rd (top - videoFn n y y)) ∧
      (∃ t, exec (.brtl w rd rs1) s = .next t ∧ onlyReg s t rd (top - linFn n y)))

/-- R116 with R106: the blend commands, whose result always lies between the two operands. -/
def Obligations.BlendCommand : Prop :=
  ∀ (s : State) (w : Width) (rd rs1 rs2 rs3 : Reg),
    spelledBy (.blend w rd rs1 rs2 rs3) (cmdR 0x18 rd rs1 rs2 rs3 (wBit w)) ∧
    (s.live →
      let n := bitsN w
      let a := low s rs1 n
      let b := low s rs2 n
      let amt := low s rs3 n
      ∃ t, exec (.blend w rd rs1 rs2 rs3) s = .next t ∧
        onlyReg s t rd ((a * (2 ^ n - 1 - amt) + a + b * amt + b) / 2 ^ n) ∧
        min a b ≤ (t.reg rd).toNat ∧ (t.reg rd).toNat ≤ max a b)

/-- R107 (a), (c), (e), (f) and R104 at both widths: identity and zero laws of scale, video never collapses, blend
endpoints, where the dim functions are 0, and the half-range threshold. -/
def Obligations.ScalarLaws : Prop :=
  ∀ (w : Width) (x y : Nat), x < 2 ^ bitsN w → y < 2 ^ bitsN w →
    let n := bitsN w
    let top := 2 ^ n - 1
    scaleN n x top = x ∧ scaleN n x 0 = 0 ∧ (scaleVideoN n x y = 0 ↔ x = 0 ∨ y = 0) ∧ scaleVideoN n x y ≤ top ∧
    blendN n x y 0 = x ∧ blendN n x y top = y ∧ (dimLinN n x = 0 ↔ x = 0) ∧ (dimVideoN n x = 0 ↔ x = 0) ∧
    (dimRawN n x = 0 ↔ x < 2 ^ (n / 2)) ∧ dimLinN n (2 ^ (n - 1) - 1) = dimLinN n (2 ^ (n - 1)) ∧
    (n = 8 → scaleN n x 127 = x / 2)

/-- R107 (g): every scalar function is monotone in each argument, but for `blend` in the amount. -/
def Obligations.ScalarFunctionsMonotone : Prop :=
  ∀ (w : Width) (x y z u : Nat), let n := bitsN w
    x ≤ y → y < 2 ^ n → z ≤ u → u < 2 ^ n →
    scaleN n x z ≤ scaleN n y u ∧ scaleVideoN n x z ≤ scaleVideoN n y u ∧ dimRawN n x ≤ dimRawN n y ∧
    dimVideoN n x ≤ dimVideoN n y ∧ dimLinN n x ≤ dimLinN n y ∧ brightenRawN n x ≤ brightenRawN n y ∧
    brightenVideoN n x ≤ brightenVideoN n y ∧ brightenLinN n x ≤ brightenLinN n y ∧
    ∀ amt, amt < 2 ^ n → blendN n x z amt ≤ blendN n y u amt

/-- R117, R118, R119 with R120, 8-bit lanes: byte j of `x[rd]` is scaled for j below the lane count, by the low byte of
`x[rs2]` as it was before; nothing else changes. -/
def Obligations.NscaleByteLanes : Prop :=
  ∀ (s : State) (rd rs2 : Reg), s.live →
    spelledBy (.nscale2 .w8 rd rs2) (cmdR 0x19 rd 0 rs2 0 2) ∧
    spelledBy (.nscale3 .w8 rd rs2) (cmdR 0x19 rd 0 rs2 0 4) ∧
    spelledBy (.nscale4 .w8 rd rs2) (cmdR 0x19 rd 0 rs2 0 6) ∧
    ∀ p ∈ [(Instr.nscale2 .w8 rd rs2, 2), (.nscale3 .w8 rd rs2, 3), (.nscale4 .w8 rd rs2, 4)],
      ∃ t, exec p.1 s = .next t ∧ t = { s with regs := t.regs } ∧ (∀ r, r ≠ rd → t.reg r = s.reg r) ∧
        ∀ j, j < 4 → (t.reg rd).toNat / 2 ^ (8 * j) % 2 ^ 8 =
          if j < p.2 then scaleFn 8 ((s.reg rd).toNat / 2 ^ (8 * j) % 2 ^ 8) (low s rs2 8)
          else (s.reg rd).toNat / 2 ^ (8 * j) % 2 ^ 8

/-- R117, R118, R119 with R120, 16-bit lanes: lanes 0 and 1 in `x[rd]`, lanes 2 and 3 in the next register, which two
lanes do not touch; `rd` even for three and four lanes. -/
def Obligations.NscaleHalfLanes : Prop :=
  ∀ (s : State) (rd nx rs2 : Reg), s.live →
    spelledBy (.nscale2 .w16 rd rs2) (cmdR 0x19 rd 0 rs2 0 3) ∧
    (∃ t, exec (.nscale2 .w16 rd rs2) s = .next t ∧
      onlyReg s t rd (scaleFn 16 ((s.reg rd).toNat / 2 ^ 16) (low s rs2 16) * 2 ^ 16 +
        scaleFn 16 ((s.reg rd).toNat % 2 ^ 16) (low s rs2 16))) ∧
    (rd.val % 2 = 0 → nx.val = rd.val + 1 →
      spelledBy (.nscale3 .w16 rd rs2) (cmdR 0x19 rd 0 rs2 0 5) ∧
      spelledBy (.nscale4 .w16 rd rs2) (cmdR 0x19 rd 0 rs2 0 7) ∧
      ∀ p ∈ [(Instr.nscale3 .w16 rd rs2, 3), (.nscale4 .w16 rd rs2, 4)],
        ∃ t, exec p.1 s = .next t ∧ t = { s with regs := t.regs } ∧ (∀ r, r ≠ rd → r ≠ nx → t.reg r = s.reg r) ∧
          ∀ j, j < 2 →
            (t.reg rd).toNat / 2 ^ (16 * j) % 2 ^ 16 =
              scaleFn 16 ((s.reg rd).toNat / 2 ^ (16 * j) % 2 ^ 16) (low s rs2 16) ∧
            (t.reg nx).toNat / 2 ^ (16 * j) % 2 ^ 16 =
              if j + 2 < p.2 then scaleFn 16 ((s.reg nx).toNat / 2 ^ (16 * j) % 2 ^ 16) (low s rs2 16)
              else (s.reg nx).toNat / 2 ^ (16 * j) % 2 ^ 16)

/-! ### Saturating commands -/

/-- R132, R133 with R130. -/
def Obligations.SaturatingScalarCommands : Prop :=
  ∀ (s : State) (w : Width) (rd rs1 rs2 : Reg),
    spelledBy (.qadd w rd rs1 rs2) (cmdR 0x1A rd rs1 rs2 0 (wBit w)) ∧
    spelledBy (.qsub w rd rs1 rs2) (cmdR 0x1B rd rs1 rs2 0 (wBit w)) ∧
    (s.live →
      let n := bitsN w
      let a := low s rs1 n
      let b := low s rs2 n
      (∃ t, exec (.qadd w rd rs1 rs2) s = .next t ∧
        onlyReg s t rd (if a + b < 2 ^ n then a + b else 2 ^ n - 1)) ∧
      (∃ t, exec (.qsub w rd rs1 rs2) s = .next t ∧ onlyReg s t rd (if b ≤ a then a - b else 0)))

/-- R134, R135 with R131: each channel saturates on its own. -/
def Obligations.SaturatingPixelCommands : Prop :=
  ∀ (s : State) (rd rs1 rs2 : Reg),
    spelledBy (.padd rd rs1 rs2) (cmdR 0x20 rd rs1 rs2 0 0) ∧
    spelledBy (.psub rd rs1 rs2) (cmdR 0x21 rd rs1 rs2 0 0) ∧
    (s.live →
      let p := low s rs1 24
      let q := low s rs2 24
      (∃ t v, exec (.padd rd rs1 rs2) s = .next t ∧ onlyReg s t rd v ∧ v < 2 ^ 24 ∧
        ∀ k, k < 3 → chanNat v k = min (chanNat p k + chanNat q k) 255) ∧
      (∃ t v, exec (.psub rd rs1 rs2) s = .next t ∧ onlyReg s t rd v ∧ v < 2 ^ 24 ∧
        ∀ k, k < 3 → (chanNat v k : Int) = max ((chanNat p k : Int) - (chanNat q k : Int)) 0))

/-! ### Hue commands -/

/-- R184 for every configured `HUE_RAINBOW`, and R182 for the default one. -/
def Obligations.HueToRgbCommand : Prop :=
  (∀ (s : State) (rd rs1 : Reg),
    spelledBy (.hue2rgb rd rs1) (cmdR 0x30 rd rs1 0 0 0) ∧
    (s.live → ∃ t, exec (.hue2rgb rd rs1) s = .next t ∧
      onlyReg s t rd (hueRainbow s.config (BitVec.ofNat 8 (low s rs1 8))).toNat)) ∧
  ∀ (cfg : Config) (h : Byte), cfg.hue = .builtin →
    let off8 := h.toNat % 32 * 8
    let row := rainbowRow (h.toNat / 32) (scaleFn 8 off8 85) (scaleFn 8 off8 170)
    (hueRainbow cfg h).toNat = row.1 * 2 ^ 16 + row.2.1 * 2 ^ 8 + row.2.2

/-- The constraints of R181 hold of the default `HUE_RAINBOW` (R182, log 6) beside the default `SPECTRUM` (R187, log 7),
constraints 4 and 5 in the words of the rule, for any two hues of section 0 and of section 1. How straight a ramp is and
how far sections may lie apart the spec does not say in numbers: the measures are the model's (log 9). -/
def Obligations.DefaultRainbowIsLawful : Prop :=
  rainbowConstraints .builtin .builtin = true ∧
  (∀ h k : Byte, h.toNat ≤ k.toNat → k.toNat < 32 →
    chanNat (rainbowOf .builtin k).toNat 0 ≤ chanNat (rainbowOf .builtin h).toNat 0 ∧
      chanNat (rainbowOf .builtin h).toNat 1 ≤ chanNat (rainbowOf .builtin k).toNat 1) ∧
  ∀ h k : Byte, 32 ≤ h.toNat → h.toNat ≤ k.toNat → k.toNat < 64 →
    chanNat (rainbowOf .builtin h).toNat 0 = chanNat (rainbowOf .builtin k).toNat 0 ∧
      chanNat (rainbowOf .builtin h).toNat 1 ≤ chanNat (rainbowOf .builtin k).toNat 1

/-- R185 with R183, for every configured `HUE_RAINBOW`: value 0 is black, saturation 0 is (v, v, v), else each channel is
scaled toward the floor, has the floor added, and is scaled by value; and the general lines give what the two
short-circuits return. -/
def Obligations.HsvToRgbCommand : Prop :=
  ∀ (s : State) (rd rs1 : Reg),
    spelledBy (.hsv2rgb rd rs1) (cmdR 0x31 rd rs1 0 0 0) ∧
    (s.live →
      let p := low s rs1 24
      let h := chanNat p 0
      let sat := chanNat p 1
      let v := chanNat p 2
      let c := (hueRainbow s.config (BitVec.ofNat 8 h)).toNat
      let floor := scaleFn 8 (255 - sat) (255 - sat)
      ∃ t r, exec (.hsv2rgb rd rs1) s = .next t ∧ onlyReg s t rd r ∧ r < 2 ^ 24 ∧
        (v = 0 → r = 0) ∧ (v ≠ 0 → sat = 0 → r = v * 2 ^ 16 + v * 2 ^ 8 + v) ∧
        ∀ k, k < 3 → chanNat r k = scaleFn 8 (scaleFn 8 (chanNat c k) (255 - floor) + floor) v)

/-- R188 for every configuration: a violating operand faults with `FINFO` the operand and `x[rd]` unchanged; else the
configured `SPECTRUM` is written; where the configuration gives it no value (refused by U3) the command is refused. -/
def Obligations.SpectrumCommand : Prop :=
  ∀ (s : State) (rd rs1 : Reg),
    spelledBy (.hsv2spc rd rs1) (cmdR 0x32 rd rs1 0 0 0) ∧
    (s.live →
      let p := low s rs1 24
      (violates s.config (chanNat p 0) (chanNat p 2) →
        exec (.hsv2spc rd rs1) s = .next (faultRecord s 3 (BitVec.ofNat 32 p) (cmdR 0x32 rd rs1 0 0 0))) ∧
      (¬ violates s.config (chanNat p 0) (chanNat p 2) →
        (∀ c, spectrumValue s.config (BitVec.ofNat 24 p) = some c →
          ∃ t, exec (.hsv2spc rd rs1) s = .next t ∧ onlyReg s t rd c.toNat) ∧
        (spectrumValue s.config (BitVec.ofNat 24 p) = none →
          exec (.hsv2spc rd rs1) s = .refused .spectrumUndefined)))

/-- R187: the default `SPECTRUM` for hues up to 191, with every channel at most the value; and with the standard
configuration it has a value wherever the precondition holds (R186). -/
def Obligations.DefaultSpectrumFormula : Prop :=
  (∀ (cfg : Config) (p : Pixel), cfg.spectrum = .builtin → chanNat p.toNat 0 ≤ 191 →
    let h := chanNat p.toNat 0
    let v := chanNat p.toNat 2
    let floor := v * (255 - chanNat p.toNat 1) / 256
    let amp := v - floor
    let up := h % 64 * amp / 64 + floor
    let down := (63 - h % 64) * amp / 64 + floor
    ∃ c, spectrumValue cfg p = some c ∧ (∀ k, k < 3 → chanNat c.toNat k ≤ v) ∧
      c.toNat = if h < 64 then down * 2 ^ 16 + up * 2 ^ 8 + floor
        else if h < 128 then floor * 2 ^ 16 + down * 2 ^ 8 + up
        else up * 2 ^ 16 + floor * 2 ^ 8 + down) ∧
  spectrumTotal Config.standard

/-- R191 with R189, R190: the direction-resolved signed distance, sign-extended. -/
def Obligations.HueDistanceCommand : Prop :=
  ∀ (s : State) (d : Dir) (rd rs1 rs2 : Reg),
    spelledBy (.hdist d rd rs1 rs2) (cmdR 0x33 rd rs1 rs2 0 (dirNo d)) ∧
    (s.live →
      let diff : Int := ((low s rs2 8 : Int) - (low s rs1 8 : Int)) % 256
      let back : Int := ((low s rs1 8 : Int) - (low s rs2 8 : Int)) % 256
      let v : Int := match d with
        | .forward => diff * 128
        | .backwards => -(back * 128)
        | .shortest => if diff > 127 then -(back * 128) else diff * 128
        | .longest => if diff > 127 then diff * 128 else -(back * 128)
      ∃ t, exec (.hdist d rd rs1 rs2) s = .next t ∧ t = { s with regs := t.regs } ∧ (t.reg rd).toInt = v ∧
        ∀ r, r ≠ rd → t.reg r = s.reg r)

/-- R190: the ranges of the distance, and what Shortest and Longest promise. -/
def Obligations.HueDistanceRanges : Prop :=
  ∀ a b : Byte,
    0 ≤ hueDist a b .forward ∧ hueDist a b .forward ≤ 32640 ∧
    -32640 ≤ hueDist a b .backwards ∧ hueDist a b .backwards ≤ 0 ∧
    |hueDist a b .shortest| ≤ 16384 ∧ (a ≠ b → 16384 ≤ |hueDist a b .longest|) ∧
    ∀ d, (hueDist a b d = 0 ↔ a = b)

/-! ### The accumulator -/

/-- R162, R163. -/
def Obligations.LerpConstruction : Prop :=
  ∀ (s : State) (c : Chan) (rs1 rs2 : Reg),
    spelledBy (.lsetd c rs1 rs2) (cmdR 0x40 0 rs1 rs2 0 (chNo c)) ∧
    spelledBy (.lsete c rs1 rs2) (cmdR 0x41 0 rs1 rs2 0 (chNo c)) ∧
    (s.live →
      (∃ t, exec (.lsetd c rs1 rs2) s = .next t ∧
        t = { s with lerp := { s.lerp with acc := t.lerp.acc, del := t.lerp.del } } ∧
        (t.lerp.acc.get c).toNat = low s rs1 8 * 256 ∧ (t.lerp.del.get c).toNat = low s rs2 16 ∧
        ∀ d, d ≠ c → t.lerp.acc.get d = s.lerp.acc.get d ∧ t.lerp.del.get d = s.lerp.del.get d) ∧
      (∃ t, exec (.lsete c rs1 rs2) s = .next t ∧
        t = { s with lerp := { s.lerp with acc := t.lerp.acc, del := t.lerp.del } } ∧
        (t.lerp.acc.get c).toNat = low s rs1 8 * 256 ∧
        (t.lerp.del.get c).toInt = ((low s rs2 8 : Int) - (low s rs1 8 : Int)) * 128 ∧
        ∀ d, d ≠ c → t.lerp.acc.get d = s.lerp.acc.get d ∧ t.lerp.del.get d = s.lerp.del.get d))

/-- R164 with R165, R166, R167: every delta divided by the count, rounded toward zero, doubled, low 16 bits kept; a count
of 0 divides nothing; `LX` is cleared. -/
def Obligations.LerpDivide : Prop :=
  ∀ (s : State) (rs1 : Reg),
    spelledBy (.ldiv rs1) (cmdR 0x42 0 rs1 0 0 0) ∧
    (s.live →
      ∃ t, exec (.ldiv rs1) s = .next t ∧
        t = { s with lerp := { s.lerp with del := t.lerp.del, rem := t.lerp.rem },
                     status := { s.status with lx := false } } ∧
        t.lerp.rem.toNat = low s rs1 16 ∧
        ∀ c, ((t.lerp.del.get c).toNat : Int) =
          if low s rs1 16 = 0 then ((s.lerp.del.get c).toNat : Int)
          else (2 * truncdiv (s.lerp.del.get c).toInt (low s rs1 16)) % 65536)

/-- R168, R169: `LNEXT` with triples left yields the top bytes and then advances; on an exhausted accumulator it sets
`LX` and does nothing else. -/
def Obligations.LerpNext : Prop :=
  ∀ (s : State) (rd : Reg),
    spelledBy (.lnext rd) (cmdR 0x43 rd 0 0 0 0) ∧
    (s.live → s.lerp.rem.toNat = 0 → exec (.lnext rd) s = .next { s with status := { s.status with lx := true } }) ∧
    (s.live → s.lerp.rem.toNat ≠ 0 →
      ∃ t, exec (.lnext rd) s = .next t ∧
        t = { s with regs := t.regs, lerp := { s.lerp with acc := t.lerp.acc, rem := t.lerp.rem } } ∧
        (t.reg rd).toNat = s.lerp.acc.c0.toNat / 256 * 2 ^ 16 + s.lerp.acc.c1.toNat / 256 * 2 ^ 8 +
          s.lerp.acc.c2.toNat / 256 ∧
        (∀ r, r ≠ rd → t.reg r = s.reg r) ∧ t.lerp.rem.toNat = s.lerp.rem.toNat - 1 ∧
        ∀ c, (t.lerp.acc.get c).toNat = ((s.lerp.acc.get c).toNat + (s.lerp.del.get c).toNat) % 65536)

/-- R170 with R172: `LFILL` with its extent inside the window stores triple k at `a + 3k`, channel c the top byte of
`acc + k × del` modulo 65536, leaves the accumulators advanced n times and the count 0, and changes nothing else. -/
def Obligations.LerpFillClosedForm : Prop :=
  ∀ (s : State) (rs1 : Reg),
    spelledBy (.lfill rs1) (cmdR 0x44 0 rs1 0 0 0) ∧
    (s.live →
      let a := (s.reg rs1).toNat
      let n := s.lerp.rem.toNat
      inside s a (3 * n) →
      ∃ t, exec (.lfill rs1) s = .next t ∧
        t = { s with mem := t.mem, lerp := { s.lerp with acc := t.lerp.acc, rem := 0 } } ∧
        (∀ c, (t.lerp.acc.get c).toNat = ((s.lerp.acc.get c).toNat + n * (s.lerp.del.get c).toNat) % 65536) ∧
        (∀ k c, k < n → (t.mem.read (a + 3 * k + chNo c)).toNat =
          ((s.lerp.acc.get c).toNat + k * (s.lerp.del.get c).toNat) % 65536 / 256) ∧
        ∀ b, ¬ (a ≤ b ∧ b < a + 3 * n) → t.mem.read b = s.mem.read b)

/-! ### Buffer commands -/

/-- R142, R143: byte j of `lanes(w, sc)` is byte j of `w` times `sc`, shifted right by 8. -/
def Obligations.LanesScaleEachByte : Prop :=
  ∀ (w : Word) (sc j : Nat), 1 ≤ sc → sc ≤ 256 → j < 4 →
    (lanes w sc).toNat / 2 ^ (8 * j) % 256 = w.toNat / 2 ^ (8 * j) % 256 * sc / 256

/-- R145, R146: for every threshold, address and length, the steps of the batch scaler read and write each byte of the
extent exactly once and no other byte. -/
def Obligations.BatchStepsCoverExtentOnce : Prop :=
  ∀ threshold a n b : Nat,
    (batchSteps threshold a n).countP (covers b) = if a ≤ b ∧ b < a + n then 1 else 0

/-- R147: `batch_scale` with its word steps is the per-byte map, for every address, length, factor, threshold and
contents. -/
def Obligations.BatchScaleIsPerByteMap : Prop :=
  ∀ (threshold a n f : Nat) (m : Memory) (b : Nat), f ≤ 255 →
    ((batchScale threshold a n f m).read b).toNat =
      if a ≤ b ∧ b < a + n then scaleFn 8 (m.read b).toNat f else (m.read b).toNat

/-- R148, R149: `BSCALE` and `FADE` with their extent inside the window scale every byte of it by the factor (255 −
amount for `FADE`) and change nothing else. -/
def Obligations.BatchCommands : Prop :=
  ∀ (s : State) (rs1 rs2 rs3 : Reg),
    spelledBy (.bscale rs1 rs2 rs3) (cmdR 0x50 0 rs1 rs2 rs3 0) ∧
    spelledBy (.fade rs1 rs2 rs3) (cmdR 0x51 0 rs1 rs2 rs3 0) ∧
    (s.live →
      let a := (s.reg rs1).toNat
      let n := (s.reg rs2).toNat
      let f := low s rs3 8
      (inside s a n → ∃ t, exec (.bscale rs1 rs2 rs3) s = .next t ∧ t = { s with mem := t.mem } ∧
        ∀ b, (t.mem.read b).toNat =
          if a ≤ b ∧ b < a + n then scaleFn 8 (s.mem.read b).toNat f else (s.mem.read b).toNat) ∧
      (inside s a (3 * n) → ∃ t, exec (.fade rs1 rs2 rs3) s = .next t ∧ t = { s with mem := t.mem } ∧
        ∀ b, (t.mem.read b).toNat =
          if a ≤ b ∧ b < a + 3 * n then scaleFn 8 (s.mem.read b).toNat (255 - f) else (s.mem.read b).toNat))

/-- R203 with R200, R202: `BLUR` with its extent inside the window gives every byte of the buffer the closed form of
R202 (the byte at offset o belongs to pixel o / 3 and its right neighbour's channel is at o + 3), and changes nothing
else. The equality is one of numbers: no addition saturates. -/
def Obligations.BlurClosedForm : Prop :=
  ∀ (s : State) (rs1 rs2 rs3 : Reg),
    spelledBy (.blur rs1 rs2 rs3) (cmdR 0x52 0 rs1 rs2 rs3 0) ∧
    (s.live →
      let a := (s.reg rs1).toNat
      let n := (s.reg rs2).toNat
      let keep := 255 - low s rs3 8
      let seep := low s rs3 8 / 2
      let old := fun b => (s.mem.read b).toNat
      inside s a (3 * n) → ∃ t, exec (.blur rs1 rs2 rs3) s = .next t ∧ t = { s with mem := t.mem } ∧
        (∀ o, o < 3 * n → (t.mem.read (a + o)).toNat =
          scaleFn 8 (old (a + o)) keep + (if 3 ≤ o then scaleFn 8 (old (a + o)) seep else 0) +
            (if o + 3 < 3 * n then scaleFn 8 (old (a + o + 3)) seep else 0)) ∧
        ∀ b, ¬ (a ≤ b ∧ b < a + 3 * n) → t.mem.read b = s.mem.read b)

/-- R204: `FILL` with its extent inside the window writes the pixel over every pixel of the buffer, first channel at the
lowest address, and changes nothing else. -/
def Obligations.FillCommand : Prop :=
  ∀ (s : State) (rs1 rs2 rs3 : Reg),
    spelledBy (.fill rs1 rs2 rs3) (cmdR 0x53 0 rs1 rs2 rs3 0) ∧
    (s.live →
      let a := (s.reg rs1).toNat
      let n := (s.reg rs2).toNat
      inside s a (3 * n) → ∃ t, exec (.fill rs1 rs2 rs3) s = .next t ∧ t = { s with mem := t.mem } ∧
        (∀ o, o < 3 * n → (t.mem.read (a + o)).toNat = chanNat (low s rs3 24) (o % 3)) ∧
        ∀ b, ¬ (a ≤ b ∧ b < a + 3 * n) → t.mem.read b = s.mem.read b)

/-- R206 with R205: `BBLEND` with its extent inside the window blends every channel of every pixel with the channel of
the other colour by the truncating formula, and changes nothing else. The amount is in the register of the `rd` field. -/
def Obligations.BufferBlendCommand : Prop :=
  ∀ (s : State) (rs1 rs2 rs3 rs4 : Reg),
    spelledBy (.bblend rs1 rs2 rs3 rs4) (cmdR 0x54 rs4 rs1 rs2 rs3 0) ∧
    (s.live →
      let a := (s.reg rs1).toNat
      let n := (s.reg rs2).toNat
      let amt := low s rs4 8
      inside s a (3 * n) → ∃ t, exec (.bblend rs1 rs2 rs3 rs4) s = .next t ∧ t = { s with mem := t.mem } ∧
        (∀ o, o < 3 * n → (t.mem.read (a + o)).toNat =
          ((s.mem.read (a + o)).toNat * (255 - amt) + chanNat (low s rs3 24) (o % 3) * amt) / 256) ∧
        ∀ b, ¬ (a ≤ b ∧ b < a + 3 * n) → t.mem.read b = s.mem.read b)

/-- R207, R209 with R211, R212: loads inside the window write the destination register and nothing else. -/
def Obligations.LoadCommands : Prop :=
  ∀ (s : State) (rd rs1 : Reg) (off : Byte),
    spelledBy (.ldp rd rs1 off) (cmdR 0x58 rd rs1 0 0 off.toNat) ∧
    spelledBy (.ldb rd rs1 off) (cmdR 0x5A rd rs1 0 0 off.toNat) ∧
    (s.live →
      let ea := (s.reg rs1).toNat + off.toNat
      (s.wbase.toNat ≤ ea → ea + 3 ≤ s.wlimit.toNat →
        ∃ t, exec (.ldp rd rs1 off) s = .next t ∧ onlyReg s t rd ((s.mem.read ea).toNat * 2 ^ 16 +
          (s.mem.read (ea + 1)).toNat * 2 ^ 8 + (s.mem.read (ea + 2)).toNat)) ∧
      (s.wbase.toNat ≤ ea → ea + 1 ≤ s.wlimit.toNat →
        ∃ t, exec (.ldb rd rs1 off) s = .next t ∧ onlyReg s t rd (s.mem.read ea).toNat))

/-- R208, R210 with R211, R212: stores inside the window write their bytes at the effective address and nothing else. -/
def Obligations.StoreCommands : Prop :=
  ∀ (s : State) (rs2 rs1 : Reg) (off : Byte),
    spelledBy (.stp rs2 rs1 off) (cmdR 0x59 0 rs1 rs2 0 off.toNat) ∧
    spelledBy (.stb rs2 rs1 off) (cmdR 0x5B 0 rs1 rs2 0 off.toNat) ∧
    (s.live →
      let ea := (s.reg rs1).toNat + off.toNat
      (s.wbase.toNat ≤ ea → ea + 3 ≤ s.wlimit.toNat →
        ∃ t, exec (.stp rs2 rs1 off) s = .next t ∧ t = { s with mem := t.mem } ∧
          (∀ k, k < 3 → (t.mem.read (ea + k)).toNat = chanNat (low s rs2 24) k) ∧
          ∀ b, ¬ (ea ≤ b ∧ b < ea + 3) → t.mem.read b = s.mem.read b) ∧
      (s.wbase.toNat ≤ ea → ea + 1 ≤ s.wlimit.toNat →
        ∃ t, exec (.stb rs2 rs1 off) s = .next t ∧ t = { s with mem := t.mem } ∧
          (t.mem.read ea).toNat = low s rs2 8 ∧ ∀ b, b ≠ ea → t.mem.read b = s.mem.read b))

/-- R42: the 4-byte access is little-endian. -/
def Obligations.WordAccessIsLittleEndian : Prop :=
  ∀ (m : Memory) (a : Nat) (v : Word),
    (m.read4 a).toNat = (m.read a).toNat + (m.read (a + 1)).toNat * 2 ^ 8 + (m.read (a + 2)).toNat * 2 ^ 16 +
      (m.read (a + 3)).toNat * 2 ^ 24 ∧
    (∀ k, k < 4 → ((m.write4 a v).read (a + k)).toNat = v.toNat / 2 ^ (8 * k) % 2 ^ 8) ∧
    ∀ b, ¬ (a ≤ b ∧ b < a + 4) → (m.write4 a v).read b = m.read b
end

