-- ==== Sys2Proof/Laws/Memory.lean ====
section
/-! SUPPORT. What a memory operation leaves to be read, and that every one of them keeps the canonical form. The read
laws need no canonical form. -/

namespace Sys2Proof.Machine

/-! ### Reading after writing -/

@[simp] theorem Memory.read_nil (a : Nat) : Memory.read [] a = 0 := rfl

theorem Memory.read_cons (k : Nat) (v : Byte) (m : Memory) (a : Nat) :
    Memory.read ((k, v) :: m) a = if k = a then v else Memory.read m a := rfl

theorem Memory.read_erase (m : Memory) (a b : Nat) :
    (Memory.erase m a).read b = if b = a then 0 else m.read b := by
  induction m with
  | nil => simp [Memory.erase]
  | cons c m ih =>
    obtain ⟨k, v⟩ := c
    simp only [Memory.erase] at ih
    by_cases hk : k = a
    · subst hk
      simp only [Memory.erase, ne_eq, decide_not, List.filter_cons, decide_true, Bool.not_true, Bool.false_eq_true,
        if_false, Memory.read_cons]
      simp only [ne_eq, decide_not] at ih
      rw [ih]
      by_cases hb : b = k
      · simp [hb]
      · simp [hb, Ne.symm hb]
    · simp only [Memory.erase, ne_eq, decide_not, List.filter_cons, hk, decide_false, Bool.not_false, if_true,
        Memory.read_cons]
      simp only [ne_eq, decide_not] at ih
      rw [ih]
      by_cases hb : k = b
      · subst hb; simp [hk]
      · simp [hb]

theorem Memory.read_insert (m : Memory) (a : Nat) (v : Byte) (b : Nat) (h : ∀ c ∈ m, c.1 ≠ a) :
    (Memory.insert m a v).read b = if b = a then v else m.read b := by
  induction m with
  | nil => simp [Memory.insert, Memory.read_cons, eq_comm]
  | cons c m ih =>
    obtain ⟨k, w⟩ := c
    have hk : k ≠ a := h (k, w) (by simp)
    have ih := ih fun c hc => h c (by simp [hc])
    unfold Memory.insert
    split
    · simp [Memory.read_cons, eq_comm]
    · rw [Memory.read_cons, ih, Memory.read_cons]
      by_cases hb : k = b
      · subst hb; simp [hk]
      · simp [hb]

/-- A read after a write gives the value written, and every other byte is as before. -/
theorem Memory.read_write (m : Memory) (a : Nat) (v : Byte) (b : Nat) :
    (m.write a v).read b = if b = a then v else m.read b := by
  unfold Memory.write
  split
  · next h => rw [Memory.read_erase, h]
  · rw [Memory.read_insert _ _ _ _ (by simp [Memory.erase]), Memory.read_erase]
    split <;> simp_all

@[simp] theorem Memory.read_write_self (m : Memory) (a : Nat) (v : Byte) : (m.write a v).read a = v := by
  simp [Memory.read_write]

theorem Memory.read_write_ne (m : Memory) {a b : Nat} (v : Byte) (h : b ≠ a) : (m.write a v).read b = m.read b := by
  simp [Memory.read_write, h]

/-- A pixel write stores its three channels and nothing else. -/
theorem Memory.read_writePix (m : Memory) (a : Nat) (p : Pixel) (b : Nat) :
    (m.writePix a p).read b =
      if b = a then chan p .c0 else if b = a + 1 then chan p .c1 else if b = a + 2 then chan p .c2 else m.read b := by
  simp only [Memory.writePix, Memory.read_write]
  by_cases h0 : b = a
  · simp [h0]
  · by_cases h1 : b = a + 1
    · simp [h1]
    · simp [h0, h1]

theorem Memory.read_writePix_out (m : Memory) (a : Nat) (p : Pixel) {b : Nat} (h : ¬ (a ≤ b ∧ b < a + 3)) :
    (m.writePix a p).read b = m.read b := by
  rw [Memory.read_writePix, if_neg (by omega), if_neg (by omega), if_neg (by omega)]

/-- A word write stores the four bytes of the word, least significant first, and nothing else. -/
theorem Memory.read_write4 (m : Memory) (a : Nat) (v : Word) (b : Nat) :
    (m.write4 a v).read b = if a ≤ b ∧ b < a + 4 then lane8 v (b - a) else m.read b := by
  simp only [Memory.write4, Memory.read_write]
  by_cases h : a ≤ b ∧ b < a + 4
  · obtain h | h | h | h : b = a ∨ b = a + 1 ∨ b = a + 2 ∨ b = a + 3 := by omega
    all_goals subst h; simp
  · rw [if_neg h, if_neg (by omega), if_neg (by omega), if_neg (by omega), if_neg (by omega)]

/-! ### The canonical form -/

theorem Memory.wfFrom_mono {m : Memory} {lo lo' : Nat} (h : lo' ≤ lo) (hm : Memory.wfFrom lo m = true) :
    Memory.wfFrom lo' m = true := by
  cases m with
  | nil => rfl
  | cons c m =>
    simp only [Memory.wfFrom, Bool.and_eq_true, decide_eq_true_eq] at hm ⊢
    exact ⟨⟨⟨by omega, hm.1.1.2⟩, hm.1.2⟩, hm.2⟩

theorem Memory.wfFrom_erase {m : Memory} (a : Nat) {lo : Nat} (hm : Memory.wfFrom lo m = true) :
    Memory.wfFrom lo (m.erase a) = true := by
  induction m generalizing lo with
  | nil => rfl
  | cons c m ih =>
    simp only [Memory.wfFrom, Bool.and_eq_true, decide_eq_true_eq] at hm
    have ih := ih hm.2
    simp only [Memory.erase, List.filter_cons]
    split
    · simp only [Memory.wfFrom, Bool.and_eq_true, decide_eq_true_eq]
      exact ⟨hm.1, ih⟩
    · exact Memory.wfFrom_mono (by omega) ih

theorem Memory.wfFrom_insert {m : Memory} {a : Nat} {v : Byte} {lo : Nat} (hm : Memory.wfFrom lo m = true)
    (hlo : lo ≤ a) (ha : a < 2 ^ 32) (hv : v ≠ 0) (h : ∀ c ∈ m, c.1 ≠ a) :
    Memory.wfFrom lo (m.insert a v) = true := by
  induction m generalizing lo with
  | nil => simpa [Memory.insert, Memory.wfFrom, hlo] using And.intro ha hv
  | cons c m ih =>
    obtain ⟨k, w⟩ := c
    have hk : k ≠ a := h (k, w) (by simp)
    simp only [Memory.wfFrom, Bool.and_eq_true, decide_eq_true_eq] at hm
    obtain ⟨⟨⟨hlk, hk32⟩, hw⟩, hm⟩ := hm
    unfold Memory.insert
    split
    · next hlt =>
      simp only [Memory.wfFrom, Bool.and_eq_true, decide_eq_true_eq]
      exact ⟨⟨⟨hlo, ha⟩, by simpa using hv⟩, ⟨⟨by omega, hk32⟩, hw⟩, hm⟩
    · simp only [Memory.wfFrom, Bool.and_eq_true, decide_eq_true_eq]
      exact ⟨⟨⟨hlk, hk32⟩, hw⟩, ih hm (by omega) fun c hc => h c (by simp [hc])⟩

/-- A write below 2^32 keeps the canonical form. -/
theorem Memory.wf_write {m : Memory} (hm : m.wf = true) {a : Nat} (ha : a < 2 ^ 32) (v : Byte) :
    (m.write a v).wf = true := by
  unfold Memory.write
  split
  · exact Memory.wfFrom_erase a hm
  · next hv => exact Memory.wfFrom_insert (Memory.wfFrom_erase a hm) (Nat.zero_le a) ha hv (by simp [Memory.erase])

theorem Memory.wf_writePix {m : Memory} (hm : m.wf = true) {a : Nat} (ha : a + 3 ≤ 2 ^ 32) (p : Pixel) :
    (m.writePix a p).wf = true :=
  Memory.wf_write (Memory.wf_write (Memory.wf_write hm (by omega) _) (by omega) _) (by omega) _

theorem Memory.wf_write4 {m : Memory} (hm : m.wf = true) {a : Nat} (ha : a + 4 ≤ 2 ^ 32) (v : Word) :
    (m.write4 a v).wf = true :=
  Memory.wf_write (Memory.wf_write (Memory.wf_write (Memory.wf_write hm (by omega) _) (by omega) _) (by omega) _)
    (by omega) _

/-- The reset state's memory has the canonical form. -/
theorem State.reset_mem_wf : State.reset.mem.wf = true := rfl

/-! ### Equal contents are equal lists -/

theorem Memory.read_eq_zero_of_wfFrom {m : Memory} {lo b : Nat} (hm : Memory.wfFrom lo m = true) (hb : b < lo) :
    m.read b = 0 := by
  induction m generalizing lo with
  | nil => rfl
  | cons c m ih =>
    simp only [Memory.wfFrom, Bool.and_eq_true, decide_eq_true_eq] at hm
    rw [Memory.read_cons, if_neg (by omega)]
    exact ih hm.2 (by omega)

/-- Two memories in canonical form with the same byte at every address are the same list. -/
theorem Memory.eq_of_read {m m' : Memory} {lo lo' : Nat} (hm : Memory.wfFrom lo m = true)
    (hm' : Memory.wfFrom lo' m' = true) (h : ∀ a, m.read a = m'.read a) : m = m' := by
  induction m generalizing m' lo lo' with
  | nil =>
    cases m' with
    | nil => rfl
    | cons c m' =>
      obtain ⟨k, v⟩ := c
      simp only [Memory.wfFrom, Bool.and_eq_true, bne_iff_ne] at hm'
      exact absurd (h k).symm (by simpa [Memory.read_cons] using hm'.1.2)
  | cons c m ih =>
    obtain ⟨k, v⟩ := c
    simp only [Memory.wfFrom, Bool.and_eq_true, bne_iff_ne, decide_eq_true_eq] at hm
    cases m' with
    | nil => exact absurd (h k) (by simpa [Memory.read_cons] using hm.1.2)
    | cons c' m' =>
      obtain ⟨k', v'⟩ := c'
      simp only [Memory.wfFrom, Bool.and_eq_true, bne_iff_ne, decide_eq_true_eq] at hm'
      have hkk : k = k' := by
        rcases Nat.lt_trichotomy k k' with hlt | heq | hgt
        · have hz := h k
          rw [Memory.read_cons, if_pos rfl, Memory.read_cons, if_neg (by omega),
            Memory.read_eq_zero_of_wfFrom hm'.2 (by omega)] at hz
          exact absurd hz hm.1.2
        · exact heq
        · have hz := h k'
          rw [Memory.read_cons, if_neg (by omega), Memory.read_cons, if_pos rfl,
            Memory.read_eq_zero_of_wfFrom hm.2 (by omega)] at hz
          exact absurd hz.symm hm'.1.2
      subst hkk
      have hv : v = v' := by simpa [Memory.read_cons] using h k
      subst hv
      rw [ih hm.2 hm'.2 fun a => ?_]
      by_cases ha : k = a
      · subst ha
        rw [Memory.read_eq_zero_of_wfFrom hm.2 (by omega), Memory.read_eq_zero_of_wfFrom hm'.2 (by omega)]
      · simpa [Memory.read_cons, ha] using h a

end Sys2Proof.Machine
end

