-- ==== Sys2Proof/Laws/Words.lean ====
section
/-! SUPPORT. Words, pixels and fields as numbers: the lemmas that turn bit fields into arithmetic. -/

namespace Sys2Proof

/-- The first part of a concatenation is the upper one. -/
theorem toNat_append_add {m n : Nat} (x : BitVec m) (y : BitVec n) :
    (x ++ y).toNat = x.toNat * 2 ^ n + y.toNat := by
  rw [BitVec.toNat_append, ← Nat.shiftLeft_add_eq_or_of_lt y.isLt, Nat.shiftLeft_eq]

/-- A bit field as a quotient and a remainder. -/
theorem toNat_extract {m : Nat} (x : BitVec m) (s n : Nat) :
    (x.extractLsb' s n).toNat = x.toNat / 2 ^ s % 2 ^ n := by
  rw [BitVec.extractLsb'_toNat, Nat.shiftRight_eq_div_pow]

/-! ### The two formats (R61, R62) -/

theorem wordR_toNat (op : Byte) (rd rs1 rs2 rs3 : BitVec 4) (fn : Byte) :
    (wordR op rd rs1 rs2 rs3 fn).toNat = op.toNat * 2 ^ 24 + rd.toNat * 2 ^ 20 + rs1.toNat * 2 ^ 16 +
      rs2.toNat * 2 ^ 12 + rs3.toNat * 2 ^ 8 + fn.toNat := by
  simp only [wordR, toNat_append_add]
  omega

theorem wordI_toNat (op : Byte) (rd rs1 : BitVec 4) (imm : Half) :
    (wordI op rd rs1 imm).toNat = op.toNat * 2 ^ 24 + rd.toNat * 2 ^ 20 + rs1.toNat * 2 ^ 16 + imm.toNat := by
  simp only [wordI, toNat_append_add]
  omega

theorem fieldOp_toNat (w : Word) : (fieldOp w).toNat = w.toNat / 2 ^ 24 % 2 ^ 8 := toNat_extract w 24 8
theorem fieldRd_toNat (w : Word) : (fieldRd w).toNat = w.toNat / 2 ^ 20 % 2 ^ 4 := toNat_extract w 20 4
theorem fieldRs1_toNat (w : Word) : (fieldRs1 w).toNat = w.toNat / 2 ^ 16 % 2 ^ 4 := toNat_extract w 16 4
theorem fieldRs2_toNat (w : Word) : (fieldRs2 w).toNat = w.toNat / 2 ^ 12 % 2 ^ 4 := toNat_extract w 12 4
theorem fieldRs3_toNat (w : Word) : (fieldRs3 w).toNat = w.toNat / 2 ^ 8 % 2 ^ 4 := toNat_extract w 8 4
theorem fieldFn_toNat (w : Word) : (fieldFn w).toNat = w.toNat / 2 ^ 0 % 2 ^ 8 := toNat_extract w 0 8
theorem fieldImm_toNat (w : Word) : (fieldImm w).toNat = w.toNat / 2 ^ 0 % 2 ^ 16 := toNat_extract w 0 16

/-! ### The fields of a word of format R -/

section FormatR
variable (op : Byte) (rd rs1 rs2 rs3 : BitVec 4) (fn : Byte)

@[simp] theorem fieldOp_wordR : fieldOp (wordR op rd rs1 rs2 rs3 fn) = op := by
  apply BitVec.eq_of_toNat_eq; rw [fieldOp_toNat, wordR_toNat]; omega
@[simp] theorem fieldRd_wordR : fieldRd (wordR op rd rs1 rs2 rs3 fn) = rd := by
  apply BitVec.eq_of_toNat_eq; rw [fieldRd_toNat, wordR_toNat]; omega
@[simp] theorem fieldRs1_wordR : fieldRs1 (wordR op rd rs1 rs2 rs3 fn) = rs1 := by
  apply BitVec.eq_of_toNat_eq; rw [fieldRs1_toNat, wordR_toNat]; omega
@[simp] theorem fieldRs2_wordR : fieldRs2 (wordR op rd rs1 rs2 rs3 fn) = rs2 := by
  apply BitVec.eq_of_toNat_eq; rw [fieldRs2_toNat, wordR_toNat]; omega
@[simp] theorem fieldRs3_wordR : fieldRs3 (wordR op rd rs1 rs2 rs3 fn) = rs3 := by
  apply BitVec.eq_of_toNat_eq; rw [fieldRs3_toNat, wordR_toNat]; omega
@[simp] theorem fieldFn_wordR : fieldFn (wordR op rd rs1 rs2 rs3 fn) = fn := by
  apply BitVec.eq_of_toNat_eq; rw [fieldFn_toNat, wordR_toNat]; omega

end FormatR

/-! ### The fields of a word of format I -/

section FormatI
variable (op : Byte) (rd rs1 : BitVec 4) (imm : Half)

@[simp] theorem fieldOp_wordI : fieldOp (wordI op rd rs1 imm) = op := by
  apply BitVec.eq_of_toNat_eq; rw [fieldOp_toNat, wordI_toNat]; omega
@[simp] theorem fieldRd_wordI : fieldRd (wordI op rd rs1 imm) = rd := by
  apply BitVec.eq_of_toNat_eq; rw [fieldRd_toNat, wordI_toNat]; omega
@[simp] theorem fieldRs1_wordI : fieldRs1 (wordI op rd rs1 imm) = rs1 := by
  apply BitVec.eq_of_toNat_eq; rw [fieldRs1_toNat, wordI_toNat]; omega
@[simp] theorem fieldImm_wordI : fieldImm (wordI op rd rs1 imm) = imm := by
  apply BitVec.eq_of_toNat_eq; rw [fieldImm_toNat, wordI_toNat]; omega

end FormatI

/-! ### A word is its fields -/

/-- Every word is a word of format R. -/
theorem wordR_fields (w : Word) :
    wordR (fieldOp w) (fieldRd w) (fieldRs1 w) (fieldRs2 w) (fieldRs3 w) (fieldFn w) = w := by
  apply BitVec.eq_of_toNat_eq
  rw [wordR_toNat, fieldOp_toNat, fieldRd_toNat, fieldRs1_toNat, fieldRs2_toNat, fieldRs3_toNat, fieldFn_toNat]
  omega

/-- Every word is a word of format I. -/
theorem wordI_fields (w : Word) : wordI (fieldOp w) (fieldRd w) (fieldRs1 w) (fieldImm w) = w := by
  apply BitVec.eq_of_toNat_eq
  rw [wordI_toNat, fieldOp_toNat, fieldRd_toNat, fieldRs1_toNat, fieldImm_toNat]
  omega

@[simp] theorem regOf_regBits (r : Reg) : regOf (regBits r) = r := rfl
@[simp] theorem regBits_regOf (f : BitVec 4) : regBits (regOf f) = f := rfl
@[simp] theorem regBits_toNat (r : Reg) : (regBits r).toNat = r.val := rfl

/-! ### The sub-fields of `fn` (R65) and the control register numbers (R15) -/

@[simp] theorem widthOf_widthBits (v : Width) : widthOf (widthBits v) = some v := by cases v <;> rfl
@[simp] theorem chanOf_chanBits (c : Chan) : chanOf (chanBits c) = some c := by cases c <;> rfl
@[simp] theorem dirOf_dirBits (d : Dir) : dirOf (dirBits d) = some d := by cases d <;> rfl
@[simp] theorem csrOf_csrNumber (n : Csr) : csrOf (csrNumber n) = some n := by
  cases n with
  | lacc c => cases c <;> rfl
  | ldel c => cases c <;> rfl
  | id => rfl
  | status => rfl
  | finfo => rfl
  | fcmd => rfl
  | wbase => rfl
  | wlimit => rfl
  | lrem => rfl

/-- A field value with a width is the `fn` of that width. -/
theorem widthBits_of_widthOf {fn : Byte} {v : Width} (h : widthOf fn = some v) : widthBits v = fn := by
  unfold widthOf at h
  split at h <;> cases h <;> exact BitVec.eq_of_toNat_eq (by simp_all [widthBits])

theorem chanBits_of_chanOf {fn : Byte} {c : Chan} (h : chanOf fn = some c) : chanBits c = fn := by
  unfold chanOf at h
  split at h <;> cases h <;> exact BitVec.eq_of_toNat_eq (by simp_all [chanBits])

theorem dirBits_of_dirOf {fn : Byte} {d : Dir} (h : dirOf fn = some d) : dirBits d = fn := by
  unfold dirOf at h
  split at h <;> cases h <;> exact BitVec.eq_of_toNat_eq (by simp_all [dirBits])

theorem csrNumber_of_csrOf {f : Half} {n : Csr} (h : csrOf f = some n) : csrNumber n = f := by
  unfold csrOf at h
  split at h <;> cases h <;> exact BitVec.eq_of_toNat_eq (by simp_all [csrNumber])

namespace Machine

/-! ### Triples (R14) -/

theorem pack_toNat (a b c : Byte) : (pack a b c).toNat = a.toNat * 2 ^ 16 + b.toNat * 2 ^ 8 + c.toNat := by
  simp only [pack, toNat_append_add]
  omega

theorem chan_c0_toNat (p : Pixel) : (chan p .c0).toNat = p.toNat / 2 ^ 16 % 2 ^ 8 := toNat_extract p 16 8
theorem chan_c1_toNat (p : Pixel) : (chan p .c1).toNat = p.toNat / 2 ^ 8 % 2 ^ 8 := toNat_extract p 8 8
theorem chan_c2_toNat (p : Pixel) : (chan p .c2).toNat = p.toNat / 2 ^ 0 % 2 ^ 8 := toNat_extract p 0 8

@[simp] theorem chan_pack_c0 (a b c : Byte) : chan (pack a b c) .c0 = a := by
  apply BitVec.eq_of_toNat_eq; rw [chan_c0_toNat, pack_toNat]; omega
@[simp] theorem chan_pack_c1 (a b c : Byte) : chan (pack a b c) .c1 = b := by
  apply BitVec.eq_of_toNat_eq; rw [chan_c1_toNat, pack_toNat]; omega
@[simp] theorem chan_pack_c2 (a b c : Byte) : chan (pack a b c) .c2 = c := by
  apply BitVec.eq_of_toNat_eq; rw [chan_c2_toNat, pack_toNat]; omega

/-- A triple is its channels. -/
@[simp] theorem pack_chan (p : Pixel) : pack (chan p .c0) (chan p .c1) (chan p .c2) = p := by
  apply BitVec.eq_of_toNat_eq
  rw [pack_toNat, chan_c0_toNat, chan_c1_toNat, chan_c2_toNat]
  omega

/-- Every channel of a per-channel map, where the function keeps to a byte. -/
theorem chan_pmap (f : Nat → Nat) (p : Pixel) (c : Chan) (h : f (chan p c).toNat < 2 ^ 8) :
    (chan (pmap f p) c).toNat = f (chan p c).toNat := by
  cases c <;> simpa [pmap, packNat] using h

/-- Every channel of a function of two pixels, where the function keeps to a byte. -/
theorem chan_pzip (f : Nat → Nat → Nat) (p q : Pixel) (c : Chan)
    (h : f (chan p c).toNat (chan q c).toNat < 2 ^ 8) :
    (chan (pzip f p q) c).toNat = f (chan p c).toNat (chan q c).toNat := by
  cases c <;> simpa [pzip, packNat] using h

/-! ### Operands and lanes -/

theorem State.byteOf_toNat (s : State) (r : Reg) : (s.byteOf r).toNat = (s.reg r).toNat % 2 ^ 8 :=
  BitVec.toNat_setWidth ..
theorem State.halfOf_toNat (s : State) (r : Reg) : (s.halfOf r).toNat = (s.reg r).toNat % 2 ^ 16 :=
  BitVec.toNat_setWidth ..
theorem State.triple_toNat (s : State) (r : Reg) : (s.triple r).toNat = (s.reg r).toNat % 2 ^ 24 :=
  BitVec.toNat_setWidth ..
theorem lane8_toNat (w : Word) (j : Nat) : (lane8 w j).toNat = w.toNat / 2 ^ (8 * j) % 2 ^ 8 :=
  toNat_extract w (8 * j) 8
theorem lane16_toNat (w : Word) (j : Nat) : (lane16 w j).toNat = w.toNat / 2 ^ (16 * j) % 2 ^ 16 :=
  toNat_extract w (16 * j) 16

/-- The bytes of a memory word as numbers (R42). -/
theorem Memory.read4_toNat (m : Memory) (a : Nat) :
    (m.read4 a).toNat = (m.read (a + 3)).toNat * 2 ^ 24 + (m.read (a + 2)).toNat * 2 ^ 16 +
      (m.read (a + 1)).toNat * 2 ^ 8 + (m.read a).toNat := by
  simp only [Memory.read4, toNat_append_add]
  omega

end Machine
end Sys2Proof
end

