-- ==== Sys2Proof/Laws/Buffer.lean ====
section
/-! SUPPORT. The loops over buffers: what each leaves to be read, pixel by pixel, that it changes no byte outside its
extent, and that it keeps the canonical form. -/

namespace Sys2Proof.Machine

/-! ### Pixels and their bytes -/

theorem Memory.read_eq_chan (m : Memory) (a : Nat) :
    m.read a = chan (m.readPix a) .c0 ∧ m.read (a + 1) = chan (m.readPix a) .c1 ∧
      m.read (a + 2) = chan (m.readPix a) .c2 := by
  simp [Memory.readPix]

theorem Memory.readPix_congr {m m' : Memory} {a : Nat} (h : ∀ b, a ≤ b → b < a + 3 → m.read b = m'.read b) :
    m.readPix a = m'.readPix a := by
  simp only [Memory.readPix, h a (by omega) (by omega), h (a + 1) (by omega) (by omega),
    h (a + 2) (by omega) (by omega)]

@[simp] theorem Memory.readPix_writePix (m : Memory) (a : Nat) (p : Pixel) : (m.writePix a p).readPix a = p := by
  simp [Memory.readPix, Memory.read_writePix]

theorem Memory.readPix_writePix_out (m : Memory) {a b : Nat} (p : Pixel) (h : b + 3 ≤ a ∨ a + 3 ≤ b) :
    (m.writePix a p).readPix b = m.readPix b :=
  Memory.readPix_congr fun _ _ _ => Memory.read_writePix_out m a p (by omega)

/-! ### `FILL` -/

theorem fillLoop_out (p : Pixel) (n a : Nat) (m : Memory) {b : Nat} (h : ¬ (a ≤ b ∧ b < a + 3 * n)) :
    (fillLoop p n a m).read b = m.read b := by
  induction n generalizing a m with
  | zero => rfl
  | succ n ih => rw [fillLoop, ih _ _ (by omega), Memory.read_writePix_out _ _ _ (by omega)]

theorem fillLoop_readPix (p : Pixel) (n a : Nat) (m : Memory) {k : Nat} (h : k < n) :
    (fillLoop p n a m).readPix (a + 3 * k) = p := by
  induction n generalizing a m k with
  | zero => omega
  | succ n ih =>
    rw [fillLoop]
    cases k with
    | zero =>
      rw [Memory.readPix_congr fun b _ _ => fillLoop_out p n (a + 3) _ (by omega)]
      exact Memory.readPix_writePix m a p
    | succ k =>
      rw [show a + 3 * (k + 1) = a + 3 + 3 * k by omega]
      exact ih (a + 3) _ (by omega)

theorem fillLoop_wf (p : Pixel) {n a : Nat} {m : Memory} (hm : m.wf = true) (h : a + 3 * n ≤ 2 ^ 32) :
    (fillLoop p n a m).wf = true := by
  induction n generalizing a m with
  | zero => exact hm
  | succ n ih => exact ih (Memory.wf_writePix hm (by omega) p) (by omega)

/-! ### `BBLEND` -/

theorem bblendLoop_out (o : Pixel) (amt n a : Nat) (m : Memory) {b : Nat} (h : ¬ (a ≤ b ∧ b < a + 3 * n)) :
    (bblendLoop o amt n a m).read b = m.read b := by
  induction n generalizing a m with
  | zero => rfl
  | succ n ih => rw [bblendLoop, ih _ _ (by omega), Memory.read_writePix_out _ _ _ (by omega)]

theorem bblendLoop_readPix (o : Pixel) (amt n a : Nat) (m : Memory) {k : Nat} (h : k < n) :
    (bblendLoop o amt n a m).readPix (a + 3 * k) = pzip (bblend amt) (m.readPix (a + 3 * k)) o := by
  induction n generalizing a m k with
  | zero => omega
  | succ n ih =>
    rw [bblendLoop]
    cases k with
    | zero =>
      rw [Memory.readPix_congr fun b _ _ => bblendLoop_out o amt n (a + 3) _ (by omega)]
      exact Memory.readPix_writePix m a _
    | succ k =>
      rw [show a + 3 * (k + 1) = a + 3 + 3 * k by omega, ih (a + 3) _ (by omega),
        Memory.readPix_writePix_out _ _ (by omega)]

theorem bblendLoop_wf (o : Pixel) (amt : Nat) {n a : Nat} {m : Memory} (hm : m.wf = true)
    (h : a + 3 * n ≤ 2 ^ 32) : (bblendLoop o amt n a m).wf = true := by
  induction n generalizing a m with
  | zero => exact hm
  | succ n ih => exact ih (Memory.wf_writePix hm (by omega) _) (by omega)

/-! ### `BLUR` -/

theorem blurLoop_out (keep seep n a : Nat) (carry : Pixel) (m : Memory) {b : Nat}
    (h : ¬ (a ≤ b ∧ b < a + 3 * n)) : (blurLoop keep seep n a carry m).read b = m.read b := by
  induction n generalizing a carry m with
  | zero => rfl
  | succ n ih =>
    rw [blurLoop]
    split
    · exact Memory.read_writePix_out _ _ _ (by omega)
    · rw [ih _ _ _ (by omega), Memory.read_writePix_out _ _ _ (by omega)]

/-- Each pixel by the colours before the loop: the carry of a pixel is its own old colour scaled by `seep`, but for the
first; the last pixel receives nothing from its right. -/
theorem blurLoop_readPix (keep seep n a : Nat) (carry : Pixel) (m : Memory) {k : Nat} (h : k < n) :
    (blurLoop keep seep n a carry m).readPix (a + 3 * k) =
      let cur := padd (pscale (m.readPix (a + 3 * k)) keep)
        (if k = 0 then carry else pscale (m.readPix (a + 3 * k)) seep)
      if n = k + 1 then cur else padd cur (pscale (m.readPix (a + 3 * k + 3)) seep) := by
  induction n generalizing a carry m k with
  | zero => omega
  | succ n ih =>
    rw [blurLoop]
    by_cases hn : n = 0
    · obtain rfl : k = 0 := by omega
      simp [hn]
    · simp only [hn, if_false]
      cases k with
      | zero =>
        rw [Memory.readPix_congr fun b _ _ => blurLoop_out keep seep n (a + 3) _ _ (by omega)]
        simp [hn]
      | succ k =>
        have hk : k < n := by omega
        rw [show a + 3 * (k + 1) = a + 3 + 3 * k by omega, ih (a + 3) _ _ hk,
          Memory.readPix_writePix_out _ _ (by omega), Memory.readPix_writePix_out _ _ (by omega)]
        by_cases hz : k = 0 <;> simp [hz]

theorem blurLoop_wf (keep seep : Nat) {n a : Nat} {carry : Pixel} {m : Memory} (hm : m.wf = true)
    (h : a + 3 * n ≤ 2 ^ 32) : (blurLoop keep seep n a carry m).wf = true := by
  induction n generalizing a carry m with
  | zero => exact hm
  | succ n ih =>
    rw [blurLoop]
    split
    · exact Memory.wf_writePix hm (by omega) _
    · exact ih (Memory.wf_writePix hm (by omega) _) (by omega)

/-! ### `LFILL` -/

theorem lfillLoop_out (n a : Nat) (l : Lerp) (m : Memory) {b : Nat} (h : ¬ (a ≤ b ∧ b < a + 3 * n)) :
    (lfillLoop n a l m).2.read b = m.read b := by
  induction n generalizing a l m with
  | zero => rfl
  | succ n ih => rw [lfillLoop, ih _ _ _ (by omega), Memory.read_writePix_out _ _ _ (by omega)]

/-- The accumulator after the loop has advanced once for each triple. -/
theorem lfillLoop_lerp (n a : Nat) (l : Lerp) (m : Memory) : (lfillLoop n a l m).1 = Lerp.advance^[n] l := by
  induction n generalizing a l m with
  | zero => rfl
  | succ n ih => rw [lfillLoop, ih, Function.iterate_succ_apply]

/-- Triple `k` is what the accumulator yields after `k` advances. -/
theorem lfillLoop_readPix (n a : Nat) (l : Lerp) (m : Memory) {k : Nat} (h : k < n) :
    (lfillLoop n a l m).2.readPix (a + 3 * k) = (Lerp.advance^[k] l).triple := by
  induction n generalizing a l m k with
  | zero => omega
  | succ n ih =>
    rw [lfillLoop]
    cases k with
    | zero =>
      rw [Memory.readPix_congr fun b _ _ => lfillLoop_out n (a + 3) _ _ (by omega)]
      exact Memory.readPix_writePix m a _
    | succ k =>
      rw [show a + 3 * (k + 1) = a + 3 + 3 * k by omega, ih (a + 3) _ _ (by omega), Function.iterate_succ_apply]

theorem lfillLoop_wf {n a : Nat} {l : Lerp} {m : Memory} (hm : m.wf = true) (h : a + 3 * n ≤ 2 ^ 32) :
    (lfillLoop n a l m).2.wf = true := by
  induction n generalizing a l m with
  | zero => exact hm
  | succ n ih => exact ih (Memory.wf_writePix hm (by omega) _) (by omega)

@[simp] theorem Lerp.advance_del (l : Lerp) : l.advance.del = l.del := rfl
@[simp] theorem Lerp.advance_rem (l : Lerp) : l.advance.rem = l.rem := rfl

theorem Lerp.advance_acc (l : Lerp) (c : Chan) : l.advance.acc.get c = l.acc.get c + l.del.get c := by
  cases c <;> rfl

@[simp] theorem Lerp.advance_iterate_del (l : Lerp) (n : Nat) : (Lerp.advance^[n] l).del = l.del := by
  induction n with
  | zero => rfl
  | succ n ih => rw [Function.iterate_succ_apply', Lerp.advance_del, ih]

theorem Lerp.advance_iterate_acc (l : Lerp) (n : Nat) (c : Chan) :
    ((Lerp.advance^[n] l).acc.get c).toNat = ((l.acc.get c).toNat + n * (l.del.get c).toNat) % 2 ^ 16 := by
  induction n with
  | zero => simpa using (Nat.mod_eq_of_lt (l.acc.get c).isLt).symm
  | succ n ih =>
    rw [Function.iterate_succ_apply', Lerp.advance_acc, BitVec.toNat_add, ih, Lerp.advance_iterate_del,
      Nat.mod_add_mod, Nat.succ_mul, Nat.add_assoc]

/-! ### Batch scaling -/

/-- A byte step changes its byte only. -/
theorem batchStep_byte_read (sc a : Nat) (m : Memory) (b : Nat) :
    (batchStep sc m (.byte a)).read b =
      if b = a then BitVec.ofNat 8 ((m.read a).toNat * sc / 256) else m.read b :=
  Memory.read_write _ _ _ _

/-- A word step changes the four bytes of its word only. -/
theorem batchStep_word_read (sc a : Nat) (m : Memory) (b : Nat) :
    (batchStep sc m (.word a)).read b =
      if a ≤ b ∧ b < a + 4 then lane8 (lanes (m.read4 a) sc) (b - a) else m.read b :=
  Memory.read_write4 _ _ _ _

/-- The bytes that a step reads and writes. -/
def BatchStep.touches : BatchStep → Nat → Prop
  | .byte a, b => b = a
  | .word a, b => a ≤ b ∧ b < a + 4

theorem batchStep_out (sc : Nat) (m : Memory) (x : BatchStep) {b : Nat} (h : ¬ x.touches b) :
    (batchStep sc m x).read b = m.read b := by
  cases x with
  | byte a => rw [batchStep_byte_read, if_neg (by simpa [BatchStep.touches] using h)]
  | word a => rw [batchStep_word_read, if_neg (by simpa only [BatchStep.touches] using h)]

theorem batchStep_wf (sc : Nat) {m : Memory} (hm : m.wf = true) {x : BatchStep}
    (h : ∀ b, x.touches b → b < 2 ^ 32) : (batchStep sc m x).wf = true := by
  cases x with
  | byte a => exact Memory.wf_write hm (h a rfl) _
  | word a =>
    have := h (a + 3) ⟨by omega, by omega⟩
    exact Memory.wf_write4 hm (by omega) _

/-- Every step of the batch scaler stays inside the extent. -/
theorem batchSteps_touches {threshold a n : Nat} {x : BatchStep} (hx : x ∈ batchSteps threshold a n) {b : Nat}
    (hb : x.touches b) : a ≤ b ∧ b < a + n := by
  unfold batchSteps at hx
  split at hx
  · simp at hx
  · split at hx
    · simp only [byteSteps, List.mem_map, List.mem_range] at hx
      obtain ⟨k, hk, rfl⟩ := hx
      simp only [BatchStep.touches] at hb
      omega
    · simp only [byteSteps, wordSteps, splitExtent, List.mem_append, List.mem_map, List.mem_range] at hx
      obtain ⟨k, hk, rfl⟩ | ⟨k, hk, rfl⟩ | ⟨k, hk, rfl⟩ := hx
      all_goals
        simp only [BatchStep.touches] at hb
        omega

theorem foldl_batchStep_out (sc : Nat) (xs : List BatchStep) (m : Memory) {b : Nat}
    (h : ∀ x ∈ xs, ¬ x.touches b) : (xs.foldl (batchStep sc) m).read b = m.read b := by
  induction xs generalizing m with
  | nil => rfl
  | cons x xs ih =>
    rw [List.foldl_cons, ih _ fun y hy => h y (List.mem_cons_of_mem x hy),
      batchStep_out sc m x (h x List.mem_cons_self)]

theorem batchScale_out (threshold a n f : Nat) (m : Memory) {b : Nat} (h : ¬ (a ≤ b ∧ b < a + n)) :
    (batchScale threshold a n f m).read b = m.read b :=
  foldl_batchStep_out _ _ _ fun _ hx hb => h (batchSteps_touches hx hb)

theorem foldl_batchStep_wf (sc : Nat) (xs : List BatchStep) {m : Memory} (hm : m.wf = true)
    (h : ∀ x ∈ xs, ∀ b, x.touches b → b < 2 ^ 32) : (xs.foldl (batchStep sc) m).wf = true := by
  induction xs generalizing m with
  | nil => exact hm
  | cons x xs ih =>
    exact ih (batchStep_wf sc hm (h x List.mem_cons_self)) fun y hy => h y (List.mem_cons_of_mem x hy)

theorem batchScale_wf {threshold a n f : Nat} {m : Memory} (hm : m.wf = true) (h : a + n ≤ 2 ^ 32) :
    (batchScale threshold a n f m).wf = true :=
  foldl_batchStep_wf _ _ hm fun _ hx _ hb => by have := batchSteps_touches hx hb; omega

end Sys2Proof.Machine
end

