-- ==== Sys2Proof/Laws/State.lean ====
section
/-! SUPPORT. One lemma per field per update of State, so that no later proof unfolds a record update. -/

namespace Sys2Proof.Machine

/-! ### `setReg` -/

@[simp] theorem State.setReg_status (s : State) (r : Reg) (v : Word) : (s.setReg r v).status = s.status := rfl
@[simp] theorem State.setReg_finfo (s : State) (r : Reg) (v : Word) : (s.setReg r v).finfo = s.finfo := rfl
@[simp] theorem State.setReg_fcmd (s : State) (r : Reg) (v : Word) : (s.setReg r v).fcmd = s.fcmd := rfl
@[simp] theorem State.setReg_wbase (s : State) (r : Reg) (v : Word) : (s.setReg r v).wbase = s.wbase := rfl
@[simp] theorem State.setReg_wlimit (s : State) (r : Reg) (v : Word) : (s.setReg r v).wlimit = s.wlimit := rfl
@[simp] theorem State.setReg_lerp (s : State) (r : Reg) (v : Word) : (s.setReg r v).lerp = s.lerp := rfl
@[simp] theorem State.setReg_mem (s : State) (r : Reg) (v : Word) : (s.setReg r v).mem = s.mem := rfl
@[simp] theorem State.setReg_config (s : State) (r : Reg) (v : Word) : (s.setReg r v).config = s.config := rfl
@[simp] theorem State.setReg_inputs (s : State) (r : Reg) (v : Word) : (s.setReg r v).inputs = s.inputs := rfl
theorem State.setReg_reg (s : State) (r : Reg) (v : Word) (q : Reg) :
    (s.setReg r v).reg q = if q = r then v else s.reg q := by
  obtain ⟨r, hr⟩ := r
  obtain ⟨q, hq⟩ := q
  simp only [State.reg, State.setReg, Vector.getElem_set, Fin.mk.injEq, eq_comm]

@[simp] theorem State.setReg_reg_self (s : State) (r : Reg) (v : Word) : (s.setReg r v).reg r = v := by
  simp [State.setReg_reg]

theorem State.setReg_reg_ne (s : State) (r : Reg) (v : Word) {q : Reg} (h : q ≠ r) :
    (s.setReg r v).reg q = s.reg q := by
  simp [State.setReg_reg, h]

/-! ### `setMem` -/

@[simp] theorem State.setMem_regs (s : State) (m : Memory) : (s.setMem m).regs = s.regs := rfl
@[simp] theorem State.setMem_status (s : State) (m : Memory) : (s.setMem m).status = s.status := rfl
@[simp] theorem State.setMem_finfo (s : State) (m : Memory) : (s.setMem m).finfo = s.finfo := rfl
@[simp] theorem State.setMem_fcmd (s : State) (m : Memory) : (s.setMem m).fcmd = s.fcmd := rfl
@[simp] theorem State.setMem_wbase (s : State) (m : Memory) : (s.setMem m).wbase = s.wbase := rfl
@[simp] theorem State.setMem_wlimit (s : State) (m : Memory) : (s.setMem m).wlimit = s.wlimit := rfl
@[simp] theorem State.setMem_lerp (s : State) (m : Memory) : (s.setMem m).lerp = s.lerp := rfl
@[simp] theorem State.setMem_mem (s : State) (m : Memory) : (s.setMem m).mem = m := rfl
@[simp] theorem State.setMem_config (s : State) (m : Memory) : (s.setMem m).config = s.config := rfl
@[simp] theorem State.setMem_inputs (s : State) (m : Memory) : (s.setMem m).inputs = s.inputs := rfl
@[simp] theorem State.setMem_reg (s : State) (m : Memory) (q : Reg) : (s.setMem m).reg q = s.reg q := rfl

/-! ### `setLerp` -/

@[simp] theorem State.setLerp_regs (s : State) (l : Lerp) : (s.setLerp l).regs = s.regs := rfl
@[simp] theorem State.setLerp_status (s : State) (l : Lerp) : (s.setLerp l).status = s.status := rfl
@[simp] theorem State.setLerp_finfo (s : State) (l : Lerp) : (s.setLerp l).finfo = s.finfo := rfl
@[simp] theorem State.setLerp_fcmd (s : State) (l : Lerp) : (s.setLerp l).fcmd = s.fcmd := rfl
@[simp] theorem State.setLerp_wbase (s : State) (l : Lerp) : (s.setLerp l).wbase = s.wbase := rfl
@[simp] theorem State.setLerp_wlimit (s : State) (l : Lerp) : (s.setLerp l).wlimit = s.wlimit := rfl
@[simp] theorem State.setLerp_lerp (s : State) (l : Lerp) : (s.setLerp l).lerp = l := rfl
@[simp] theorem State.setLerp_mem (s : State) (l : Lerp) : (s.setLerp l).mem = s.mem := rfl
@[simp] theorem State.setLerp_config (s : State) (l : Lerp) : (s.setLerp l).config = s.config := rfl
@[simp] theorem State.setLerp_inputs (s : State) (l : Lerp) : (s.setLerp l).inputs = s.inputs := rfl
@[simp] theorem State.setLerp_reg (s : State) (l : Lerp) (q : Reg) : (s.setLerp l).reg q = s.reg q := rfl

/-! ### `setAcc` -/

@[simp] theorem State.setAcc_regs (s : State) (c : Chan) (v : Half) : (s.setAcc c v).regs = s.regs := rfl
@[simp] theorem State.setAcc_status (s : State) (c : Chan) (v : Half) : (s.setAcc c v).status = s.status := rfl
@[simp] theorem State.setAcc_finfo (s : State) (c : Chan) (v : Half) : (s.setAcc c v).finfo = s.finfo := rfl
@[simp] theorem State.setAcc_fcmd (s : State) (c : Chan) (v : Half) : (s.setAcc c v).fcmd = s.fcmd := rfl
@[simp] theorem State.setAcc_wbase (s : State) (c : Chan) (v : Half) : (s.setAcc c v).wbase = s.wbase := rfl
@[simp] theorem State.setAcc_wlimit (s : State) (c : Chan) (v : Half) : (s.setAcc c v).wlimit = s.wlimit := rfl
@[simp] theorem State.setAcc_lerp (s : State) (c : Chan) (v : Half) :
    (s.setAcc c v).lerp = { s.lerp with acc := s.lerp.acc.put c v } := rfl
@[simp] theorem State.setAcc_mem (s : State) (c : Chan) (v : Half) : (s.setAcc c v).mem = s.mem := rfl
@[simp] theorem State.setAcc_config (s : State) (c : Chan) (v : Half) : (s.setAcc c v).config = s.config := rfl
@[simp] theorem State.setAcc_inputs (s : State) (c : Chan) (v : Half) : (s.setAcc c v).inputs = s.inputs := rfl
@[simp] theorem State.setAcc_reg (s : State) (c : Chan) (v : Half) (q : Reg) : (s.setAcc c v).reg q = s.reg q := rfl

/-! ### `setDel` -/

@[simp] theorem State.setDel_regs (s : State) (c : Chan) (v : Half) : (s.setDel c v).regs = s.regs := rfl
@[simp] theorem State.setDel_status (s : State) (c : Chan) (v : Half) : (s.setDel c v).status = s.status := rfl
@[simp] theorem State.setDel_finfo (s : State) (c : Chan) (v : Half) : (s.setDel c v).finfo = s.finfo := rfl
@[simp] theorem State.setDel_fcmd (s : State) (c : Chan) (v : Half) : (s.setDel c v).fcmd = s.fcmd := rfl
@[simp] theorem State.setDel_wbase (s : State) (c : Chan) (v : Half) : (s.setDel c v).wbase = s.wbase := rfl
@[simp] theorem State.setDel_wlimit (s : State) (c : Chan) (v : Half) : (s.setDel c v).wlimit = s.wlimit := rfl
@[simp] theorem State.setDel_lerp (s : State) (c : Chan) (v : Half) :
    (s.setDel c v).lerp = { s.lerp with del := s.lerp.del.put c v } := rfl
@[simp] theorem State.setDel_mem (s : State) (c : Chan) (v : Half) : (s.setDel c v).mem = s.mem := rfl
@[simp] theorem State.setDel_config (s : State) (c : Chan) (v : Half) : (s.setDel c v).config = s.config := rfl
@[simp] theorem State.setDel_inputs (s : State) (c : Chan) (v : Half) : (s.setDel c v).inputs = s.inputs := rfl
@[simp] theorem State.setDel_reg (s : State) (c : Chan) (v : Half) (q : Reg) : (s.setDel c v).reg q = s.reg q := rfl

/-! ### `setRem` -/

@[simp] theorem State.setRem_regs (s : State) (v : Half) : (s.setRem v).regs = s.regs := rfl
@[simp] theorem State.setRem_status (s : State) (v : Half) : (s.setRem v).status = s.status := rfl
@[simp] theorem State.setRem_finfo (s : State) (v : Half) : (s.setRem v).finfo = s.finfo := rfl
@[simp] theorem State.setRem_fcmd (s : State) (v : Half) : (s.setRem v).fcmd = s.fcmd := rfl
@[simp] theorem State.setRem_wbase (s : State) (v : Half) : (s.setRem v).wbase = s.wbase := rfl
@[simp] theorem State.setRem_wlimit (s : State) (v : Half) : (s.setRem v).wlimit = s.wlimit := rfl
@[simp] theorem State.setRem_lerp (s : State) (v : Half) : (s.setRem v).lerp = { s.lerp with rem := v } := rfl
@[simp] theorem State.setRem_mem (s : State) (v : Half) : (s.setRem v).mem = s.mem := rfl
@[simp] theorem State.setRem_config (s : State) (v : Half) : (s.setRem v).config = s.config := rfl
@[simp] theorem State.setRem_inputs (s : State) (v : Half) : (s.setRem v).inputs = s.inputs := rfl
@[simp] theorem State.setRem_reg (s : State) (v : Half) (q : Reg) : (s.setRem v).reg q = s.reg q := rfl

/-! ### `setLx` -/

@[simp] theorem State.setLx_regs (s : State) (v : Bool) : (s.setLx v).regs = s.regs := rfl
@[simp] theorem State.setLx_status (s : State) (v : Bool) : (s.setLx v).status = { s.status with lx := v } := rfl
@[simp] theorem State.setLx_finfo (s : State) (v : Bool) : (s.setLx v).finfo = s.finfo := rfl
@[simp] theorem State.setLx_fcmd (s : State) (v : Bool) : (s.setLx v).fcmd = s.fcmd := rfl
@[simp] theorem State.setLx_wbase (s : State) (v : Bool) : (s.setLx v).wbase = s.wbase := rfl
@[simp] theorem State.setLx_wlimit (s : State) (v : Bool) : (s.setLx v).wlimit = s.wlimit := rfl
@[simp] theorem State.setLx_lerp (s : State) (v : Bool) : (s.setLx v).lerp = s.lerp := rfl
@[simp] theorem State.setLx_mem (s : State) (v : Bool) : (s.setLx v).mem = s.mem := rfl
@[simp] theorem State.setLx_config (s : State) (v : Bool) : (s.setLx v).config = s.config := rfl
@[simp] theorem State.setLx_inputs (s : State) (v : Bool) : (s.setLx v).inputs = s.inputs := rfl
@[simp] theorem State.setLx_reg (s : State) (v : Bool) (q : Reg) : (s.setLx v).reg q = s.reg q := rfl

/-! ### `raiseFault` -/

@[simp] theorem State.raiseFault_regs (s : State) (c : FaultCode) (i w : Word) :
    (s.raiseFault c i w).regs = s.regs := rfl
@[simp] theorem State.raiseFault_status (s : State) (c : FaultCode) (i w : Word) :
    (s.raiseFault c i w).status = s.status.faulted c := rfl
@[simp] theorem State.raiseFault_finfo (s : State) (c : FaultCode) (i w : Word) :
    (s.raiseFault c i w).finfo = i := rfl
@[simp] theorem State.raiseFault_fcmd (s : State) (c : FaultCode) (i w : Word) : (s.raiseFault c i w).fcmd = w := rfl
@[simp] theorem State.raiseFault_wbase (s : State) (c : FaultCode) (i w : Word) :
    (s.raiseFault c i w).wbase = s.wbase := rfl
@[simp] theorem State.raiseFault_wlimit (s : State) (c : FaultCode) (i w : Word) :
    (s.raiseFault c i w).wlimit = s.wlimit := rfl
@[simp] theorem State.raiseFault_lerp (s : State) (c : FaultCode) (i w : Word) :
    (s.raiseFault c i w).lerp = s.lerp := rfl
@[simp] theorem State.raiseFault_mem (s : State) (c : FaultCode) (i w : Word) :
    (s.raiseFault c i w).mem = s.mem := rfl
@[simp] theorem State.raiseFault_config (s : State) (c : FaultCode) (i w : Word) :
    (s.raiseFault c i w).config = s.config := rfl
@[simp] theorem State.raiseFault_inputs (s : State) (c : FaultCode) (i w : Word) :
    (s.raiseFault c i w).inputs = s.inputs := rfl
@[simp] theorem State.raiseFault_reg (s : State) (c : FaultCode) (i w : Word) (q : Reg) :
    (s.raiseFault c i w).reg q = s.reg q := rfl

/-! ### `popInput` -/

@[simp] theorem State.popInput_regs (s : State) : (s.popInput).regs = s.regs := rfl
@[simp] theorem State.popInput_status (s : State) : (s.popInput).status = s.status := rfl
@[simp] theorem State.popInput_finfo (s : State) : (s.popInput).finfo = s.finfo := rfl
@[simp] theorem State.popInput_fcmd (s : State) : (s.popInput).fcmd = s.fcmd := rfl
@[simp] theorem State.popInput_wbase (s : State) : (s.popInput).wbase = s.wbase := rfl
@[simp] theorem State.popInput_wlimit (s : State) : (s.popInput).wlimit = s.wlimit := rfl
@[simp] theorem State.popInput_lerp (s : State) : (s.popInput).lerp = s.lerp := rfl
@[simp] theorem State.popInput_mem (s : State) : (s.popInput).mem = s.mem := rfl
@[simp] theorem State.popInput_config (s : State) : (s.popInput).config = s.config := rfl
@[simp] theorem State.popInput_inputs (s : State) : (s.popInput).inputs = s.inputs.tail := rfl
@[simp] theorem State.popInput_reg (s : State) (q : Reg) : (s.popInput).reg q = s.reg q := rfl

/-! ### `presentFirst` -/

@[simp] theorem State.presentFirst_regs (s : State) (w : Word) : (s.presentFirst w).regs = s.regs := rfl
@[simp] theorem State.presentFirst_status (s : State) (w : Word) : (s.presentFirst w).status = s.status := rfl
@[simp] theorem State.presentFirst_finfo (s : State) (w : Word) : (s.presentFirst w).finfo = s.finfo := rfl
@[simp] theorem State.presentFirst_fcmd (s : State) (w : Word) : (s.presentFirst w).fcmd = s.fcmd := rfl
@[simp] theorem State.presentFirst_wbase (s : State) (w : Word) : (s.presentFirst w).wbase = s.wbase := rfl
@[simp] theorem State.presentFirst_wlimit (s : State) (w : Word) : (s.presentFirst w).wlimit = s.wlimit := rfl
@[simp] theorem State.presentFirst_lerp (s : State) (w : Word) : (s.presentFirst w).lerp = s.lerp := rfl
@[simp] theorem State.presentFirst_mem (s : State) (w : Word) : (s.presentFirst w).mem = s.mem := rfl
@[simp] theorem State.presentFirst_config (s : State) (w : Word) : (s.presentFirst w).config = s.config := rfl
@[simp] theorem State.presentFirst_inputs (s : State) (w : Word) :
    (s.presentFirst w).inputs = .command w :: s.inputs := rfl
@[simp] theorem State.presentFirst_reg (s : State) (w : Word) (q : Reg) : (s.presentFirst w).reg q = s.reg q := rfl

/-! ### `present` -/

@[simp] theorem State.present_regs (s : State) (ws : List Word) : (s.present ws).regs = s.regs := rfl
@[simp] theorem State.present_status (s : State) (ws : List Word) : (s.present ws).status = s.status := rfl
@[simp] theorem State.present_finfo (s : State) (ws : List Word) : (s.present ws).finfo = s.finfo := rfl
@[simp] theorem State.present_fcmd (s : State) (ws : List Word) : (s.present ws).fcmd = s.fcmd := rfl
@[simp] theorem State.present_wbase (s : State) (ws : List Word) : (s.present ws).wbase = s.wbase := rfl
@[simp] theorem State.present_wlimit (s : State) (ws : List Word) : (s.present ws).wlimit = s.wlimit := rfl
@[simp] theorem State.present_lerp (s : State) (ws : List Word) : (s.present ws).lerp = s.lerp := rfl
@[simp] theorem State.present_mem (s : State) (ws : List Word) : (s.present ws).mem = s.mem := rfl
@[simp] theorem State.present_config (s : State) (ws : List Word) : (s.present ws).config = s.config := rfl
@[simp] theorem State.present_inputs (s : State) (ws : List Word) :
    (s.present ws).inputs = s.inputs ++ ws.map HostInput.command := rfl
@[simp] theorem State.present_reg (s : State) (ws : List Word) (q : Reg) : (s.present ws).reg q = s.reg q := rfl

/-! ### `hostWriteByte` -/

@[simp] theorem State.hostWriteByte_regs (s : State) (a : Word) (b : Byte) :
    (s.hostWriteByte a b).regs = s.regs := rfl
@[simp] theorem State.hostWriteByte_status (s : State) (a : Word) (b : Byte) :
    (s.hostWriteByte a b).status = s.status := rfl
@[simp] theorem State.hostWriteByte_finfo (s : State) (a : Word) (b : Byte) :
    (s.hostWriteByte a b).finfo = s.finfo := rfl
@[simp] theorem State.hostWriteByte_fcmd (s : State) (a : Word) (b : Byte) :
    (s.hostWriteByte a b).fcmd = s.fcmd := rfl
@[simp] theorem State.hostWriteByte_wbase (s : State) (a : Word) (b : Byte) :
    (s.hostWriteByte a b).wbase = s.wbase := rfl
@[simp] theorem State.hostWriteByte_wlimit (s : State) (a : Word) (b : Byte) :
    (s.hostWriteByte a b).wlimit = s.wlimit := rfl
@[simp] theorem State.hostWriteByte_lerp (s : State) (a : Word) (b : Byte) :
    (s.hostWriteByte a b).lerp = s.lerp := rfl
@[simp] theorem State.hostWriteByte_mem (s : State) (a : Word) (b : Byte) :
    (s.hostWriteByte a b).mem = s.mem.write a.toNat b := rfl
@[simp] theorem State.hostWriteByte_config (s : State) (a : Word) (b : Byte) :
    (s.hostWriteByte a b).config = s.config := rfl
@[simp] theorem State.hostWriteByte_inputs (s : State) (a : Word) (b : Byte) :
    (s.hostWriteByte a b).inputs = s.inputs := rfl
@[simp] theorem State.hostWriteByte_reg (s : State) (a : Word) (b : Byte) (q : Reg) :
    (s.hostWriteByte a b).reg q = s.reg q := rfl

/-! ### Results are register writes -/

@[simp] theorem State.writeNat_eq (s : State) (r : Reg) (v : Nat) :
    s.writeNat r v = s.setReg r (BitVec.ofNat 32 v) := rfl
@[simp] theorem State.writeTriple_eq (s : State) (r : Reg) (p : Pixel) :
    s.writeTriple r p = s.setReg r (p.setWidth 32) := rfl

/-! ### `applyReset` -/

@[simp] theorem State.applyReset_regs (s : State) : s.applyReset.regs = State.reset.regs := rfl
@[simp] theorem State.applyReset_status (s : State) : s.applyReset.status = State.reset.status := rfl
@[simp] theorem State.applyReset_finfo (s : State) : s.applyReset.finfo = State.reset.finfo := rfl
@[simp] theorem State.applyReset_fcmd (s : State) : s.applyReset.fcmd = State.reset.fcmd := rfl
@[simp] theorem State.applyReset_wbase (s : State) : s.applyReset.wbase = State.reset.wbase := rfl
@[simp] theorem State.applyReset_wlimit (s : State) : s.applyReset.wlimit = State.reset.wlimit := rfl
@[simp] theorem State.applyReset_lerp (s : State) : s.applyReset.lerp = State.reset.lerp := rfl
@[simp] theorem State.applyReset_mem (s : State) : s.applyReset.mem = s.mem := rfl
@[simp] theorem State.applyReset_config (s : State) : s.applyReset.config = s.config := rfl
@[simp] theorem State.applyReset_inputs (s : State) : s.applyReset.inputs = s.inputs := rfl

/-! ### `Status.faulted`, `PerChan.put`, `csrWrite` -/

@[simp] theorem Status.faulted_f (st : Status) (c : FaultCode) : (st.faulted c).f = true := rfl
@[simp] theorem Status.faulted_fc (st : Status) (c : FaultCode) : (st.faulted c).fc = faultNumber c := rfl
@[simp] theorem Status.faulted_lx (st : Status) (c : FaultCode) : (st.faulted c).lx = st.lx := rfl

theorem PerChan.get_put {α : Type} (t : PerChan α) (c d : Chan) (v : α) :
    (t.put c v).get d = if d = c then v else t.get d := by
  cases c <;> cases d <;> rfl

@[simp] theorem PerChan.get_put_self {α : Type} (t : PerChan α) (c : Chan) (v : α) : (t.put c v).get c = v := by
  cases c <;> rfl

theorem PerChan.get_put_ne {α : Type} (t : PerChan α) {c d : Chan} (v : α) (h : d ≠ c) :
    (t.put c v).get d = t.get d := by
  simp [PerChan.get_put, h]

/-- Three values with the same value for every channel are the same. -/
theorem PerChan.eq_of_get {α : Type} {t u : PerChan α} (h : ∀ c, t.get c = u.get c) : t = u := by
  cases t
  cases u
  have h0 := h .c0
  have h1 := h .c1
  have h2 := h .c2
  simp_all [PerChan.get]

@[simp] theorem State.csrWrite_regs (s : State) (n : Csr) (v : Word) : (s.csrWrite n v).regs = s.regs := by
  cases n <;> rfl
@[simp] theorem State.csrWrite_reg (s : State) (n : Csr) (v : Word) (q : Reg) : (s.csrWrite n v).reg q = s.reg q := by
  cases n <;> rfl
@[simp] theorem State.csrWrite_f (s : State) (n : Csr) (v : Word) : (s.csrWrite n v).status.f = s.status.f := by
  cases n <;> rfl
@[simp] theorem State.csrWrite_fc (s : State) (n : Csr) (v : Word) : (s.csrWrite n v).status.fc = s.status.fc := by
  cases n <;> rfl
@[simp] theorem State.csrWrite_finfo (s : State) (n : Csr) (v : Word) : (s.csrWrite n v).finfo = s.finfo := by
  cases n <;> rfl
@[simp] theorem State.csrWrite_fcmd (s : State) (n : Csr) (v : Word) : (s.csrWrite n v).fcmd = s.fcmd := by
  cases n <;> rfl
@[simp] theorem State.csrWrite_mem (s : State) (n : Csr) (v : Word) : (s.csrWrite n v).mem = s.mem := by
  cases n <;> rfl
@[simp] theorem State.csrWrite_config (s : State) (n : Csr) (v : Word) : (s.csrWrite n v).config = s.config := by
  cases n <;> rfl
@[simp] theorem State.csrWrite_inputs (s : State) (n : Csr) (v : Word) : (s.csrWrite n v).inputs = s.inputs := by
  cases n <;> rfl

/-! ### Operands do not depend on memory -/

@[simp] theorem State.setMem_low (s : State) (m : Memory) (n : Nat) (r : Reg) : (s.setMem m).low n r = s.low n r := rfl
@[simp] theorem State.setMem_byteOf (s : State) (m : Memory) (r : Reg) : (s.setMem m).byteOf r = s.byteOf r := rfl
@[simp] theorem State.setMem_halfOf (s : State) (m : Memory) (r : Reg) : (s.setMem m).halfOf r = s.halfOf r := rfl
@[simp] theorem State.setMem_triple (s : State) (m : Memory) (r : Reg) : (s.setMem m).triple r = s.triple r := rfl
@[simp] theorem State.setMem_count (s : State) (m : Memory) (r : Reg) : (s.setMem m).count r = s.count r := rfl
@[simp] theorem State.setMem_effective (s : State) (m : Memory) (r : Reg) (off : Byte) :
    (s.setMem m).effective r off = s.effective r off := rfl

/-- Another memory in a record update is `setMem`. -/
theorem State.with_mem_eq (s : State) (m : Memory) : { s with mem := m } = s.setMem m := rfl

end Sys2Proof.Machine
end

