-- ==== Sys2Proof/Laws/Ops.lean ====
section
/-! SUPPORT. Once for each frame of a command, everything it can do. -/

namespace Sys2Proof.Machine

/-! ### Commands that cannot fault once decoded -/

@[simp] theorem command_live {s : State} (h : s.status.f = false) (effect : State → State) :
    command s effect = .next (effect s) := by
  simp [command, h]

@[simp] theorem command_faulted {s : State} (h : s.status.f = true) (effect : State → State) :
    command s effect = .next s := by
  simp [command, h]

/-- A command answers the same state when faulted, its effect when live, and nothing else. -/
theorem command_cases {s t : State} {effect : State → State} (h : command s effect = .next t) :
    (s.status.f = true ∧ t = s) ∨ (s.status.f = false ∧ t = effect s) := by
  cases hf : s.status.f
  · rw [command_live hf] at h
    exact .inr ⟨rfl, (Host.Outcome.next.inj h).symm⟩
  · rw [command_faulted hf] at h
    exact .inl ⟨rfl, (Host.Outcome.next.inj h).symm⟩

@[simp] theorem illegalWord_live {s : State} (h : s.status.f = false) (w : Word) :
    s.illegalWord w = s.raiseFault .illegal 0 w := by
  simp [State.illegalWord, h]

@[simp] theorem illegalWord_faulted {s : State} (h : s.status.f = true) (w : Word) : s.illegalWord w = s := by
  simp [State.illegalWord, h]

theorem checkedCommand_ok {ok : Bool} (h : ok = true) (i : Instr) (s : State) (effect : State → State) :
    checkedCommand ok i s effect = command s effect := by
  simp [checkedCommand, h]

theorem checkedCommand_illegal {ok : Bool} (h : ok = false) (i : Instr) (s : State) (effect : State → State) :
    checkedCommand ok i s effect = .next (s.illegalWord (encode i)) := by
  simp [checkedCommand, h]

/-- A checked command answers the same state when faulted; live, `ILLEGAL` when its check fails and its effect when it
does not. -/
theorem checkedCommand_cases {ok : Bool} {i : Instr} {s t : State} {effect : State → State}
    (h : checkedCommand ok i s effect = .next t) :
    (s.status.f = true ∧ t = s) ∨ (s.status.f = false ∧ ok = false ∧ t = s.raiseFault .illegal 0 (encode i)) ∨
      (s.status.f = false ∧ ok = true ∧ t = effect s) := by
  cases hok : ok
  · rw [checkedCommand_illegal hok] at h
    cases hf : s.status.f
    · rw [illegalWord_live hf] at h
      exact .inr (.inl ⟨rfl, rfl, (Host.Outcome.next.inj h).symm⟩)
    · rw [illegalWord_faulted hf] at h
      exact .inl ⟨rfl, (Host.Outcome.next.inj h).symm⟩
  · rw [checkedCommand_ok hok] at h
    obtain ⟨hf, ht⟩ | ⟨hf, ht⟩ := command_cases h
    · exact .inl ⟨hf, ht⟩
    · exact .inr (.inr ⟨hf, rfl, ht⟩)

/-! ### Memory commands -/

/-- R46 in arithmetic of naturals. -/
theorem State.inWindow_iff (s : State) (a n : Nat) :
    s.inWindow a n = true ↔ n = 0 ∨ (s.wbase.toNat ≤ a ∧ a + n ≤ s.wlimit.toNat) := by
  simp [State.inWindow]

theorem State.inWindow_eq_false_iff (s : State) (a n : Nat) :
    s.inWindow a n = false ↔ ¬ (n = 0 ∨ (s.wbase.toNat ≤ a ∧ a + n ≤ s.wlimit.toNat)) := by
  rw [← State.inWindow_iff, Bool.not_eq_true]

@[simp] theorem memoryCommand_faulted {s : State} (h : s.status.f = true) (i : Instr) (effect : State → State) :
    memoryCommand i s effect = .next s := by
  simp [memoryCommand, h]

theorem memoryCommand_inside {i : Instr} {s : State} {a n : Nat} (h : s.status.f = false)
    (he : extentOf s i = some (a, n)) (hw : s.inWindow a n = true) (effect : State → State) :
    memoryCommand i s effect = .next (effect s) := by
  simp [memoryCommand, h, he, hw]

theorem memoryCommand_outside {i : Instr} {s : State} {a n : Nat} (h : s.status.f = false)
    (he : extentOf s i = some (a, n)) (hw : s.inWindow a n = false) (effect : State → State) :
    memoryCommand i s effect = .next (s.raiseFault .access (BitVec.ofNat 32 a) (encode i)) := by
  simp [memoryCommand, h, he, hw]

/-- A memory command with extent `(a, n)` answers the same state when faulted; live, `ACCESS` when the extent is not
inside the window and its effect when it is. -/
theorem memoryCommand_cases {i : Instr} {s t : State} {effect : State → State} {a n : Nat}
    (he : extentOf s i = some (a, n)) (h : memoryCommand i s effect = .next t) :
    (s.status.f = true ∧ t = s) ∨
      (s.status.f = false ∧ s.inWindow a n = false ∧ t = s.raiseFault .access (BitVec.ofNat 32 a) (encode i)) ∨
      (s.status.f = false ∧ s.inWindow a n = true ∧ t = effect s) := by
  cases hf : s.status.f
  · cases hw : s.inWindow a n
    · rw [memoryCommand_outside hf he hw] at h
      exact .inr (.inl ⟨rfl, rfl, (Host.Outcome.next.inj h).symm⟩)
    · rw [memoryCommand_inside hf he hw] at h
      exact .inr (.inr ⟨rfl, rfl, (Host.Outcome.next.inj h).symm⟩)
  · rw [memoryCommand_faulted hf] at h
    exact .inl ⟨rfl, (Host.Outcome.next.inj h).symm⟩

/-! ### `HSV2SPC` -/

@[simp] theorem execHsv2spc_faulted {s : State} (h : s.status.f = true) (rd rs1 : Reg) :
    execHsv2spc rd rs1 s = .next s := by
  simp [execHsv2spc, h]

theorem execHsv2spc_bad {s : State} (h : s.status.f = false) (rd rs1 : Reg)
    (hb : spectrumBad s.config (s.triple rs1) = true) :
    execHsv2spc rd rs1 s =
      .next (s.raiseFault .spectrum ((s.triple rs1).setWidth 32) (encode (.hsv2spc rd rs1))) := by
  simp [execHsv2spc, h, hb]

theorem execHsv2spc_good {s : State} (h : s.status.f = false) (rd rs1 : Reg) {c : Pixel}
    (hb : spectrumBad s.config (s.triple rs1) = false) (hc : spectrumValue s.config (s.triple rs1) = some c) :
    execHsv2spc rd rs1 s = .next (s.writeTriple rd c) := by
  simp [execHsv2spc, h, hb, hc]

theorem execHsv2spc_undefined {s : State} (h : s.status.f = false) (rd rs1 : Reg)
    (hb : spectrumBad s.config (s.triple rs1) = false) (hc : spectrumValue s.config (s.triple rs1) = none) :
    execHsv2spc rd rs1 s = .refused .spectrumUndefined := by
  simp [execHsv2spc, h, hb, hc]

/-- `HSV2SPC` answers the same state when faulted; live, `SPECTRUM` on a violating operand and the configured triple on
another. -/
theorem execHsv2spc_cases {s t : State} {rd rs1 : Reg} (h : execHsv2spc rd rs1 s = .next t) :
    (s.status.f = true ∧ t = s) ∨
      (s.status.f = false ∧ spectrumBad s.config (s.triple rs1) = true ∧
        t = s.raiseFault .spectrum ((s.triple rs1).setWidth 32) (encode (.hsv2spc rd rs1))) ∨
      (s.status.f = false ∧ spectrumBad s.config (s.triple rs1) = false ∧
        ∃ c, spectrumValue s.config (s.triple rs1) = some c ∧ t = s.writeTriple rd c) := by
  cases hf : s.status.f
  · cases hb : spectrumBad s.config (s.triple rs1)
    · cases hc : spectrumValue s.config (s.triple rs1) with
      | none => rw [execHsv2spc_undefined hf rd rs1 hb hc] at h; cases h
      | some c =>
        rw [execHsv2spc_good hf rd rs1 hb hc] at h
        exact .inr (.inr ⟨rfl, rfl, c, rfl, (Host.Outcome.next.inj h).symm⟩)
    · rw [execHsv2spc_bad hf rd rs1 hb] at h
      exact .inr (.inl ⟨rfl, rfl, (Host.Outcome.next.inj h).symm⟩)
  · rw [execHsv2spc_faulted hf] at h
    exact .inl ⟨rfl, (Host.Outcome.next.inj h).symm⟩

/-! ### The step -/

theorem step_idle {s : State} (h : s.inputs = []) : step s = .next s := by
  simp [step, nextInput, h]

/-- With something at the head of the queue, the step acts on it and takes it from the queue. -/
theorem step_input {s : State} {x : HostInput} {rest : List HostInput} (h : s.inputs = x :: rest) :
    step s = runInput x s.popInput := by
  simp [step, nextInput, h]

theorem State.popInput_eq {s : State} {x : HostInput} {rest : List HostInput} (h : s.inputs = x :: rest) :
    s.popInput = { s with inputs := rest } := by
  simp [State.popInput, h]

theorem runWord_some {w : Word} {i : Instr} (h : decode w = some i) (s : State) : runWord w s = exec i s := by
  simp [runWord, h]

theorem runWord_none {w : Word} (h : decode w = none) (s : State) : runWord w s = .next (s.illegalWord w) := by
  simp [runWord, h]

/-- A run of `k + 1` steps whose first step answers a next state is the run of `k` steps from there. -/
theorem run_succ_of_step (M : Host.Core) {s t : M.State} (h : M.step s = .next t) (k : Nat) :
    M.run (k + 1) s = M.run k t := by
  rw [Host.Core.run, h]

theorem run_succ {s t : State} (h : step s = .next t) (k : Nat) :
    Host.Core.run Sys2Proof.core (k + 1) s = Host.Core.run Sys2Proof.core k t :=
  run_succ_of_step Sys2Proof.core h k

/-- What a step can do: nothing; a decoded command; an unrecognised word; reset; a host write. -/
theorem step_cases {s t : State} (h : step s = .next t) :
    (s.inputs = [] ∧ t = s) ∨
      (∃ w rest i, s.inputs = .command w :: rest ∧ decode w = some i ∧ exec i s.popInput = .next t) ∨
      (∃ w rest, s.inputs = .command w :: rest ∧ decode w = none ∧ t = s.popInput.illegalWord w) ∨
      (∃ rest, s.inputs = .reset :: rest ∧ t = s.popInput.applyReset) ∨
      ∃ a b rest, s.inputs = .writeByte a b :: rest ∧ t = s.popInput.hostWriteByte a b := by
  cases hi : s.inputs with
  | nil =>
    rw [step_idle hi] at h
    exact .inl ⟨rfl, (Host.Outcome.next.inj h).symm⟩
  | cons x rest =>
    rw [step_input hi] at h
    cases x with
    | command w =>
      simp only [runInput] at h
      cases hd : decode w with
      | none =>
        rw [runWord_none hd] at h
        exact .inr (.inr (.inl ⟨w, rest, rfl, hd, (Host.Outcome.next.inj h).symm⟩))
      | some i => exact .inr (.inl ⟨w, rest, i, rfl, hd, runWord_some hd _ ▸ h⟩)
    | reset => exact .inr (.inr (.inr (.inl ⟨rest, rfl, (Host.Outcome.next.inj h).symm⟩)))
    | writeByte a b => exact .inr (.inr (.inr (.inr ⟨a, b, rest, rfl, (Host.Outcome.next.inj h).symm⟩)))

end Sys2Proof.Machine
end

