-- ==== Sys2Proof/Laws/Exec.lean ====
section
/-! SUPPORT. Once for all commands, what `exec` can do: nothing when faulted, one of the three faults, or an effect that
leaves the fault record, the configuration and the host's inputs alone and keeps memory canonical. -/

namespace Sys2Proof.Machine

/-- Every command does nothing in the faulted state (R244). -/
theorem exec_faulted {s : State} (h : s.status.f = true) (i : Instr) : exec i s = .next s := by
  cases i
  case hsv2spc rd rs1 => exact execHsv2spc_faulted h rd rs1
  case csrw n rs1 =>
    simp [exec, execCsrw, checkedCommand, h]
  case nscale3 w rd rs2 => simp [exec, execNscale3, checkedCommand, h]
  case nscale4 w rd rs2 => simp [exec, execNscale4, checkedCommand, h]
  all_goals exact if_pos h

/-- What the effect of a command leaves alone. -/
structure State.SameRecord (s t : State) : Prop where
  f : t.status.f = s.status.f
  fc : t.status.fc = s.status.fc
  finfo : t.finfo = s.finfo
  fcmd : t.fcmd = s.fcmd
  config : t.config = s.config
  inputs : t.inputs = s.inputs

theorem State.SameRecord.rfl {s : State} : s.SameRecord s := ⟨by rfl, by rfl, by rfl, by rfl, by rfl, by rfl⟩

theorem State.csrWrite_sameRecord (s : State) (n : Csr) (v : Word) : s.SameRecord (s.csrWrite n v) :=
  ⟨by simp, by simp, by simp, by simp, by simp, by simp⟩

theorem nscaleEffect_sameRecord (k : Nat) (w : Width) (rd rs2 : Reg) (s : State) :
    s.SameRecord (nscaleEffect k w rd rs2 s) := by
  cases w
  · exact ⟨rfl, rfl, rfl, rfl, rfl, rfl⟩
  · simp only [nscaleEffect]
    split <;> exact ⟨rfl, rfl, rfl, rfl, rfl, rfl⟩

theorem nscaleEffect_mem (k : Nat) (w : Width) (rd rs2 : Reg) (s : State) :
    (nscaleEffect k w rd rs2 s).mem = s.mem := by
  cases w
  · rfl
  · simp only [nscaleEffect]
    split <;> rfl

/-- What `exec i` can do at `s` when it answers a next state: one constructor for each way. -/
inductive ExecNext (i : Instr) (s : State) : State → Prop where
  /-- Nothing, in the faulted state (R244). -/
  | faulted (hf : s.status.f = true) : ExecNext i s s
  /-- `ILLEGAL`, for a term that is no command. -/
  | illegal (hf : s.status.f = false) (hi : i.wellFormed = false) : ExecNext i s (s.raiseFault .illegal 0 (encode i))
  /-- `ACCESS`, for an extent that is not inside the window (R46). -/
  | access (hf : s.status.f = false) (hi : i.wellFormed = true) (a n : Nat) (he : extentOf s i = some (a, n))
      (hw : s.inWindow a n = false) : ExecNext i s (s.raiseFault .access (BitVec.ofNat 32 a) (encode i))
  /-- `SPECTRUM`, for a violating operand of `HSV2SPC` (R188). -/
  | spectrum (hf : s.status.f = false) (rd rs1 : Reg) (hi : i = .hsv2spc rd rs1)
      (hb : spectrumBad s.config (s.triple rs1) = true) :
      ExecNext i s (s.raiseFault .spectrum ((s.triple rs1).setWidth 32) (encode i))
  /-- The command's effect, which records no fault, touches memory only for a memory command whose extent is inside the
  window, and keeps memory canonical. -/
  | effect (hf : s.status.f = false) (hi : i.wellFormed = true) (t : State) (hr : s.SameRecord t)
      (hw : ∀ a n, extentOf s i = some (a, n) → s.inWindow a n = true) (hn : extentOf s i = none → t.mem = s.mem)
      (hm : s.mem.wf = true → t.mem.wf = true) : ExecNext i s t

theorem ExecNext.of_command {i : Instr} {s t : State} {effect : State → State} (h : command s effect = .next t)
    (hi : i.wellFormed = true) (he : extentOf s i = none) (hr : s.SameRecord (effect s))
    (hm : (effect s).mem = s.mem) : ExecNext i s t := by
  obtain ⟨hf, rfl⟩ | ⟨hf, rfl⟩ := command_cases h
  · exact .faulted hf
  · exact .effect hf hi _ hr (by simp [he]) (fun _ => hm) (fun h => hm ▸ h)

theorem ExecNext.of_checked {i : Instr} {s t : State} {effect : State → State} {ok : Bool}
    (h : checkedCommand ok i s effect = .next t) (hi : i.wellFormed = ok) (he : extentOf s i = none)
    (hr : s.SameRecord (effect s)) (hm : (effect s).mem = s.mem) : ExecNext i s t := by
  obtain ⟨hf, rfl⟩ | ⟨hf, hok, rfl⟩ | ⟨hf, hok, rfl⟩ := checkedCommand_cases h
  · exact .faulted hf
  · exact .illegal hf (hi.trans hok)
  · exact .effect hf (hi.trans hok) _ hr (by simp [he]) (fun _ => hm) (fun h => hm ▸ h)

/-- `keep` may assume that an extent that is not empty ends within the 2^32 bytes. -/
theorem ExecNext.of_memory {i : Instr} {s t : State} {effect : State → State} {a n : Nat}
    (h : memoryCommand i s effect = .next t) (hi : i.wellFormed = true) (he : extentOf s i = some (a, n))
    (hr : s.SameRecord (effect s))
    (keep : (n = 0 ∨ a + n ≤ 2 ^ 32) → s.mem.wf = true → (effect s).mem.wf = true) : ExecNext i s t := by
  obtain ⟨hf, rfl⟩ | ⟨hf, hw, rfl⟩ | ⟨hf, hw, rfl⟩ := memoryCommand_cases he h
  · exact .faulted hf
  · exact .access hf hi a n he hw
  · have := s.wlimit.isLt
    have hb : n = 0 ∨ a + n ≤ 2 ^ 32 := (s.inWindow_iff a n).1 hw |>.imp_right fun h => by omega
    exact .effect hf hi _ hr (fun b m hb => by simp_all) (by simp [he]) (keep hb)

/-- Everything `exec` can do. -/
theorem exec_cases {i : Instr} {s t : State} (h : exec i s = .next t) : ExecNext i s t := by
  cases i <;> simp only [exec, execScale, execScalev, execDimr, execDimv, execDiml, execBrtr, execBrtv, execBrtl,
    execQadd, execQsub, unaryOp, binaryOp] at h
  case csrw n rs1 => exact .of_checked h rfl rfl (s.csrWrite_sameRecord n _) (by simp)
  case nscale2 w rd rs2 => exact .of_command h rfl rfl (nscaleEffect_sameRecord ..) (nscaleEffect_mem ..)
  case nscale3 w rd rs2 => exact .of_checked h rfl rfl (nscaleEffect_sameRecord ..) (nscaleEffect_mem ..)
  case nscale4 w rd rs2 => exact .of_checked h rfl rfl (nscaleEffect_sameRecord ..) (nscaleEffect_mem ..)
  case hsv2spc rd rs1 =>
    obtain ⟨hf, rfl⟩ | ⟨hf, hb, rfl⟩ | ⟨hf, -, c, -, rfl⟩ := execHsv2spc_cases h
    · exact .faulted hf
    · exact .spectrum hf rd rs1 rfl hb
    · exact .effect hf rfl _ ⟨rfl, rfl, rfl, rfl, rfl, rfl⟩ (by simp [extentOf]) (fun _ => rfl) id
  case lnext rd =>
    exact .of_command h rfl rfl (by split <;> exact ⟨rfl, rfl, rfl, rfl, rfl, rfl⟩) (by split <;> rfl)
  case lfill rs1 =>
    refine .of_memory h rfl rfl ⟨rfl, rfl, rfl, rfl, rfl, rfl⟩ fun hb hm => ?_
    by_cases h0 : s.lerp.rem.toNat = 0
    · simpa [lfillEffect, h0, lfillLoop] using hm
    · exact lfillLoop_wf hm (by omega)
  case bscale rs1 rs2 rs3 =>
    refine .of_memory h rfl rfl ⟨rfl, rfl, rfl, rfl, rfl, rfl⟩ fun hb hm => ?_
    by_cases h0 : s.count rs2 = 0
    · simpa [h0, batchScale, batchSteps] using hm
    · exact batchScale_wf hm (by omega)
  case fade rs1 rs2 rs3 =>
    refine .of_memory h rfl rfl ⟨rfl, rfl, rfl, rfl, rfl, rfl⟩ fun hb hm => ?_
    by_cases h0 : s.count rs2 = 0
    · simpa [h0, batchScale, batchSteps] using hm
    · exact batchScale_wf hm (by omega)
  case blur rs1 rs2 rs3 =>
    refine .of_memory h rfl rfl ⟨rfl, rfl, rfl, rfl, rfl, rfl⟩ fun hb hm => ?_
    by_cases h0 : s.count rs2 = 0
    · simpa [h0, blur, blurLoop] using hm
    · exact blurLoop_wf _ _ hm (by omega)
  case fill rs1 rs2 rs3 =>
    refine .of_memory h rfl rfl ⟨rfl, rfl, rfl, rfl, rfl, rfl⟩ fun hb hm => ?_
    by_cases h0 : s.count rs2 = 0
    · simpa [h0, fillLoop] using hm
    · exact fillLoop_wf _ hm (by omega)
  case bblend rs1 rs2 rs3 rs4 =>
    refine .of_memory h rfl rfl ⟨rfl, rfl, rfl, rfl, rfl, rfl⟩ fun hb hm => ?_
    by_cases h0 : s.count rs2 = 0
    · simpa [h0, bblendLoop] using hm
    · exact bblendLoop_wf _ _ hm (by omega)
  case ldp rd rs1 off => exact .of_memory h rfl rfl ⟨rfl, rfl, rfl, rfl, rfl, rfl⟩ fun _ hm => hm
  case ldb rd rs1 off => exact .of_memory h rfl rfl ⟨rfl, rfl, rfl, rfl, rfl, rfl⟩ fun _ hm => hm
  case stp rs2 rs1 off =>
    exact .of_memory h rfl rfl ⟨rfl, rfl, rfl, rfl, rfl, rfl⟩ fun hb hm => Memory.wf_writePix hm (by omega) _
  case stb rs2 rs1 off =>
    exact .of_memory h rfl rfl ⟨rfl, rfl, rfl, rfl, rfl, rfl⟩ fun hb hm => Memory.wf_write hm (by omega) _
  all_goals exact .of_command h rfl rfl ⟨rfl, rfl, rfl, rfl, rfl, rfl⟩ rfl

end Sys2Proof.Machine
end

