-- ==== Sys2Proof/Laws/HueMaps.lean ====
section
/-! SUPPORT. What the checks of R181 on a configured `HUE_RAINBOW` say, as statements of numbers. -/

namespace Sys2Proof.Machine

theorem rising_le {v : Nat → Nat} (h : rising v = true) {i j : Nat} (hij : i ≤ j) (hj : j < 32) : v i ≤ v j := by
  simp only [rising, List.all_eq_true, List.mem_range, decide_eq_true_eq] at h
  induction j, hij using Nat.le_induction with
  | base => exact le_refl _
  | succ j _ ih => exact le_trans (ih (by omega)) (h j (by omega))

theorem falling_le {v : Nat → Nat} (h : falling v = true) {i j : Nat} (hij : i ≤ j) (hj : j < 32) : v j ≤ v i := by
  simp only [falling, List.all_eq_true, List.mem_range, decide_eq_true_eq] at h
  induction j, hij using Nat.le_induction with
  | base => exact le_refl _
  | succ j _ ih => exact le_trans (h j (by omega)) (ih (by omega))

theorem held_eq {v : Nat → Nat} (h : held v = true) {i j : Nat} (hi : i < 32) (hj : j < 32) : v i = v j := by
  simp only [held, List.all_eq_true, List.mem_range, decide_eq_true_eq] at h
  exact (h i hi).trans (h j hj).symm

/-- An interpolated channel is less than one unit off the straight line between the section's ends. -/
theorem interpolated_near_line {v : Nat → Nat} (h : interpolated v = true) {i : Nat} (hi : i < 32) :
    31 * v i < v 0 * (31 - i) + v 31 * i + 31 ∧ v 0 * (31 - i) + v 31 * i < 31 * v i + 31 := by
  simp only [interpolated, List.all_eq_true, List.mem_range, decide_eq_true_eq] at h
  exact h i hi

/-- A hue of section `sec` is its channel sample at the hue's offset. -/
theorem rampAt_of_hue (m : HueMap) (c : Chan) (sec : Nat) (h : Byte) (hs : h.toNat / 32 = sec) :
    rampAt m c sec (h.toNat % 32) = (chan (rainbowOf m h) c).toNat := by
  have e : 32 * sec + h.toNat % 32 = h.toNat := by omega
  rw [rampAt, e, BitVec.ofNat_toNat, BitVec.setWidth_eq]

/-- Every mapping that a configuration can hold obeys R181. -/
theorem Config_rainbowLawful (cfg : Config) : rainbowLawful cfg := by
  have hl := cfg.lawful
  have hl' := hl
  simp only [rainbowConstraints, Bool.and_eq_true] at hl'
  obtain ⟨⟨⟨_, hred, hgreen⟩, hheld, _⟩, _⟩ := hl'
  refine ⟨fun h k hk hk' => ?_, fun h k h1 h2 k1 k2 => BitVec.eq_of_toNat_eq ?_, hl⟩
  · simp only [hueRainbow, ← rampAt_of_hue _ _ 0 h (by omega), ← rampAt_of_hue _ _ 0 k (by omega)]
    exact ⟨falling_le hred (by omega) (by omega), rising_le hgreen (by omega) (by omega)⟩
  · simp only [hueRainbow, ← rampAt_of_hue _ _ 1 h (by omega), ← rampAt_of_hue _ _ 1 k (by omega)]
    exact held_eq hheld (by omega) (by omega)

end Sys2Proof.Machine
end

