-- ==== Sys2Proof/Laws/Live.lean ====
section
/-! SUPPORT. The effect of every command of a live unit as one equation, so that no later proof unfolds a meaning. -/

namespace Sys2Proof.Machine

variable {s : State}

theorem exec_nop (h : s.status.f = false) : exec .nop s = .next s := if_neg (by simp [h])

theorem exec_li (h : s.status.f = false) (rd : Reg) (imm : Half) :
    exec (.li rd imm) s = .next (s.setReg rd (imm.setWidth 32)) :=
  if_neg (by simp [h])

theorem exec_lih (h : s.status.f = false) (rd : Reg) (imm : Half) :
    exec (.lih rd imm) s = .next (s.setReg rd (imm ++ s.halfOf rd)) :=
  if_neg (by simp [h])

theorem exec_mv (h : s.status.f = false) (rd rs1 : Reg) :
    exec (.mv rd rs1) s = .next (s.setReg rd (s.reg rs1)) :=
  if_neg (by simp [h])

theorem exec_csrr (h : s.status.f = false) (rd : Reg) (n : Csr) :
    exec (.csrr rd n) s = .next (s.setReg rd (s.csrRead n)) :=
  if_neg (by simp [h])

theorem exec_pack (h : s.status.f = false) (rd rs1 rs2 rs3 : Reg) :
    exec (.pack rd rs1 rs2 rs3) s = .next (s.writeTriple rd (pack (s.byteOf rs1) (s.byteOf rs2) (s.byteOf rs3))) :=
  if_neg (by simp [h])

theorem exec_chan (h : s.status.f = false) (rd rs1 : Reg) (ch : Chan) :
    exec (.chan rd rs1 ch) s = .next (s.setReg rd ((chan (s.triple rs1) ch).setWidth 32)) :=
  if_neg (by simp [h])

theorem exec_scale (h : s.status.f = false) (w : Width) (rd rs1 rs2 : Reg) :
    exec (.scale w rd rs1 rs2) s =
      .next (s.writeNat rd (scaleN (widthN w) (s.low (widthN w) rs1) (s.low (widthN w) rs2))) :=
  if_neg (by simp [h])

theorem exec_scalev (h : s.status.f = false) (w : Width) (rd rs1 rs2 : Reg) :
    exec (.scalev w rd rs1 rs2) s =
      .next (s.writeNat rd (scaleVideoN (widthN w) (s.low (widthN w) rs1) (s.low (widthN w) rs2))) :=
  if_neg (by simp [h])

theorem exec_qadd (h : s.status.f = false) (w : Width) (rd rs1 rs2 : Reg) :
    exec (.qadd w rd rs1 rs2) s =
      .next (s.writeNat rd (qaddN (widthN w) (s.low (widthN w) rs1) (s.low (widthN w) rs2))) :=
  if_neg (by simp [h])

theorem exec_qsub (h : s.status.f = false) (w : Width) (rd rs1 rs2 : Reg) :
    exec (.qsub w rd rs1 rs2) s = .next (s.writeNat rd (qsubN (s.low (widthN w) rs1) (s.low (widthN w) rs2))) :=
  if_neg (by simp [h])

theorem exec_dimr (h : s.status.f = false) (w : Width) (rd rs1 : Reg) :
    exec (.dimr w rd rs1) s = .next (s.writeNat rd (dimRawN (widthN w) (s.low (widthN w) rs1))) :=
  if_neg (by simp [h])

theorem exec_dimv (h : s.status.f = false) (w : Width) (rd rs1 : Reg) :
    exec (.dimv w rd rs1) s = .next (s.writeNat rd (dimVideoN (widthN w) (s.low (widthN w) rs1))) :=
  if_neg (by simp [h])

theorem exec_diml (h : s.status.f = false) (w : Width) (rd rs1 : Reg) :
    exec (.diml w rd rs1) s = .next (s.writeNat rd (dimLinN (widthN w) (s.low (widthN w) rs1))) :=
  if_neg (by simp [h])

theorem exec_brtr (h : s.status.f = false) (w : Width) (rd rs1 : Reg) :
    exec (.brtr w rd rs1) s = .next (s.writeNat rd (brightenRawN (widthN w) (s.low (widthN w) rs1))) :=
  if_neg (by simp [h])

theorem exec_brtv (h : s.status.f = false) (w : Width) (rd rs1 : Reg) :
    exec (.brtv w rd rs1) s = .next (s.writeNat rd (brightenVideoN (widthN w) (s.low (widthN w) rs1))) :=
  if_neg (by simp [h])

theorem exec_brtl (h : s.status.f = false) (w : Width) (rd rs1 : Reg) :
    exec (.brtl w rd rs1) s = .next (s.writeNat rd (brightenLinN (widthN w) (s.low (widthN w) rs1))) :=
  if_neg (by simp [h])

theorem exec_blend (h : s.status.f = false) (w : Width) (rd rs1 rs2 rs3 : Reg) :
    exec (.blend w rd rs1 rs2 rs3) s =
      .next (s.writeNat rd (blendN (widthN w) (s.low (widthN w) rs1) (s.low (widthN w) rs2) (s.low (widthN w) rs3))) :=
  if_neg (by simp [h])

theorem exec_nscale2 (h : s.status.f = false) (w : Width) (rd rs2 : Reg) :
    exec (.nscale2 w rd rs2) s = .next (nscaleEffect 2 w rd rs2 s) :=
  if_neg (by simp [h])

theorem exec_padd (h : s.status.f = false) (rd rs1 rs2 : Reg) :
    exec (.padd rd rs1 rs2) s = .next (s.writeTriple rd (padd (s.triple rs1) (s.triple rs2))) :=
  if_neg (by simp [h])

theorem exec_psub (h : s.status.f = false) (rd rs1 rs2 : Reg) :
    exec (.psub rd rs1 rs2) s = .next (s.writeTriple rd (psub (s.triple rs1) (s.triple rs2))) :=
  if_neg (by simp [h])

theorem exec_hue2rgb (h : s.status.f = false) (rd rs1 : Reg) :
    exec (.hue2rgb rd rs1) s = .next (s.writeTriple rd (hueRainbow s.config (s.byteOf rs1))) :=
  if_neg (by simp [h])

theorem exec_hsv2rgb (h : s.status.f = false) (rd rs1 : Reg) :
    exec (.hsv2rgb rd rs1) s = .next (s.writeTriple rd (hsvToRgb s.config (s.triple rs1))) :=
  if_neg (by simp [h])

theorem exec_hdist (h : s.status.f = false) (d : Dir) (rd rs1 rs2 : Reg) :
    exec (.hdist d rd rs1 rs2) s = .next (s.setReg rd (BitVec.ofInt 32 (hueDist (s.byteOf rs1) (s.byteOf rs2) d))) :=
  if_neg (by simp [h])

theorem exec_lsetd (h : s.status.f = false) (ch : Chan) (rs1 rs2 : Reg) :
    exec (.lsetd ch rs1 rs2) s = .next ((s.setAcc ch (startAcc (s.byteOf rs1))).setDel ch (s.halfOf rs2)) :=
  if_neg (by simp [h])

theorem exec_lsete (h : s.status.f = false) (ch : Chan) (rs1 rs2 : Reg) :
    exec (.lsete ch rs1 rs2) s =
      .next ((s.setAcc ch (startAcc (s.byteOf rs1))).setDel ch (endDistance (s.byteOf rs1) (s.byteOf rs2))) :=
  if_neg (by simp [h])

theorem exec_ldiv (h : s.status.f = false) (rs1 : Reg) :
    exec (.ldiv rs1) s = .next ((s.setLerp (s.lerp.divide (s.halfOf rs1))).setLx false) :=
  if_neg (by simp [h])

theorem exec_csrw (h : s.status.f = false) {n : Csr} (hn : n.writable = true) (rs1 : Reg) :
    exec (.csrw n rs1) s = .next (s.csrWrite n (s.reg rs1)) := by
  simp [exec, execCsrw, checkedCommand_ok hn, h]

theorem exec_nscale3 (h : s.status.f = false) {w : Width} {rd : Reg} (hr : laneRegOk w rd = true) (rs2 : Reg) :
    exec (.nscale3 w rd rs2) s = .next (nscaleEffect 3 w rd rs2 s) := by
  simp [exec, execNscale3, checkedCommand_ok hr, h]

theorem exec_nscale4 (h : s.status.f = false) {w : Width} {rd : Reg} (hr : laneRegOk w rd = true) (rs2 : Reg) :
    exec (.nscale4 w rd rs2) s = .next (nscaleEffect 4 w rd rs2 s) := by
  simp [exec, execNscale4, checkedCommand_ok hr, h]

theorem exec_hsv2spc (h : s.status.f = false) (rd : Reg) {rs1 : Reg} {c : Pixel}
    (hb : spectrumBad s.config (s.triple rs1) = false) (hc : spectrumValue s.config (s.triple rs1) = some c) :
    exec (.hsv2spc rd rs1) s = .next (s.writeTriple rd c) :=
  execHsv2spc_good h rd rs1 hb hc

theorem exec_lnext_exhausted (h : s.status.f = false) (rd : Reg) (hr : s.lerp.rem = 0) :
    exec (.lnext rd) s = .next (s.setLx true) := by
  simp [exec, execLnext, h, hr]

theorem exec_lnext (h : s.status.f = false) (rd : Reg) (hr : s.lerp.rem ≠ 0) :
    exec (.lnext rd) s =
      .next ((s.writeTriple rd s.lerp.triple).setLerp { s.lerp.advance with rem := s.lerp.rem - 1 }) := by
  simp only [exec, execLnext, command_live h, if_neg hr]

/-! ### Memory commands, with their extent inside the window -/

theorem exec_lfill (h : s.status.f = false) (rs1 : Reg)
    (hw : s.inWindow (s.count rs1) (3 * s.lerp.rem.toNat) = true) :
    exec (.lfill rs1) s = .next (lfillEffect (s.count rs1) s) := by
  rw [exec, execLfill, memoryCommand_inside h rfl hw]

theorem exec_bscale (h : s.status.f = false) (rs1 rs2 rs3 : Reg)
    (hw : s.inWindow (s.count rs1) (s.count rs2) = true) :
    exec (.bscale rs1 rs2 rs3) s =
      .next (s.setMem (batchScale s.config.batchThreshold (s.count rs1) (s.count rs2) (s.low 8 rs3) s.mem)) := by
  rw [exec, execBscale, memoryCommand_inside h rfl hw]

theorem exec_fade (h : s.status.f = false) (rs1 rs2 rs3 : Reg)
    (hw : s.inWindow (s.count rs1) (3 * s.count rs2) = true) :
    exec (.fade rs1 rs2 rs3) s =
      .next (s.setMem
        (batchScale s.config.batchThreshold (s.count rs1) (3 * s.count rs2) (255 - s.low 8 rs3) s.mem)) := by
  rw [exec, execFade, memoryCommand_inside h rfl hw]

theorem exec_blur (h : s.status.f = false) (rs1 rs2 rs3 : Reg)
    (hw : s.inWindow (s.count rs1) (3 * s.count rs2) = true) :
    exec (.blur rs1 rs2 rs3) s = .next (s.setMem (blur (s.count rs1) (s.count rs2) (s.low 8 rs3) s.mem)) := by
  rw [exec, execBlur, memoryCommand_inside h rfl hw]

theorem exec_fill (h : s.status.f = false) (rs1 rs2 rs3 : Reg)
    (hw : s.inWindow (s.count rs1) (3 * s.count rs2) = true) :
    exec (.fill rs1 rs2 rs3) s = .next (s.setMem (fillLoop (s.triple rs3) (s.count rs2) (s.count rs1) s.mem)) := by
  rw [exec, execFill, memoryCommand_inside h rfl hw]

theorem exec_bblend (h : s.status.f = false) (rs1 rs2 rs3 rs4 : Reg)
    (hw : s.inWindow (s.count rs1) (3 * s.count rs2) = true) :
    exec (.bblend rs1 rs2 rs3 rs4) s =
      .next (s.setMem (bblendLoop (s.triple rs3) (s.low 8 rs4) (s.count rs2) (s.count rs1) s.mem)) := by
  rw [exec, execBblend, memoryCommand_inside h rfl hw]

theorem exec_ldp (h : s.status.f = false) (rd rs1 : Reg) (off : Byte)
    (hw : s.inWindow (s.effective rs1 off) 3 = true) :
    exec (.ldp rd rs1 off) s = .next (s.writeTriple rd (s.mem.readPix (s.effective rs1 off))) := by
  rw [exec, execLdp, memoryCommand_inside h rfl hw]

theorem exec_stp (h : s.status.f = false) (rs2 rs1 : Reg) (off : Byte)
    (hw : s.inWindow (s.effective rs1 off) 3 = true) :
    exec (.stp rs2 rs1 off) s = .next (s.setMem (s.mem.writePix (s.effective rs1 off) (s.triple rs2))) := by
  rw [exec, execStp, memoryCommand_inside h rfl hw]

theorem exec_ldb (h : s.status.f = false) (rd rs1 : Reg) (off : Byte)
    (hw : s.inWindow (s.effective rs1 off) 1 = true) :
    exec (.ldb rd rs1 off) s = .next (s.setReg rd ((s.mem.read (s.effective rs1 off)).setWidth 32)) := by
  rw [exec, execLdb, memoryCommand_inside h rfl hw]

theorem exec_stb (h : s.status.f = false) (rs2 rs1 : Reg) (off : Byte)
    (hw : s.inWindow (s.effective rs1 off) 1 = true) :
    exec (.stb rs2 rs1 off) s = .next (s.setMem (s.mem.write (s.effective rs1 off) (s.byteOf rs2))) := by
  rw [exec, execStb, memoryCommand_inside h rfl hw]

end Sys2Proof.Machine
end

