-- ==== Sys2Proof/Laws/PerInstr.lean ====
section
/-! SUPPORT. Statements for all instructions, made per instruction. -/

namespace Sys2Proof.Laws.OpcodeByte

/-- The opcode byte of a command's word is the command's opcode of R64. -/
def Statement (i : Instr) : Prop := fieldOp (encode i) = i.opcode

theorem nop : Statement .nop := fieldOp_wordR ..
theorem li (rd : Reg) (imm : Half) : Statement (.li rd imm) := fieldOp_wordI ..
theorem lih (rd : Reg) (imm : Half) : Statement (.lih rd imm) := fieldOp_wordI ..
theorem mv (rd rs1 : Reg) : Statement (.mv rd rs1) := fieldOp_wordR ..
theorem csrr (rd : Reg) (n : Csr) : Statement (.csrr rd n) := fieldOp_wordI ..
theorem csrw (n : Csr) (rs1 : Reg) : Statement (.csrw n rs1) := fieldOp_wordI ..
theorem pack (rd rs1 rs2 rs3 : Reg) : Statement (.pack rd rs1 rs2 rs3) := fieldOp_wordR ..
theorem chan (rd rs1 : Reg) (ch : Chan) : Statement (.chan rd rs1 ch) := fieldOp_wordR ..
theorem scale (w : Width) (rd rs1 rs2 : Reg) : Statement (.scale w rd rs1 rs2) := fieldOp_wordR ..
theorem scalev (w : Width) (rd rs1 rs2 : Reg) : Statement (.scalev w rd rs1 rs2) := fieldOp_wordR ..
theorem dimr (w : Width) (rd rs1 : Reg) : Statement (.dimr w rd rs1) := fieldOp_wordR ..
theorem dimv (w : Width) (rd rs1 : Reg) : Statement (.dimv w rd rs1) := fieldOp_wordR ..
theorem diml (w : Width) (rd rs1 : Reg) : Statement (.diml w rd rs1) := fieldOp_wordR ..
theorem brtr (w : Width) (rd rs1 : Reg) : Statement (.brtr w rd rs1) := fieldOp_wordR ..
theorem brtv (w : Width) (rd rs1 : Reg) : Statement (.brtv w rd rs1) := fieldOp_wordR ..
theorem brtl (w : Width) (rd rs1 : Reg) : Statement (.brtl w rd rs1) := fieldOp_wordR ..
theorem blend (w : Width) (rd rs1 rs2 rs3 : Reg) : Statement (.blend w rd rs1 rs2 rs3) := fieldOp_wordR ..
theorem nscale2 (w : Width) (rd rs2 : Reg) : Statement (.nscale2 w rd rs2) := fieldOp_wordR ..
theorem nscale3 (w : Width) (rd rs2 : Reg) : Statement (.nscale3 w rd rs2) := fieldOp_wordR ..
theorem nscale4 (w : Width) (rd rs2 : Reg) : Statement (.nscale4 w rd rs2) := fieldOp_wordR ..
theorem qadd (w : Width) (rd rs1 rs2 : Reg) : Statement (.qadd w rd rs1 rs2) := fieldOp_wordR ..
theorem qsub (w : Width) (rd rs1 rs2 : Reg) : Statement (.qsub w rd rs1 rs2) := fieldOp_wordR ..
theorem padd (rd rs1 rs2 : Reg) : Statement (.padd rd rs1 rs2) := fieldOp_wordR ..
theorem psub (rd rs1 rs2 : Reg) : Statement (.psub rd rs1 rs2) := fieldOp_wordR ..
theorem hue2rgb (rd rs1 : Reg) : Statement (.hue2rgb rd rs1) := fieldOp_wordR ..
theorem hsv2rgb (rd rs1 : Reg) : Statement (.hsv2rgb rd rs1) := fieldOp_wordR ..
theorem hsv2spc (rd rs1 : Reg) : Statement (.hsv2spc rd rs1) := fieldOp_wordR ..
theorem hdist (d : Dir) (rd rs1 rs2 : Reg) : Statement (.hdist d rd rs1 rs2) := fieldOp_wordR ..
theorem lsetd (ch : Chan) (rs1 rs2 : Reg) : Statement (.lsetd ch rs1 rs2) := fieldOp_wordR ..
theorem lsete (ch : Chan) (rs1 rs2 : Reg) : Statement (.lsete ch rs1 rs2) := fieldOp_wordR ..
theorem ldiv (rs1 : Reg) : Statement (.ldiv rs1) := fieldOp_wordR ..
theorem lnext (rd : Reg) : Statement (.lnext rd) := fieldOp_wordR ..
theorem lfill (rs1 : Reg) : Statement (.lfill rs1) := fieldOp_wordR ..
theorem bscale (rs1 rs2 rs3 : Reg) : Statement (.bscale rs1 rs2 rs3) := fieldOp_wordR ..
theorem fade (rs1 rs2 rs3 : Reg) : Statement (.fade rs1 rs2 rs3) := fieldOp_wordR ..
theorem blur (rs1 rs2 rs3 : Reg) : Statement (.blur rs1 rs2 rs3) := fieldOp_wordR ..
theorem fill (rs1 rs2 rs3 : Reg) : Statement (.fill rs1 rs2 rs3) := fieldOp_wordR ..
theorem bblend (rs1 rs2 rs3 rs4 : Reg) : Statement (.bblend rs1 rs2 rs3 rs4) := fieldOp_wordR ..
theorem ldp (rd rs1 : Reg) (off : Byte) : Statement (.ldp rd rs1 off) := fieldOp_wordR ..
theorem stp (rs2 rs1 : Reg) (off : Byte) : Statement (.stp rs2 rs1 off) := fieldOp_wordR ..
theorem ldb (rd rs1 : Reg) (off : Byte) : Statement (.ldb rd rs1 off) := fieldOp_wordR ..
theorem stb (rs2 rs1 : Reg) (off : Byte) : Statement (.stb rs2 rs1 off) := fieldOp_wordR ..

end Sys2Proof.Laws.OpcodeByte
end

