-- ==== Sys2Proof/Machine/Sequences.lean ====
section
/-! DEFINITION. What a host writes with the commands: the pseudo-instructions of spec/30_encoding.md R71 and the
sequences of spec/48_host_sequences.md. Only the commands reach the CCU; these are lists of them, and the numbers the
host computes itself. The registers of the gradient and rainbow sequences are the rules' own examples; r10 and r11 are
the model's, for the end triple of R222 (log 21). -/

namespace Sys2Proof.Machine

/-! ### Pseudo-instructions (R71) -/

/-- `LI32 rd, imm32`. -/
def pseudoLi32 (rd : Reg) (v : Word) : List Instr := [.li rd (v.extractLsb' 0 16), .lih rd (v.extractLsb' 16 16)]

/-- `SETWIN ra, rb`. -/
def pseudoSetwin (ra rb : Reg) : List Instr := [.csrw .wbase ra, .csrw .wlimit rb]

/-- `SCALEP rd, rs1, rs2`. -/
def pseudoScalep (rd rs1 rs2 : Reg) : List Instr := [.scale .w8 rd rs1 rs2]

/-- `PSCALE rd, rs2`. -/
def pseudoPscale (rd rs2 : Reg) : List Instr := [.nscale3 .w8 rd rs2]

/-- `CLEAR rs1, rs2, rt`; `rt` is overwritten. -/
def pseudoClear (rs1 rs2 rt : Reg) : List Instr := [.li rt 0, .fill rs1 rs2 rt]

/-- `LSETS ch, rs1`. -/
def pseudoLsets (ch : Chan) (rs1 : Reg) : List Instr := [.csrw (.ldel ch) rs1]

/-- `LCNT rs1`. -/
def pseudoLcnt (rs1 : Reg) : List Instr := [.csrw .lrem rs1]

/-- `LSETA ch, rs1`. -/
def pseudoLseta (ch : Chan) (rs1 : Reg) : List Instr := [.csrw (.lacc ch) rs1]

/-! ### Gradients -/

/-- R223: zero saturation or zero value makes the hue meaningless. -/
def hueDegenerate (p : Pixel) : Bool := chan p .c1 == 0 || chan p .c2 == 0

/-- R223: the hues used for interpolation, the start replaced first. -/
def gradientHues (start stop : Pixel) : Byte × Byte :=
  let h0 := if hueDegenerate start then chan stop .c0 else chan start .c0
  let h1 := if hueDegenerate stop then h0 else chan stop .c0
  (h0, h1)

/-- R221: HSV exclusive fill, with the operands in r1 to r8. -/
def hsvGradient (d : Dir) : List Instr :=
  [.hdist d 9 1 2, .lsetd .c0 1 9, .lsete .c1 3 4, .lsete .c2 5 6, .ldiv 7, .lfill 8]

/-- R224: RGB exclusive fill, with the operands in r1 to r8. -/
def rgbGradient : List Instr :=
  [.lsete .c0 1 2, .lsete .c1 3 4, .lsete .c2 5 6, .ldiv 7, .lfill 8]

/-- A byte of the host into a register. -/
def loadByte (rd : Reg) (b : Byte) : List Instr := [.li rd (b.setWidth 16)]

/-- The operands of R221 and R224: the channels of the endpoints in r1 to r6 (the first channels as given), the count in
r7 and the address in r8. A count is 16 bits: R220 gives no longer fill. -/
def loadGradient (first0 first1 : Byte) (start stop : Pixel) (a : Word) (L : Half) : List Instr :=
  loadByte 1 first0 ++ loadByte 2 first1 ++ loadByte 3 (chan start .c1) ++ loadByte 4 (chan stop .c1) ++
    loadByte 5 (chan start .c2) ++ loadByte 6 (chan stop .c2) ++ [.li 7 L] ++ pseudoLi32 8 a

/-- R221 with R223, R220: the HSV exclusive fill of `L` triples at `a`. -/
def exclusiveHsv (d : Dir) (start stop : Pixel) (a : Word) (L : Half) : List Instr :=
  loadGradient (gradientHues start stop).1 (gradientHues start stop).2 start stop a L ++ hsvGradient d

/-- R224 with R220: the RGB exclusive fill of `L` triples at `a`. -/
def exclusiveRgb (start stop : Pixel) (a : Word) (L : Half) : List Instr :=
  loadGradient (chan start .c0) (chan stop .c0) start stop a L ++ rgbGradient

/-- The address of triple `k` of a buffer at `a` (R220), a number that never wraps (spec/20_memory.md R47). -/
def tripleAddr (a : Word) (k : Nat) : Nat := a.toNat + 3 * k

/-- The base register value for an address: the address, or 2^32 − 1 where it lies above the address space. -/
def addrBase (addr : Nat) : Word := BitVec.ofNat 32 (min addr (2 ^ 32 - 1))

/-- The offset to that base: 0 for an address of the address space. Above it `base + off` is the address, or, where no
offset reaches it, another address above 2^32 − 1; both fault (R211), whatever the window. -/
def addrOff (addr : Nat) : Byte := BitVec.ofNat 8 (min (addr - (2 ^ 32 - 1)) 255)

/-- The host stores the triple `p` at an address, through r10 and r11. -/
def storeTriple (p : Pixel) (addr : Nat) : List Instr :=
  pseudoLi32 10 (p.setWidth 32) ++ pseudoLi32 11 (addrBase addr) ++ [.stp 10 11 (addrOff addr)]

/-- R222: inclusive fill of `L` triples at `a`. Nothing for `L` = 0; else the literal end triple, as given, goes to the
last slot, and `exclusive n`, the exclusive fill of `n` triples at `a` with step count `n`, fills the `L − 1` before. -/
def inclusiveGradient (exclusive : Half → List Instr) (stop : Pixel) (a : Word) (L : Half) : List Instr :=
  if L = 0 then [] else storeTriple stop (tripleAddr a (L.toNat - 1)) ++ exclusive (L - 1)

/-- R222 over R221. -/
def inclusiveHsv (d : Dir) (start stop : Pixel) (a : Word) (L : Half) : List Instr :=
  inclusiveGradient (exclusiveHsv d start stop a) stop a L

/-- R222 over R224. -/
def inclusiveRgb (start stop : Pixel) (a : Word) (L : Half) : List Instr :=
  inclusiveGradient (exclusiveRgb start stop a) stop a L

/-! ### Conversion of a buffer -/

/-- The two conversions of an HSV triple that R229 names: the rainbow path, or the spectrum path, which may fault. -/
def convertTriple (spectrum : Bool) (r : Reg) : Instr := if spectrum then .hsv2spc r r else .hsv2rgb r r

/-- R229: one triple converted in place. -/
def convertPixel (spectrum : Bool) (base tmp : Reg) (off : Byte) : List Instr :=
  [.ldp tmp base off, convertTriple spectrum tmp, .stp tmp base off]

/-- R229: triple `k` of the buffer at `a`, with base register r1 and the triple in r2. One base value serves 86 triples,
at offsets 0, 3, .., 255, so the host loads the base anew at every 86th. (No three bytes at 2^32 − 1 are inside a window:
a base that stands for an address above the address space faults.) -/
def convertNth (spectrum : Bool) (a : Word) (k : Nat) : List Instr :=
  (if k % 86 = 0 then pseudoLi32 1 (addrBase (tripleAddr a k)) else []) ++
    convertPixel spectrum 1 2 (BitVec.ofNat 8 (3 * (k % 86)))

/-- R229: the `L` triples at `a` converted in place, for k from 0 to `L − 1`. -/
def convertBuffer (spectrum : Bool) (a : Word) (L : Nat) : List Instr :=
  (List.range L).flatMap (convertNth spectrum a)

/-- R229: a triple pulled, converted in the register, and stored. -/
def pullConverted (spectrum : Bool) (base tmp : Reg) (off : Byte) : List Instr :=
  [.lnext tmp, convertTriple spectrum tmp, .stp tmp base off]

/-! ### Rainbow fills -/

/-- R226: the six commands that write (hue_k, 255, 255), with the operands in r1, r2, r3, r7, r8. -/
def rainbowTriples : List Instr :=
  [.csrw (.lacc .c0) 1, .csrw (.ldel .c0) 2, .lsete .c1 3 3, .lsete .c2 3 3, .csrw .lrem 7, .lfill 8]

/-- R226: stepped rainbow fill of `L` pixels at `a`: the operands, the six commands, and then the conversion of every
triple to RGB through the rainbow path (R229). -/
def rainbowFill (startHue : Byte) (delta : Half) (a : Word) (L : Half) : List Instr :=
  [.li 1 (startHue ++ 0#8), .li 2 delta] ++ loadByte 3 255 ++ [.li 7 L] ++ pseudoLi32 8 a ++ rainbowTriples ++
    convertBuffer false a L.toNat

/-- R227: the delta of the single-cycle fill of `L ≥ 1` elements. -/
def rainbowCycleDelta (L : Nat) : Half := BitVec.ofNat 16 (65536 / L)

/-- R227: single-cycle rainbow fill; nothing for `L` = 0. -/
def rainbowCycle (startHue : Byte) (a : Word) (L : Half) : List Instr :=
  if L = 0 then [] else rainbowFill startHue (rainbowCycleDelta L.toNat) a L

end Sys2Proof.Machine
end

