-- ==== Sys2Proof/Laws/Sequences.lean ====
section
/-! SUPPORT. The shape of the host procedures: their edge cases, and that every command of them has a word. -/

namespace Sys2Proof.Machine

@[simp] theorem addrBase_toNat (addr : Nat) : (addrBase addr).toNat = min addr (2 ^ 32 - 1) := by
  rw [addrBase, BitVec.toNat_ofNat]
  omega

@[simp] theorem addrOff_toNat (addr : Nat) : (addrOff addr).toNat = min (addr - (2 ^ 32 - 1)) 255 := by
  rw [addrOff, BitVec.toNat_ofNat]
  omega

/-- Base and offset of an address add up to it, as far as an offset reaches. -/
theorem addrBase_add_addrOff {addr : Nat} (h : addr < 2 ^ 32 + 255) :
    (addrBase addr).toNat + (addrOff addr).toNat = addr := by
  rw [addrBase_toNat, addrOff_toNat]
  omega

/-- Above the address space they add up to an address above it, so that the store faults (R211). -/
theorem addrBase_add_addrOff_overflow {addr : Nat} (h : 2 ^ 32 ≤ addr) :
    2 ^ 32 ≤ (addrBase addr).toNat + (addrOff addr).toNat := by
  rw [addrBase_toNat, addrOff_toNat]
  omega

/-- A triple never lies inside a window when its base stands for an address above the address space. -/
theorem addrBase_outside_window (s : State) {addr : Nat} (off : Byte) (h : 2 ^ 32 ≤ addr) :
    s.inWindow ((addrBase addr).toNat + off.toNat) 3 = false := by
  have hw := s.wlimit.isLt
  have hb : (addrBase addr).toNat = 2 ^ 32 - 1 := by rw [addrBase_toNat]; omega
  simp only [State.inWindow, hb]
  simp
  omega

/-- R222: an inclusive fill of no triple is nothing. -/
@[simp] theorem inclusiveGradient_zero (e : Half → List Instr) (stop : Pixel) (a : Word) :
    inclusiveGradient e stop a 0 = [] := rfl

/-- R222: an inclusive fill of one triple stores the end triple and then fills no triple. -/
@[simp] theorem inclusiveGradient_one (e : Half → List Instr) (stop : Pixel) (a : Word) :
    inclusiveGradient e stop a 1 = storeTriple stop a.toNat ++ e 0 := by
  simp [inclusiveGradient, tripleAddr]

/-- R227: a single-cycle fill of no element is nothing. -/
@[simp] theorem rainbowCycle_zero (h : Byte) (a : Word) : rainbowCycle h a 0 = [] := rfl

@[simp] theorem convertBuffer_zero (spectrum : Bool) (a : Word) : convertBuffer spectrum a 0 = [] := rfl

/-- R229: one triple more is converted after the others. -/
theorem convertBuffer_succ (spectrum : Bool) (a : Word) (n : Nat) :
    convertBuffer spectrum a (n + 1) = convertBuffer spectrum a n ++ convertNth spectrum a n := by
  simp [convertBuffer, List.range_succ]

/-- R229: base and offset of triple `k` address its first byte, when the buffer lies in the address space. -/
theorem convertNth_addr (a : Word) (k : Nat) (h : a.toNat + 3 * k < 2 ^ 32) :
    (addrBase (tripleAddr a (k - k % 86))).toNat + (BitVec.ofNat 8 (3 * (k % 86))).toNat = a.toNat + 3 * k := by
  have hk : k % 86 ≤ k := Nat.mod_le k 86
  have hm : k % 86 < 86 := Nat.mod_lt k (by decide)
  rw [addrBase_toNat, BitVec.toNat_ofNat, Nat.mod_eq_of_lt (by omega : 3 * (k % 86) < 2 ^ 8), tripleAddr]
  omega

theorem convertNth_wellFormed (spectrum : Bool) (a : Word) (k : Nat) :
    ∀ i ∈ convertNth spectrum a k, i.wellFormed = true := by
  intro i hi
  have hb : i.wellFormed = true ∨ i ∈ convertPixel spectrum 1 2 (BitVec.ofNat 8 (3 * (k % 86))) := by
    rcases List.mem_append.mp hi with h | h
    · split at h
      · simp only [pseudoLi32, List.mem_cons, List.not_mem_nil, or_false] at h
        rcases h with rfl | rfl <;> exact .inl rfl
      · cases h
    · exact .inr h
  refine hb.elim id fun h => ?_
  simp only [convertPixel, convertTriple, List.mem_cons, List.not_mem_nil, or_false] at h
  cases spectrum <;> rcases h with rfl | rfl | rfl <;> rfl

/-- R229: every command of a conversion has a word. -/
theorem convertBuffer_wellFormed (spectrum : Bool) (a : Word) (L : Nat) :
    ∀ i ∈ convertBuffer spectrum a L, i.wellFormed = true := by
  intro i hi
  obtain ⟨k, _, hk⟩ := List.mem_flatMap.mp hi
  exact convertNth_wellFormed spectrum a k i hk

end Sys2Proof.Machine
end

