-- ==== Sys2Proof/Tests/Slice0.lean ====
section
/-! SUPPORT. Small tests. Every expected word and value is from spec/95_test_vectors.md (its section is named)
or from the rule named; none is the model's own answer. The `witness_` theorems show states and operands that meet the
hypotheses of the statement of that name. -/

namespace Sys2Proof.Tests

open Sys2Proof Sys2Proof.Machine Sys2Proof.Claims

/-! ### Helpers -/

/-- The reset state with some registers set. -/
def regs (l : List (Reg × Word)) : State := l.foldl (fun s p => s.setReg p.1 p.2) State.reset

/-- The state with bytes of memory from address `a` up. -/
def bytes (a : Nat) (l : List Byte) (s : State) : State :=
  s.setMem ((l.zipIdx a).foldl (fun m p => m.write p.2 p.1) s.mem)

/-- The state with the window [lo, hi). -/
def window (lo hi : Word) (s : State) : State := { s with wbase := lo, wlimit := hi }

/-- The state after one command, or `s` where there is none. -/
def after (i : Instr) (s : State) : State :=
  match exec i s with
  | .next t => t
  | .fault _ => s
  | .refused _ => s

/-- `n` bytes of memory from `a` up. -/
def dump (s : State) (a n : Nat) : List Byte := (List.range n).map fun k => s.mem.read (a + k)

/-- A faulted state (R243). -/
def faulted : State := State.reset.raiseFault .illegal 0 0

/-! ### Well-formedness: one ill-formed term for each check (R67 d, e) -/

theorem test_wf_csrw_id : (Instr.csrw .id 1).wellFormed = false := by decide
theorem test_wf_csrw_status : (Instr.csrw .status 1).wellFormed = false := by decide
theorem test_wf_csrw_finfo : (Instr.csrw .finfo 1).wellFormed = false := by decide
theorem test_wf_csrw_fcmd : (Instr.csrw .fcmd 1).wellFormed = false := by decide
theorem test_wf_nscale3_odd : (Instr.nscale3 .w16 3 4).wellFormed = false := by decide
theorem test_wf_nscale4_odd : (Instr.nscale4 .w16 3 4).wellFormed = false := by decide
theorem test_wf_nscale2_odd : (Instr.nscale2 .w16 3 4).wellFormed = true := by decide

/-! ### Decoding: words written out in 95_test_vectors.md sections 2.1 to 2.8 and 3, at least one per command -/

theorem test_decode_move :
    decode 0x01000000 = some .nop ∧ decode 0x023000FF = some (.li 3 0x00FF) ∧
    decode 0x03301234 = some (.lih 3 0x1234) ∧ decode 0x04030000 = some (.mv 0 3) ∧
    decode 0x07B98600 = some (.pack 11 9 8 6) ∧ decode 0x08FD0001 = some (.chan 15 13 .c1) := by decide
theorem test_decode_csr :
    decode 0x05100000 = some (.csrr 1 .id) ∧ decode 0x05100001 = some (.csrr 1 .status) ∧
    decode 0x05200024 = some (.csrr 2 (.ldel .c0)) ∧ decode 0x06030021 = some (.csrw (.lacc .c1) 3) ∧
    decode 0x060B0011 = some (.csrw .wlimit 11) ∧ decode 0x06030028 = some (.csrw .lrem 3) := by decide
theorem test_decode_scale :
    decode 0x10412000 = some (.scale .w8 4 1 2) ∧ decode 0x10312001 = some (.scale .w16 3 1 2) ∧
    decode 0x11533000 = some (.scalev .w8 5 3 3) ∧ decode 0x18412300 = some (.blend .w8 4 1 2 3) ∧
    decode 0x18412301 = some (.blend .w16 4 1 2 3) := by decide
theorem test_decode_unary :
    decode 0x12210001 = some (.dimr .w16 2 1) ∧ decode 0x13210000 = some (.dimv .w8 2 1) ∧
    decode 0x14210000 = some (.diml .w8 2 1) ∧ decode 0x15210000 = some (.brtr .w8 2 1) ∧
    decode 0x16210000 = some (.brtv .w8 2 1) ∧ decode 0x17000001 = some (.brtl .w16 0 0) := by decide
theorem test_decode_nscale :
    decode 0x19102002 = some (.nscale2 .w8 1 2) ∧ decode 0x19304003 = some (.nscale2 .w16 3 4) ∧
    decode 0x19102004 = some (.nscale3 .w8 1 2) ∧ decode 0x19204005 = some (.nscale3 .w16 2 4) ∧
    decode 0x19101006 = some (.nscale4 .w8 1 1) ∧ decode 0x19E00007 = some (.nscale4 .w16 14 0) := by decide
theorem test_decode_saturating :
    decode 0x1A312000 = some (.qadd .w8 3 1 2) ∧ decode 0x1B312001 = some (.qsub .w16 3 1 2) ∧
    decode 0x20312000 = some (.padd 3 1 2) ∧ decode 0x21312000 = some (.psub 3 1 2) := by decide
theorem test_decode_hue :
    decode 0x30210000 = some (.hue2rgb 2 1) ∧ decode 0x31210000 = some (.hsv2rgb 2 1) ∧
    decode 0x32210000 = some (.hsv2spc 2 1) ∧ decode 0x33312000 = some (.hdist .forward 3 1 2) ∧
    decode 0x33312001 = some (.hdist .backwards 3 1 2) ∧ decode 0x33312002 = some (.hdist .shortest 3 1 2) ∧
    decode 0x33312003 = some (.hdist .longest 3 1 2) := by decide
theorem test_decode_lerp :
    decode 0x40012000 = some (.lsetd .c0 1 2) ∧ decode 0x41012002 = some (.lsete .c2 1 2) ∧
    decode 0x42030000 = some (.ldiv 3) ∧ decode 0x43400000 = some (.lnext 4) ∧
    decode 0x44050000 = some (.lfill 5) := by decide
theorem test_decode_buffer :
    decode 0x50012300 = some (.bscale 1 2 3) ∧ decode 0x51012300 = some (.fade 1 2 3) ∧
    decode 0x52012300 = some (.blur 1 2 3) ∧ decode 0x53012300 = some (.fill 1 2 3) ∧
    decode 0x54412300 = some (.bblend 1 2 3 4) ∧ decode 0x54012300 = some (.bblend 1 2 3 0) := by decide
theorem test_decode_load_store :
    decode 0x5831000D = some (.ldp 3 1 13) ∧ decode 0x5901200E = some (.stp 2 1 14) ∧
    decode 0x5A310010 = some (.ldb 3 1 16) ∧ decode 0x5B01200F = some (.stb 2 1 15) := by decide

/-- Section 2.8: illegal words, by reason. -/
theorem test_decode_illegal :
    ([0x00000000, 0xFFFFFFFF, 0x01000001, 0x01100000, 0x02310005, 0x04211000, 0x05100004, 0x05100023, 0x05101001,
      0x06010000, 0x06010001, 0x06110010, 0x07412301, 0x08560003, 0x08560004, 0x09000000, 0x10312100, 0x10312002,
      0x12212000, 0x19102000, 0x19102001, 0x19112002] : List Word).all (fun w => (decode w).isNone) = true := by decide
theorem test_decode_illegal_more :
    ([0x19102008, 0x19304005, 0x19304007, 0x1C312000, 0x20312001, 0x30211000, 0x33312004, 0x40012003, 0x41112000,
      0x42031000, 0x43410000, 0x44050001, 0x50112300, 0x52012301, 0x55012300, 0x58211003, 0x59112003, 0x5B012105,
      0x5C000000] : List Word).all (fun w => (decode w).isNone) = true := by decide

/-! ### Move and system commands (section 2.1) -/

theorem test_nop : exec .nop (regs [(3, 7)]) = .next (regs [(3, 7)]) := by rfl
theorem test_li_zero_extends : (after (.li 3 0xFFFF) (regs [(3, 0x123400FF)])).reg 3 = 0x0000FFFF := by decide
theorem test_lih_keeps_low : (after (.lih 3 0x8000) (regs [(3, 0x0000FFFF)])).reg 3 = 0x8000FFFF := by decide
theorem test_mv_r0 : (after (.mv 0 3) (regs [(3, 0x8000FFFF)])).reg 0 = 0x8000FFFF := by decide
theorem test_csrr_id : (after (.csrr 1 .id) State.reset).reg 1 = 0x43435531 := by decide
theorem test_csrr_ldel_sign_extends :
    (after (.csrr 2 (.ldel .c0)) (after (.csrw (.ldel .c0) 3) (regs [(3, 0x8000FFFF)]))).reg 2 = 0xFFFFFFFF := by decide
theorem test_csrw_lacc_takes_low_half :
    (after (.csrr 2 (.lacc .c1)) (after (.csrw (.lacc .c1) 3) (regs [(3, 0x8000FFFF)]))).reg 2 = 0x0000FFFF := by decide
theorem test_csrw_lrem_clears_lx :
    (after (.csrw .lrem 3) ((regs [(3, 0x8000FFFF)]).setLx true)).csrRead .status = 0 := by decide
theorem test_pack : (after (.pack 4 1 2 3) (regs [(1, 0x11), (2, 0x22), (3, 0x33)])).reg 4 = 0x00112233 := by decide
theorem test_chan : (after (.chan 15 13 .c1) (regs [(13, 0x00FF7C1E)])).reg 15 = 0x7C := by decide

/-! ### Scalar commands (section 2.2) -/

theorem test_scale8_truncates_operands :
    (after (.scale .w8 3 1 2) (regs [(1, 0x1FF), (2, 0xFFFFFF7F)])).reg 3 = 127 := by decide
theorem test_scale16_truncates_operands :
    (after (.scale .w16 3 1 2) (regs [(1, 0x1FF), (2, 0xFFFFFF7F)])).reg 3 = 510 := by decide
theorem test_scalev8 : (after (.scalev .w8 3 1 2) (regs [(1, 200), (2, 100)])).reg 3 = 79 := by decide
theorem test_scalev16 : (after (.scalev .w16 3 1 2) (regs [(1, 32768), (2, 32768)])).reg 3 = 16385 := by decide
theorem test_dimr8 : (after (.dimr .w8 2 1) (regs [(1, 15)])).reg 2 = 0 := by decide
theorem test_dimr16 : (after (.dimr .w16 2 1) (regs [(1, 50000)])).reg 2 = 38147 := by decide
theorem test_dimv8 : (after (.dimv .w8 2 1) (regs [(1, 128)])).reg 2 = 65 := by decide
theorem test_dimv16 : (after (.dimv .w16 2 1) (regs [(1, 1000)])).reg 2 = 16 := by decide
theorem test_diml8_below : (after (.diml .w8 2 1) (regs [(1, 127)])).reg 2 = 64 := by decide
theorem test_diml8_from : (after (.diml .w8 2 1) (regs [(1, 129)])).reg 2 = 65 := by decide
theorem test_brtr8 : (after (.brtr .w8 2 1) (regs [(1, 240)])).reg 2 = 255 := by decide
theorem test_brtr16 : (after (.brtr .w16 2 1) (regs [(1, 255)])).reg 2 = 510 := by decide
theorem test_brtv8 : (after (.brtv .w8 2 1) (regs [(1, 240)])).reg 2 = 254 := by decide
theorem test_brtv16 : (after (.brtv .w16 2 1) (regs [(1, 32768)])).reg 2 = 49151 := by decide
theorem test_brtl8 : (after (.brtl .w8 2 1) (regs [(1, 200)])).reg 2 = 227 := by decide
theorem test_brtl16 : (after (.brtl .w16 2 1) (regs [(1, 50000)])).reg 2 = 57767 := by decide
theorem test_blend8 : (after (.blend .w8 4 1 2 3) (regs [(1, 100), (2, 200), (3, 64)])).reg 4 = 125 := by decide
theorem test_blend16 :
    (after (.blend .w16 4 1 2 3) (regs [(1, 65535), (2, 0), (3, 32767)])).reg 4 = 32768 := by decide
theorem test_nscale2_8 : (after (.nscale2 .w8 1 2) (regs [(1, 0xAABB64C8), (2, 127)])).reg 1 = 0xAABB3264 := by decide
theorem test_nscale2_16 : (after (.nscale2 .w16 1 2) (regs [(1, 0xFFFF8000), (2, 32767)])).reg 1 = 0x7FFF4000 := by
  decide
theorem test_nscale3_8 : (after (.nscale3 .w8 1 2) (regs [(1, 0xEEFF8040), (2, 127)])).reg 1 = 0xEE7F4020 := by decide
theorem test_nscale3_16_keeps_lane3 :
    (after (.nscale3 .w16 2 4) (regs [(2, 0xFFFF8000), (3, 0xABCD4000), (4, 32767)])).reg 3 = 0xABCD2000 := by decide
theorem test_nscale4_8_reads_factor_first :
    (after (.nscale4 .w8 1 1) (regs [(1, 0xFF8040C8)])).reg 1 = 0xC864329D := by decide
theorem test_nscale4_16_high_pair :
    (after (.nscale4 .w16 14 0) (regs [(14, 0x00FF00FF), (15, 0xFFFF0100), (0, 255)])).reg 15 = 0x00FF0001 := by decide

/-! ### Saturating commands (section 2.3) -/

theorem test_qadd8 : (after (.qadd .w8 3 1 2) (regs [(1, 0x180), (2, 0x190)])).reg 3 = 0xFF := by decide
theorem test_qadd16 : (after (.qadd .w16 3 1 2) (regs [(1, 0x180), (2, 0x190)])).reg 3 = 0x310 := by decide
theorem test_qsub8 : (after (.qsub .w8 3 1 2) (regs [(1, 1), (2, 254)])).reg 3 = 0 := by decide
theorem test_qsub16 : (after (.qsub .w16 3 1 2) (regs [(1, 40000), (2, 25536)])).reg 3 = 14464 := by decide
theorem test_padd : (after (.padd 3 1 2) (regs [(1, 0xAAF01080), (2, 0x201090)])).reg 3 = 0xFF20FF := by decide
theorem test_psub : (after (.psub 3 1 2) (regs [(1, 0x010203), (2, 0x030201)])).reg 3 = 0x000002 := by decide

/-! ### Hue commands (section 2.6) -/

theorem test_hue2rgb : (after (.hue2rgb 2 1) (regs [(1, 0xAB000048)])).reg 2 = 0x81BF00 := by decide
theorem test_hsv2rgb : (after (.hsv2rgb 2 1) (regs [(1, 0xABC86432)])).reg 2 = 0x201225 := by decide
theorem test_hsv2rgb_grey : (after (.hsv2rgb 2 1) (regs [(1, 0x1200C8)])).reg 2 = 0xC8C8C8 := by decide
theorem test_hsv2spc : (after (.hsv2spc 2 1) (regs [(1, 0x64C896)])).reg 2 = 0x205162 := by decide
theorem test_hsv2spc_fault :
    after (.hsv2spc 2 1) (regs [(1, 0x40FFC0)]) =
      faultRecord (regs [(1, 0x40FFC0)]) 3 0x40FFC0 0x32210000 := by decide
theorem test_hdist_longest : (after (.hdist .longest 3 1 2) (regs [(1, 250), (2, 5)])).reg 3 = -31360 := by decide
theorem test_hdist_half_turn :
    (after (.hdist .shortest 3 1 2) (regs [(1, 0x100), (2, 128)])).reg 3 = -16384 := by decide

/-! ### The accumulator (section 2.5) -/

/-- A state with an accumulator. -/
def lerpState (acc del rem : Half) (s : State) : State :=
  s.setLerp { acc := { c0 := acc, c1 := acc, c2 := acc }, del := { c0 := del, c1 := del, c2 := del }, rem := rem }

theorem test_lsetd : (after (.lsetd .c0 1 2) (regs [(1, 250), (2, 0xFFFFB200)])).lerp.acc.c0 = 0xFA00 ∧
    (after (.lsetd .c0 1 2) (regs [(1, 250), (2, 0xFFFFB200)])).lerp.del.c0 = 0xB200 := by decide
theorem test_lsete : (after (.lsete .c2 1 2) (regs [(1, 0x1FF), (2, 0x300)])).lerp.acc.c2 = 0xFF00 ∧
    (after (.lsete .c2 1 2) (regs [(1, 0x1FF), (2, 0x300)])).lerp.del.c2 = 0x8080 := by decide
theorem test_ldiv_toward_zero :
    (after (.ldiv 3) (lerpState 0 0xCE00 0 (regs [(3, 3)]))).lerp.del.c0 = 0xDEAC := by decide
theorem test_ldiv_wraps : (after (.ldiv 3) (lerpState 0 0x8080 0 (regs [(3, 0x10001)]))).lerp.del.c1 = 0x0100 := by
  decide
theorem test_lnext : (after (.lnext 4) (lerpState 0x1400 0x0A00 1 State.reset)).reg 4 = 0x141414 ∧
    (after (.lnext 4) (lerpState 0x1400 0x0A00 1 State.reset)).lerp.acc.c0 = 0x1E00 := by decide
theorem test_lnext_exhausted :
    after (.lnext 4) (lerpState 0x1E00 0x0A00 0 (regs [(4, 0xDEADBEEF)])) =
      (lerpState 0x1E00 0x0A00 0 (regs [(4, 0xDEADBEEF)])).setLx true := by decide
theorem test_lfill :
    dump (after (.lfill 5) (window 0x1000 0x1006 (lerpState 0x1400 0x0A00 2 (regs [(5, 0x1000)])))) 0x1000 6 =
      [0x14, 0x14, 0x14, 0x1E, 0x1E, 0x1E] := by decide
theorem test_lfill_fault :
    after (.lfill 5) (window 0x1000 0x100E (lerpState 0 0x1400 5 (regs [(5, 0x1000)]))) =
      faultRecord (window 0x1000 0x100E (lerpState 0 0x1400 5 (regs [(5, 0x1000)]))) 2 0x1000 0x44050000 := by decide

/-! ### Buffer commands (sections 2.4 and 2.7) -/

theorem test_lanes : lanes 0xFF804020 128 = 0x7F402010 := by decide
theorem test_bscale :
    dump (after (.bscale 1 2 3) (window 0x1000 0x1100 (bytes 0x1001 [0xEE, 0, 1, 2, 0x7F, 0x80, 0xC8, 0xFE, 0xFF, 0x64,
      0x32, 3, 0x4D, 0xFF, 0xDD] (regs [(1, 0x1002), (2, 13), (3, 0xABCDEF63)])))) 0x1001 15 =
      [0xEE, 0, 0, 0, 0x31, 0x32, 0x4E, 0x63, 0x63, 0x27, 0x13, 1, 0x1E, 0x63, 0xDD] := by decide
theorem test_fade :
    dump (after (.fade 1 2 3) (window 0x1000 0x1100 (bytes 0x1001 [0xFF, 0x80, 0x40, 0x0A, 0x0B, 0x0C, 1, 2, 3, 0xFF,
      0xFF, 0xFF] (regs [(1, 0x1001), (2, 4), (3, 64)])))) 0x1001 12 =
      [0xBF, 0x60, 0x30, 7, 8, 9, 0, 1, 2, 0xBF, 0xBF, 0xBF] := by decide
theorem test_blur :
    dump (after (.blur 1 2 3) (window 0x1000 0x1100 (bytes 0x1003 [0xFF, 0xFF, 0xFF]
      (regs [(1, 0x1000), (2, 3), (3, 128)])))) 0x1000 9 =
      [0x40, 0x40, 0x40, 0xBF, 0xBF, 0xBF, 0, 0, 0] := by decide +kernel
theorem test_blur_first_pixel :
    dump (after (.blur 1 2 3) (window 0x1000 0x1100 (bytes 0x1000 [0xFF, 0xFF, 0xFF]
      (regs [(1, 0x1000), (2, 3), (3, 128)])))) 0x1000 9 =
      [0x7F, 0x7F, 0x7F, 0, 0, 0, 0, 0, 0] := by decide +kernel
theorem test_fill :
    dump (after (.fill 1 2 3) (window 0x1000 0x1100 (regs [(1, 0x1001), (2, 3), (3, 0xFF112233)]))) 0x1000 11 =
      [0, 0x11, 0x22, 0x33, 0x11, 0x22, 0x33, 0x11, 0x22, 0x33, 0] := by decide
theorem test_bblend :
    dump (after (.bblend 1 2 3 4) (window 0x1000 0x1100 (bytes 0x1000 [0xFF, 0x80, 0, 0x10, 0x20, 0x30, 0, 0, 0, 0xFF,
      0xFF, 0xFF] (regs [(1, 0x1000), (2, 4), (3, 0xFF), (4, 64)])))) 0x1000 12 =
      [0xBE, 0x5F, 0x3F, 0x0B, 0x17, 0x63, 0, 0, 0x3F, 0xBE, 0xBE, 0xFE] := by decide

/-- The state of the load and store rows of section 2.7. -/
def loadState : State :=
  window 0x1000 0x1010 (bytes 0x1000 [0, 0x11, 0x22, 0x33, 0x44, 0x55, 0x66, 0x77, 0x88, 0x99, 0xAA, 0xBB, 0xCC, 0xDD,
    0xEE, 0xFF] (regs [(1, 0x1000), (2, 0xA1B2C3D4), (6, 0xFFFFFFF0)]))

theorem test_ldp : (after (.ldp 3 1 13) loadState).reg 3 = 0x00DDEEFF := by decide
theorem test_ldp_fault : after (.ldp 3 1 14) loadState = faultRecord loadState 2 0x100E 0x5831000E := by decide
theorem test_stp : dump (after (.stp 2 1 5) loadState) 0x1004 5 = [0x44, 0xB2, 0xC3, 0xD4, 0x88] := by decide
theorem test_stp_fault : after (.stp 2 1 14) loadState = faultRecord loadState 2 0x100E 0x5901200E := by decide
theorem test_ldb : (after (.ldb 3 1 15) loadState).reg 3 = 0xFF := by decide
theorem test_ldb_overflow : after (.ldb 3 6 32) loadState = faultRecord loadState 2 0x10 0x5A360020 := by decide
theorem test_stb : dump (after (.stb 2 1 15) loadState) 0x100E 2 = [0xEE, 0xD4] := by decide
theorem test_stb_fault : after (.stb 2 1 16) loadState = faultRecord loadState 2 0x1010 0x5B012010 := by decide

/-- Section 2.4: head 1, words 2, tail 0. -/
theorem test_batch_steps :
    batchSteps 8 0x1003 9 = [.byte 0x1003, .word 0x1004, .word 0x1008] := by decide

/-! ### The step (section 2.8) -/

/-- The state after one step, or `s` where there is none. -/
def stepped (s : State) : State :=
  match step s with
  | .next t => t
  | .fault _ => s
  | .refused _ => s

theorem test_step_illegal :
    stepped ((regs [(1, 0x1000), (2, 4)]).present [0x50012301]) =
      faultRecord (regs [(1, 0x1000), (2, 4)]) 1 0 0x50012301 := by decide
theorem test_step_empty_extent :
    (stepped ((regs [(1, 0x1000)]).present [0x50012300])).csrRead .status = 0 := by decide
theorem test_step_fetch_word :
    stepped ((regs [(1, 9)]).withFetchWord 32 0x04010000) = (regs [(1, 9)]).setReg 0 9 := by decide

/-- The words of R221 as program P1 of section 3 has them. -/
theorem test_sequence :
    (hsvGradient .shortest).map encode =
      [0x33912002, 0x40019000, 0x41034001, 0x41056002, 0x42070000, encode (.lfill 8)] := by decide

/-- R230: the inclusive gradient's end triple goes to 0x100C, and four triples are filled before it. -/
theorem test_inclusive_gradient :
    (inclusiveHsv .shortest 0x006432 0x64C864 0x1000 5).take 5 =
      [.li 10 0xC864, .lih 10 0x64, .li 11 0x100C, .lih 11 0, .stp 10 11 0] ∧
    Instr.li 7 4 ∈ inclusiveHsv .shortest 0x006432 0x64C864 0x1000 5 ∧
    inclusiveHsv .shortest 0x006432 0x64C864 0x1000 0 = [] := by decide +kernel

/-- R222 with R211: an end triple above the address space is stored at base + offset above it, which faults. -/
theorem test_inclusive_overflow :
    (inclusiveRgb 0 0xFFFFFF 0xFFFFFFFE 2).take 5 =
      [.li 10 0xFFFF, .lih 10 0xFF, .li 11 0xFFFF, .lih 11 0xFFFF, .stp 10 11 2] := by decide +kernel

/-- R229: the last triple that one base register value serves, and the next. -/
theorem test_conversion :
    convertNth false 0x1000 85 = [.ldp 2 1 255, .hsv2rgb 2 2, .stp 2 1 255] ∧
    convertNth true 0x1000 86 = [.li 1 0x1102, .lih 1 0, .ldp 2 1 0, .hsv2spc 2 2, .stp 2 1 0] := by decide +kernel

/-- R181 constraints 2 and 3: a mapping that is black but for one hue is no configured mapping. -/
theorem test_rainbow_constraints :
    rainbowConstraints (.table ((Vector.replicate 256 0).set 5 0xFF0000)) .builtin = false := by
  decide +kernel

/-! ### Witnesses of hypotheses -/

/-- A live state with three words at the port, the first a command and the second not. -/
def busy : State := State.reset.present [0x023000FF, 0x00000000]

theorem witness_StepRunsDecodedCommand :
    busy.inputs = .command 0x023000FF :: [.command 0x00000000] ∧ decode 0x023000FF = some (.li 3 0xFF) ∧
    (State.reset.present [0]).inputs = .command 0 :: [] ∧ decode 0 = none := by decide
theorem witness_DecodeEncodeRoundTrip :
    (Instr.csrw .wbase 15).wellFormed = true ∧ (Instr.nscale4 .w16 14 0).wellFormed = true := by decide
theorem witness_EncodeDecodeUnique : decode 0x5B0120FF = some (.stb 2 1 255) := by decide
theorem witness_IllegalWordRecordsFault :
    (State.reset.present [0x06010000]).live ∧
    (State.reset.present [0x06010000]).inputs = .command 0x06010000 :: [] ∧
    decode 0x06010000 = none := by decide
theorem witness_FaultedStateIgnoresEveryWord :
    faulted.status.f = true ∧ (faulted.present [0]).inputs = .command 0 :: [] ∧
    ({ faulted with inputs := [.reset] } : State).inputs = .reset :: [] ∧
    step ({ faulted with inputs := [.reset] } : State) = .next State.reset :=
  ⟨rfl, rfl, rfl, rfl⟩
theorem witness_WordsAfterFaultHaveNoEffect : faulted.status.f = true ∧ faulted.inputs = [] := by decide
theorem witness_ResetInputGivesResetState :
    ({ faulted with inputs := [.reset, .command 0] } : State).inputs = .reset :: [.command 0] := by rfl
theorem witness_HostActionsBetweenCommands :
    State.reset.inputs = [] ∧
    ({ State.reset with inputs := [.writeByte 0xFFFFFFFF 7] } : State).inputs = .writeByte 0xFFFFFFFF 7 :: [] := by
  decide

/-- A live state about to raise `ACCESS`, with a byte in memory. -/
def aboutToFault : State := (bytes 9 [7] (regs [(1, 0x1000), (2, 4)])).present [0x50012300]

theorem witness_StepKeepsInvariant :
    aboutToFault.Inv ∧ step aboutToFault = .next (stepped aboutToFault) ∧
    (stepped aboutToFault).csrRead .status = 0x21 := ⟨by unfold State.Inv; decide, by rfl, by decide⟩
theorem witness_StatusAgreesWithFaultCode : State.reset.Inv ∧ (stepped aboutToFault).Inv := by
  unfold State.Inv; decide

/-- A configuration whose `SPECTRUM` is total. -/
def flatConfig : Config := { Config.standard with spectrum := .given 0 [], lawful := by decide +kernel }

theorem witness_EveryCommandAnswersNextState : spectrumTotal flatConfig := fun _ _ => rfl
theorem witness_OnlyTwoCausesAfterDecoding :
    (Instr.ldp 3 1 14).wellFormed = true ∧ loadState.live ∧
    exec (.ldp 3 1 14) loadState = .next (after (.ldp 3 1 14) loadState) ∧
    (after (.ldp 3 1 14) loadState).status.f = true ∧
    (after (.hsv2spc 2 1) (regs [(1, 0x0000C0)])).status.f = true := ⟨rfl, rfl, by rfl, by decide, by decide⟩
theorem witness_FaultChangesNothingElse :
    loadState.live ∧ exec (.stb 2 1 16) loadState = .next (after (.stb 2 1 16) loadState) ∧
    (after (.stb 2 1 16) loadState).status.f = true := ⟨rfl, by rfl, by decide⟩
theorem witness_OnlyTenCommandsAccessMemory :
    extentOf loadState (.lnext 3) = none ∧ exec (.lnext 3) loadState = .next (after (.lnext 3) loadState) :=
  ⟨rfl, by rfl⟩

/-- One byte too far, one byte too low, and past the top of the address space. -/
theorem witness_ExtentOutsideWindowFaults :
    loadState.live ∧ extentOf loadState (.ldb 3 1 16) = some (0x1010, 1) ∧ ¬ inside loadState 0x1010 1 ∧
    extentOf (window 0x1001 0x1010 loadState) (.ldp 3 1 0) = some (0x1000, 3) ∧
    ¬ inside (window 0x1001 0x1010 loadState) 0x1000 3 ∧
    extentOf (window 0 0xFFFFFFFF loadState) (.ldp 3 6 15) = some (0xFFFFFFFF, 3) ∧
    ¬ inside (window 0 0xFFFFFFFF loadState) 0xFFFFFFFF 3 := by unfold inside; decide
theorem witness_EmptyExtentIsNoOp :
    extentOf State.reset (.bscale 1 2 3) = some (0, 0) ∧ extentOf loadState (.lfill 6) = some (0xFFFFFFF0, 0) := by
  decide
theorem witness_EffectiveAddressOverflowFaults :
    loadState.live ∧ 2 ^ 32 ≤ (loadState.reg 6).toNat + (0x10 : Byte).toNat ∧
    (loadState.reg 6).toNat + (0x10 : Byte).toNat = 2 ^ 32 ∧
    Instr.stp 2 6 0x10 ∈ [Instr.ldp 2 6 0x10, .stp 2 6 0x10, .ldb 2 6 0x10, .stb 2 6 0x10] := by decide

/-- Other contents below the window, the same inside it, and a store at its last byte. -/
theorem witness_WindowIsolatesMemory :
    (∀ a, (window 0x1000 0x1010 State.reset).wbase.toNat ≤ a →
      a < (window 0x1000 0x1010 State.reset).wlimit.toNat →
      Memory.read [(0xFFF, 1)] a = (window 0x1000 0x1010 State.reset).mem.read a) ∧
    exec (.stb 2 1 15) (window 0x1000 0x1010 (regs [(1, 0x1000)])) =
      .next (after (.stb 2 1 15) (window 0x1000 0x1010 (regs [(1, 0x1000)]))) := by
  refine ⟨fun a h _ => ?_, rfl⟩
  have h : 0x1000 ≤ a := h
  exact if_neg (by omega)
theorem witness_AccessesAlignedInsideWindow :
    ({ kind := .write, addr := 0x1004, width := 4 } : Access) ∈
      accesses (.bscale 1 2 3) (window 0x1003 0x100C (regs [(1, 0x1003), (2, 9)])) := by decide
theorem witness_ChangedBytesAreWritten :
    exec (.stb 2 1 15) loadState = .next (after (.stb 2 1 15) loadState) ∧
    (after (.stb 2 1 15) loadState).mem.read 0x100F ≠ loadState.mem.read 0x100F := ⟨by rfl, by decide⟩
theorem witness_OnlyLerpCommandsTouchAccumulator :
    touchesLerp (.csrw .wbase 1) = false ∧
    exec (.csrw .wbase 1) loadState = .next (after (.csrw .wbase 1) loadState) := ⟨rfl, by rfl⟩

/-- Statements whose one hypothesis is a live state. -/
theorem witness_MoveCommands : State.reset.live := rfl
theorem witness_CsrrReadsEveryRegister : loadState.live := rfl
theorem witness_CsrwWritesEveryRegister : loadState.live ∧ Csr.lrem.writable = true := by decide
theorem witness_IllFormedCommandsAreIllegal :
    loadState.live ∧ Csr.fcmd.writable = false ∧ (15 : Reg).val % 2 = 1 := by decide
theorem witness_PackAndChan : loadState.live := rfl
theorem witness_ScaleCommands : loadState.live := rfl
theorem witness_DimCommands : loadState.live := rfl
theorem witness_BrightenCommands : loadState.live := rfl
theorem witness_BlendCommand : loadState.live := rfl
theorem witness_ScalarLaws :
    255 < 2 ^ bitsN .w8 ∧ 0 < 2 ^ bitsN .w8 ∧ 65535 < 2 ^ bitsN .w16 ∧ 128 < 2 ^ bitsN .w8 := by decide
theorem witness_ScalarFunctionsMonotone :
    127 ≤ 128 ∧ 128 < 2 ^ bitsN .w8 ∧ 0 ≤ 255 ∧ 255 < 2 ^ bitsN .w8 ∧ 77 < 2 ^ bitsN .w8 := by decide
theorem witness_NscaleByteLanes : loadState.live := rfl
theorem witness_NscaleHalfLanes :
    loadState.live ∧ (14 : Reg).val % 2 = 0 ∧ (15 : Reg).val = (14 : Reg).val + 1 := by
  decide
theorem witness_SaturatingScalarCommands : loadState.live := rfl
theorem witness_SaturatingPixelCommands : loadState.live := rfl
theorem witness_HueToRgbCommand : State.reset.live ∧ Config.standard.hue = .builtin := by decide
theorem witness_DefaultRainbowIsLawful :
    (0 : Byte).toNat ≤ (31 : Byte).toNat ∧ (31 : Byte).toNat < 32 ∧ 32 ≤ (32 : Byte).toNat ∧
    (32 : Byte).toNat ≤ (63 : Byte).toNat ∧ (63 : Byte).toNat < 64 := by decide
theorem witness_HsvToRgbCommand :
    (regs [(1, 0x1200C8)]).live ∧ chanNat (low (regs [(1, 0x1200C8)]) 1 24) 2 ≠ 0 ∧
    chanNat (low (regs [(1, 0x1200C8)]) 1 24) 1 = 0 ∧ chanNat (low (regs [(1, 0x7FFF00)]) 1 24) 2 = 0 := by decide

/-- A configuration that U3 refuses: hues above 191 are admitted and the default has no value there. -/
def valueOnly : Config := { Config.standard with spectrumPre := .value }

/-- Value 192 violates; value 191 with hue 191 does not; with the value-only precondition hue 192 has no value. -/
theorem witness_SpectrumCommand :
    (regs [(1, 0x0000C0)]).live ∧ violates Config.standard 0 192 ∧ ¬ violates Config.standard 191 191 ∧
    spectrumValue Config.standard 0xBFFFBF = some 0xBC0000 ∧ ¬ violates valueOnly 192 191 ∧
    spectrumValue valueOnly 0xC0FFBF = none := by unfold violates; decide
theorem witness_DefaultSpectrumFormula :
    Config.standard.spectrum = .builtin ∧ chanNat (0xBFFFBF : Pixel).toNat 0 ≤ 191 := by decide
theorem witness_HueDistanceCommand : loadState.live := rfl
theorem witness_HueDistanceRanges : (0 : Byte) ≠ 128 := by decide
theorem witness_LerpConstruction : loadState.live := rfl
theorem witness_LerpDivide : loadState.live := rfl
theorem witness_LerpNext :
    (lerpState 0 0 0 State.reset).live ∧ (lerpState 0 0 0 State.reset).lerp.rem.toNat = 0 ∧
    (lerpState 0 0 1 State.reset).live ∧ (lerpState 0 0 1 State.reset).lerp.rem.toNat ≠ 0 := by decide

/-- An extent that fills the window exactly, and an empty one outside it. -/
theorem witness_LerpFillClosedForm :
    (window 0x1000 0x100F (lerpState 0 0 5 State.reset)).live ∧
    inside (window 0x1000 0x100F (lerpState 0 0 5 State.reset)) 0x1000 (3 * 5) ∧
    inside (lerpState 0 0 0 State.reset) 0x1000 (3 * 0) := by unfold inside; decide
theorem witness_LanesScaleEachByte : 1 ≤ 256 ∧ 256 ≤ 256 ∧ 3 < 4 := by decide
theorem witness_BatchScaleIsPerByteMap : 255 ≤ 255 := by decide
theorem witness_BatchCommands :
    loadState.live ∧ inside loadState 0x1000 16 ∧ inside loadState 0x1001 (3 * 5) ∧ inside loadState 0 0 := by
  unfold inside; decide
theorem witness_BlurClosedForm : loadState.live ∧ inside loadState 0x1001 (3 * 5) ∧ inside loadState 0 (3 * 0) := by
  unfold inside; decide
theorem witness_FillCommand : loadState.live ∧ inside loadState 0x1001 (3 * 5) ∧ inside loadState 0 (3 * 0) := by
  unfold inside; decide
theorem witness_BufferBlendCommand :
    loadState.live ∧ inside loadState 0x1001 (3 * 5) ∧ inside loadState 0 (3 * 0) := by
  unfold inside; decide
theorem witness_LoadCommands :
    loadState.live ∧ loadState.wbase.toNat ≤ (loadState.reg 1).toNat + (13 : Byte).toNat ∧
    (loadState.reg 1).toNat + (13 : Byte).toNat + 3 ≤ loadState.wlimit.toNat ∧
    (loadState.reg 1).toNat + (15 : Byte).toNat + 1 ≤ loadState.wlimit.toNat := by decide
theorem witness_StoreCommands :
    loadState.live ∧ loadState.wbase.toNat ≤ (loadState.reg 1).toNat + (0 : Byte).toNat ∧
    (loadState.reg 1).toNat + (13 : Byte).toNat + 3 ≤ loadState.wlimit.toNat ∧
    (loadState.reg 1).toNat + (15 : Byte).toNat + 1 ≤ loadState.wlimit.toNat := by decide
theorem witness_WordAccessIsLittleEndian : 3 < 4 ∧ ¬ (0x1000 ≤ 0x1004 ∧ 0x1004 < 0x1000 + 4) := by decide

end Sys2Proof.Tests
end

section
/-! PROOFS of the statements about spec/20_memory.md. An empty extent (R56) is inside every window, and each loop over a
buffer of no pixel or byte answers the memory it was given. -/

namespace Sys2Proof.Machine

/-! ### Loops over nothing -/

@[simp] theorem State.setMem_self (s : State) : s.setMem s.mem = s := rfl

@[simp] theorem State.inWindow_zero (s : State) (a : Nat) : s.inWindow a 0 = true :=
  (s.inWindow_iff a 0).2 (.inl rfl)

@[simp] theorem batchSteps_zero (threshold a : Nat) : batchSteps threshold a 0 = [] := if_pos rfl

@[simp] theorem batchScale_zero (threshold a f : Nat) (m : Memory) : batchScale threshold a 0 f m = m := by
  rw [batchScale, batchSteps_zero, List.foldl_nil]

@[simp] theorem blur_zero (a amount : Nat) (m : Memory) : blur a 0 amount m = m := rfl

@[simp] theorem fillLoop_zero (p : Pixel) (a : Nat) (m : Memory) : fillLoop p 0 a m = m := rfl

@[simp] theorem bblendLoop_zero (o : Pixel) (amt a : Nat) (m : Memory) : bblendLoop o amt 0 a m = m := rfl

@[simp] theorem pixelLoop_zero (per : Nat → Nat → List Access) (a : Nat) : pixelLoop per 0 a = [] := rfl

/-- With no triple left, `LFILL` keeps the accumulator too: the count it clears is 0 already. -/
theorem lfillEffect_of_rem_eq_zero {s : State} (h : s.lerp.rem = 0) (a : Nat) : lfillEffect a s = s := by
  have hloop : lfillLoop s.lerp.rem.toNat a s.lerp s.mem = (s.lerp, s.mem) := by rw [h]; rfl
  have hrem : { s.lerp with rem := 0 } = s.lerp := by rw [← h]
  rw [lfillEffect, hloop, hrem]
  rfl

/-! ### Commands with an empty extent -/

/-- The six commands that have a count, with the count 0 at `s`. -/
inductive CountIsZero (s : State) : Instr → Prop where
  | bscale (rs1 rs2 rs3 : Reg) (h : s.count rs2 = 0) : CountIsZero s (.bscale rs1 rs2 rs3)
  | fade (rs1 rs2 rs3 : Reg) (h : s.count rs2 = 0) : CountIsZero s (.fade rs1 rs2 rs3)
  | lfill (rs1 : Reg) (h : s.lerp.rem = 0) : CountIsZero s (.lfill rs1)
  | blur (rs1 rs2 rs3 : Reg) (h : s.count rs2 = 0) : CountIsZero s (.blur rs1 rs2 rs3)
  | fill (rs1 rs2 rs3 : Reg) (h : s.count rs2 = 0) : CountIsZero s (.fill rs1 rs2 rs3)
  | bblend (rs1 rs2 rs3 rs4 : Reg) (h : s.count rs2 = 0) : CountIsZero s (.bblend rs1 rs2 rs3 rs4)

/-- The single pixel and byte accesses have 3 bytes or 1, never none. -/
theorem countIsZero_of_extentOf {s : State} {i : Instr} {a : Nat} (he : extentOf s i = some (a, 0)) :
    CountIsZero s i := by
  cases i <;> simp only [extentOf, Option.some.injEq, Prod.mk.injEq, reduceCtorEq] at he <;> obtain ⟨-, hn⟩ := he
  case bscale rs1 rs2 rs3 => exact .bscale rs1 rs2 rs3 hn
  case fade rs1 rs2 rs3 => exact .fade rs1 rs2 rs3 (by omega)
  case lfill rs1 => exact .lfill rs1 (BitVec.eq_of_toNat_eq (by simpa using hn))
  case blur rs1 rs2 rs3 => exact .blur rs1 rs2 rs3 (by omega)
  case fill rs1 rs2 rs3 => exact .fill rs1 rs2 rs3 (by omega)
  case bblend rs1 rs2 rs3 rs4 => exact .bblend rs1 rs2 rs3 rs4 (by omega)
  all_goals contradiction

theorem exec_of_countIsZero {s : State} {i : Instr} (hf : s.status.f = false) (hz : CountIsZero s i) :
    exec i s = .next s := by
  cases hz with
  | bscale rs1 rs2 rs3 h => rw [exec_bscale hf _ _ _ (by simp [h]), h, batchScale_zero, State.setMem_self]
  | fade rs1 rs2 rs3 h => rw [exec_fade hf _ _ _ (by simp [h]), h, batchScale_zero, State.setMem_self]
  | lfill rs1 h => rw [exec_lfill hf _ (by simp [h]), lfillEffect_of_rem_eq_zero h]
  | blur rs1 rs2 rs3 h => rw [exec_blur hf _ _ _ (by simp [h]), h, blur_zero, State.setMem_self]
  | fill rs1 rs2 rs3 h => rw [exec_fill hf _ _ _ (by simp [h]), h, fillLoop_zero, State.setMem_self]
  | bblend rs1 rs2 rs3 rs4 h =>
    rw [exec_bblend hf _ _ _ _ (by simp [h]), h, bblendLoop_zero, State.setMem_self]

theorem effectAccesses_of_countIsZero {s : State} {i : Instr} (hz : CountIsZero s i) : effectAccesses s i = [] := by
  cases hz <;> simp [effectAccesses, *]

theorem accesses_of_effectAccesses_nil {s : State} {i : Instr} (h : effectAccesses s i = []) :
    accesses i s = [] := by
  unfold accesses
  split
  · rfl
  · split
    · rfl
    · rw [h, ite_self]

/-- Settles O19: an empty extent is a count of 0, and with it every loop of the command ends before its first access. -/
theorem emptyExtentIsNoOp : Obligations.EmptyExtentIsNoOp := by
  intro i s a he
  have hz := countIsZero_of_extentOf he
  refine ⟨?_, accesses_of_effectAccesses_nil (effectAccesses_of_countIsZero hz)⟩
  cases hf : s.status.f with
  | true => exact exec_faulted hf i
  | false => exact exec_of_countIsZero hf hz

end Sys2Proof.Machine
end

section
/-! PROOFS of the statements about spec/41_scalar_fixed_point.md, and before them, for the statements of every family,
that a command is spelled by its encoding and by no other word. Every scalar command is one register write, and its
result fits the register because no function of R100 to R106 leaves the range of its operands. The functions that the
statements write out in `Sys2Proof.Claims` (`low`, `scaleFn`, `videoFn`, `linFn`) unfold to the model's own. -/

namespace Sys2Proof

/-! ### The decoder answers a command on its encoding only (R66, R68) -/

theorem eq_ofNat_of_toNat_eq {n k : Nat} {x : BitVec n} (h : x.toNat = k) : x = BitVec.ofNat n k := by
  rw [← h, BitVec.ofNat_toNat, BitVec.setWidth_eq]

theorem widthOf_eq_some_iff {fn : Byte} {v : Width} : widthOf fn = some v ↔ fn = widthBits v :=
  ⟨fun h => (widthBits_of_widthOf h).symm, fun h => by rw [h, widthOf_widthBits]⟩

theorem chanOf_eq_some_iff {fn : Byte} {c : Chan} : chanOf fn = some c ↔ fn = chanBits c :=
  ⟨fun h => (chanBits_of_chanOf h).symm, fun h => by rw [h, chanOf_chanBits]⟩

theorem dirOf_eq_some_iff {fn : Byte} {d : Dir} : dirOf fn = some d ↔ fn = dirBits d :=
  ⟨fun h => (dirBits_of_dirOf h).symm, fun h => by rw [h, dirOf_dirBits]⟩

theorem csrOf_eq_some_iff {f : Half} {n : Csr} : csrOf f = some n ↔ f = csrNumber n :=
  ⟨fun h => (csrNumber_of_csrOf h).symm, fun h => by rw [h, csrOf_csrNumber]⟩

theorem encode_of_nscaleOf {fn : Byte} {rd rs2 : Reg} {i : Instr} (h : nscaleOf fn rd rs2 = some i) :
    encode i = wordR 0x19 (regBits rd) 0 (regBits rs2) 0 fn := by
  unfold nscaleOf at h
  split at h <;> cases h <;> rename_i hfn <;> rw [eq_ofNat_of_toNat_eq hfn] <;> rfl

/-- The arm of an opcode asks 0 of every field that the encoder leaves 0, so the word's fields are the encoder's. -/
theorem encode_of_decodeFields {w : Word} {i : Instr} (h : decodeFields w = some i) : encode i = w := by
  have hR := wordR_fields w
  have hI := wordI_fields w
  simp only [decodeFields] at h
  split at h <;> rename_i hop
  -- no command has the opcode
  case h_41 => cases h
  all_goals
    rw [eq_ofNat_of_toNat_eq hop] at hR hI
    revert h
    simp only [Option.ite_none_right_eq_some, Bool.and_eq_true, beq_iff_eq, Option.map_eq_some_iff,
      Option.some.injEq, widthOf_eq_some_iff, chanOf_eq_some_iff, dirOf_eq_some_iff, csrOf_eq_some_iff, and_imp,
      forall_exists_index]
  -- opcode 0x19, the three commands that share one arm
  case h_18 =>
    intro hrs1 hrs3 hn
    rw [hrs1, hrs3] at hR
    exact (encode_of_nscaleOf hn).trans hR
  all_goals
    intros
    subst i
    simp_all only [encode, regBits_regOf, BitVec.ofNat_eq_ofNat]

theorem decodeFields_encode (i : Instr) : decodeFields (encode i) = some i := by
  cases i with
  | nop => rfl
  | nscale2 w _ _ | nscale3 w _ _ | nscale4 w _ _ =>
    cases w <;> simp [encode, decodeFields, nscaleBits, widthBits, nscaleOf]
  | _ => simp [encode, decodeFields]

theorem decodeFields_eq_some_iff {w : Word} {i : Instr} : decodeFields w = some i ↔ w = encode i :=
  ⟨fun h => (encode_of_decodeFields h).symm, fun h => by rw [h, decodeFields_encode]⟩

theorem decode_eq_some_iff {w : Word} {i : Instr} : decode w = some i ↔ w = encode i ∧ i.wellFormed = true := by
  rw [decode, Option.filter_eq_some_iff, decodeFields_eq_some_iff]

/-! ### Words by the places of their fields -/

namespace Claims
open Machine

theorem spelledBy_encode {i : Instr} (h : i.wellFormed = true) : spelledBy i (encode i) :=
  fun _ => by rw [decode_eq_some_iff, and_iff_left h]

theorem wordR_eq_cmdR (op : Byte) (rd rs1 rs2 rs3 : BitVec 4) (fn : Byte) :
    wordR op rd rs1 rs2 rs3 fn = cmdR op.toNat rd.toNat rs1.toNat rs2.toNat rs3.toNat fn.toNat := by
  rw [cmdR, ← wordR_toNat, BitVec.ofNat_toNat, BitVec.setWidth_eq]

theorem widthBits_toNat (w : Width) : (widthBits w).toNat = wBit w := by cases w <;> rfl

/-- The word of a command with a `W` bit (R65). -/
theorem spelledBy_widthWord (op : Byte) (rd rs1 rs2 rs3 : Reg) (w : Width) {i : Instr} (hi : i.wellFormed = true)
    (he : encode i = wordR op (regBits rd) (regBits rs1) (regBits rs2) (regBits rs3) (widthBits w)) :
    spelledBy i (cmdR op.toNat rd rs1 rs2 rs3 (wBit w)) := by
  have hw := spelledBy_encode hi
  rwa [he, wordR_eq_cmdR, widthBits_toNat] at hw

theorem bitsN_eq_widthN (w : Width) : bitsN w = widthN w := by cases w <;> rfl

end Claims

namespace Machine
open Claims

/-! ### One register write -/

theorem onlyReg_writeNat (s : State) (rd : Reg) {v : Nat} (hv : v < 2 ^ 32) : onlyReg s (s.writeNat rd v) rd v := by
  rw [State.writeNat_eq]
  refine ⟨rfl, ?_, fun r hr => s.setReg_reg_ne rd _ hr⟩
  rw [State.setReg_reg_self, BitVec.toNat_ofNat, Nat.mod_eq_of_lt hv]

theorem next_onlyReg {i : Instr} {s : State} {rd : Reg} {v : Nat} (h : exec i s = .next (s.writeNat rd v))
    (hv : v < 2 ^ 32) : ∃ t, exec i s = .next t ∧ onlyReg s t rd v :=
  ⟨_, h, onlyReg_writeNat s rd hv⟩

theorem State.low_le_maxN (s : State) (n : Nat) (r : Reg) : s.low n r ≤ maxN n :=
  Nat.le_sub_one_of_lt (Nat.mod_lt _ (Nat.two_pow_pos n))

/-- A value of the operand width fits a register (R11). -/
theorem lt_word_of_le_maxN {w : Width} {v : Nat} (h : v ≤ maxN (widthN w)) : v < 2 ^ 32 := by
  cases w <;> simp only [maxN, widthN] at h <;> omega

/-! ### The scalar functions keep to the range of their operands (R100 to R106) -/

theorem maxN_add_one (n : Nat) : maxN n + 1 = 2 ^ n := Nat.sub_add_cancel (Nat.two_pow_pos n)

section Range
variable {n : Nat}

theorem scaleN_le (i : Nat) {k : Nat} (hk : k ≤ maxN n) : scaleN n i k ≤ i := by
  have hk' : k + 1 ≤ 2 ^ n := maxN_add_one n ▸ Nat.succ_le_succ hk
  exact Nat.div_le_of_le_mul ((Nat.mul_le_mul_left i hk').trans_eq (Nat.mul_comm ..))

/-- The 1 that the video scale adds makes up for what the factor, less than 2^N, has taken. -/
theorem scaleVideoN_le (i : Nat) {k : Nat} (hk : k ≤ maxN n) : scaleVideoN n i k ≤ i := by
  have hk' : k < 2 ^ n := maxN_add_one n ▸ Nat.lt_succ_of_le hk
  unfold scaleVideoN
  split
  next h =>
    obtain ⟨hi, -⟩ := h
    exact Nat.div_lt_of_lt_mul
      ((Nat.mul_lt_mul_of_pos_left hk' (Nat.pos_of_ne_zero hi)).trans_eq (Nat.mul_comm ..))
  next => exact Nat.div_le_of_le_mul ((Nat.mul_le_mul_left i hk'.le).trans_eq (Nat.mul_comm ..))

theorem dimLinN_le {x : Nat} (hx : x ≤ maxN n) : dimLinN n x ≤ x := by
  unfold dimLinN
  split
  next => omega
  next => exact scaleN_le x hx

/-- The weights of `a` and `b` in R106 are `MAX − amt + 1` and `amt + 1`. -/
theorem blendN_eq (a b amt : Nat) : blendN n a b amt = (a * (maxN n - amt + 1) + b * (amt + 1)) / 2 ^ n := by
  unfold blendN
  congr 1
  ring

/-- The weights of a blend add up to 2^N + 1, so the result is at least the lesser operand. -/
theorem min_le_blendN (a b : Nat) {amt : Nat} (h : amt ≤ maxN n) : min a b ≤ blendN n a b amt := by
  have hsum : maxN n - amt + 1 + (amt + 1) = 2 ^ n + 1 := by have := maxN_add_one n; omega
  rw [blendN_eq, Nat.le_div_iff_mul_le (Nat.two_pow_pos n)]
  calc min a b * 2 ^ n ≤ min a b * (maxN n - amt + 1 + (amt + 1)) := Nat.mul_le_mul_left _ (by omega)
    _ = min a b * (maxN n - amt + 1) + min a b * (amt + 1) := Nat.mul_add ..
    _ ≤ a * (maxN n - amt + 1) + b * (amt + 1) := by gcongr <;> omega

/-- The one unit of weight above 2^N is less than a whole result for an operand below 2^N. -/
theorem blendN_le_max {a b amt : Nat} (ha : a ≤ maxN n) (hb : b ≤ maxN n) (h : amt ≤ maxN n) :
    blendN n a b amt ≤ max a b := by
  have htop := maxN_add_one n
  have hsum : maxN n - amt + 1 + (amt + 1) = 2 ^ n + 1 := by omega
  rw [blendN_eq, ← Nat.lt_succ_iff, Nat.div_lt_iff_lt_mul (Nat.two_pow_pos n)]
  calc a * (maxN n - amt + 1) + b * (amt + 1)
      ≤ max a b * (maxN n - amt + 1) + max a b * (amt + 1) := by gcongr <;> omega
    _ = max a b * 2 ^ n + max a b := by rw [← Nat.mul_add, hsum, Nat.mul_succ]
    _ < max a b * 2 ^ n + 2 ^ n := by omega
    _ = (max a b).succ * 2 ^ n := (Nat.succ_mul ..).symm

end Range

/-! ### The statements -/

/-- Settles O33: the result lies between the operands because the weights of R106 add up to 2^N + 1. -/
theorem blendCommand : Obligations.BlendCommand := by
  intro s w rd rs1 rs2 rs3
  rw [bitsN_eq_widthN]
  have ha := s.low_le_maxN (widthN w) rs1
  have hb := s.low_le_maxN (widthN w) rs2
  have hamt := s.low_le_maxN (widthN w) rs3
  have hle := blendN_le_max ha hb hamt
  have hfit := lt_word_of_le_maxN (hle.trans (max_le ha hb))
  refine ⟨spelledBy_widthWord 0x18 rd rs1 rs2 rs3 w rfl rfl, fun hs => ?_⟩
  obtain ⟨t, hnext, hregs, hval, hframe⟩ := next_onlyReg (exec_blend hs w rd rs1 rs2 rs3) hfit
  exact ⟨t, hnext, ⟨hregs, hval, hframe⟩, hval ▸ min_le_blendN _ _ hamt, hval ▸ hle⟩

/-- Settles O30: neither scale exceeds its first operand, so the result fits the register. -/
theorem scaleCommands : Obligations.ScaleCommands := by
  intro s w rd rs1 rs2
  rw [bitsN_eq_widthN]
  have hi := s.low_le_maxN (widthN w) rs1
  have hk := s.low_le_maxN (widthN w) rs2
  exact ⟨spelledBy_widthWord 0x10 rd rs1 rs2 0 w rfl rfl, spelledBy_widthWord 0x11 rd rs1 rs2 0 w rfl rfl, fun hs =>
    ⟨next_onlyReg (exec_scale hs w rd rs1 rs2) (lt_word_of_le_maxN ((scaleN_le _ hk).trans hi)),
      next_onlyReg (exec_scalev hs w rd rs1 rs2) (lt_word_of_le_maxN ((scaleVideoN_le _ hk).trans hi))⟩⟩

/-- Settles O31: no dim function exceeds its operand. -/
theorem dimCommands : Obligations.DimCommands := by
  intro s w rd rs1
  rw [bitsN_eq_widthN]
  have hx := s.low_le_maxN (widthN w) rs1
  exact ⟨spelledBy_widthWord 0x12 rd rs1 0 0 w rfl rfl, spelledBy_widthWord 0x13 rd rs1 0 0 w rfl rfl,
    spelledBy_widthWord 0x14 rd rs1 0 0 w rfl rfl, fun hs =>
    ⟨next_onlyReg (exec_dimr hs w rd rs1) (lt_word_of_le_maxN ((scaleN_le _ hx).trans hx)),
      next_onlyReg (exec_dimv hs w rd rs1) (lt_word_of_le_maxN ((scaleVideoN_le _ hx).trans hx)),
      next_onlyReg (exec_diml hs w rd rs1) (lt_word_of_le_maxN ((dimLinN_le hx).trans hx))⟩⟩

/-- Settles O32: a brighten function is `MAX` less a natural number, so it never exceeds `MAX`. -/
theorem brightenCommands : Obligations.BrightenCommands := by
  intro s w rd rs1
  rw [bitsN_eq_widthN]
  exact ⟨spelledBy_widthWord 0x15 rd rs1 0 0 w rfl rfl, spelledBy_widthWord 0x16 rd rs1 0 0 w rfl rfl,
    spelledBy_widthWord 0x17 rd rs1 0 0 w rfl rfl, fun hs =>
    ⟨next_onlyReg (exec_brtr hs w rd rs1) (lt_word_of_le_maxN (Nat.sub_le ..)),
      next_onlyReg (exec_brtv hs w rd rs1) (lt_word_of_le_maxN (Nat.sub_le ..)),
      next_onlyReg (exec_brtl hs w rd rs1) (lt_word_of_le_maxN (Nat.sub_le ..))⟩⟩

end Machine

end Sys2Proof
end

section
/-! PROOFS of the statements about spec/42_saturating_add.md. Each command is one register write. The functions of R130
never leave the operand range, so a channel of a triple saturates within its byte and does not reach its neighbours.
Before them, for the statements of every family, the word of a command of format R and the writing of a triple. -/

namespace Sys2Proof

namespace Claims
open Machine

/-- The word of a command of format R, `fn` as the encoder fills it. -/
theorem spelledBy_formatR (op : Byte) (rd rs1 rs2 rs3 : Reg) (fn : Byte) {i : Instr} (hi : i.wellFormed = true)
    (he : encode i = wordR op (regBits rd) (regBits rs1) (regBits rs2) (regBits rs3) fn) :
    spelledBy i (cmdR op.toNat rd rs1 rs2 rs3 fn.toNat) := by
  have hw := spelledBy_encode hi
  rwa [he, wordR_eq_cmdR] at hw

/-! ### Channels by their numbers (R14) -/

theorem chanNat_chNo (p : Pixel) (c : Chan) : chanNat p.toNat (chNo c) = (chan p c).toNat := by
  cases c with
  | c0 => exact (chan_c0_toNat p).symm
  | c1 => exact (chan_c1_toNat p).symm
  | c2 => exact (chan_c2_toNat p).symm

theorem exists_chNo_eq {k : Nat} (h : k < 3) : ∃ c, chNo c = k :=
  match k, h with
  | 0, _ => ⟨.c0, rfl⟩
  | 1, _ => ⟨.c1, rfl⟩
  | 2, _ => ⟨.c2, rfl⟩

end Claims

namespace Machine
open Claims

/-! ### Writing a triple -/

theorem low_eq_triple_toNat (s : State) (r : Reg) : low s r 24 = (s.triple r).toNat :=
  (s.triple_toNat r).symm

theorem State.writeTriple_eq_writeNat (s : State) (rd : Reg) (p : Pixel) :
    s.writeTriple rd p = s.writeNat rd p.toNat := by
  rw [State.writeTriple_eq, State.writeNat_eq, BitVec.ofNat_toNat]

theorem next_onlyReg_triple {i : Instr} {s : State} {rd : Reg} {p : Pixel}
    (h : exec i s = .next (s.writeTriple rd p)) : ∃ t, exec i s = .next t ∧ onlyReg s t rd p.toNat :=
  next_onlyReg (State.writeTriple_eq_writeNat s rd p ▸ h) (p.isLt.trans (by decide))

/-- A function that keeps to a byte is applied to each pair of channels alone. -/
theorem chanNat_pzip {f : Nat → Nat → Nat} (hf : ∀ a b : Byte, f a.toNat b.toNat < 2 ^ 8) (p q : Pixel) {k : Nat}
    (hk : k < 3) : chanNat (pzip f p q).toNat k = f (chanNat p.toNat k) (chanNat q.toNat k) := by
  obtain ⟨c, rfl⟩ := exists_chNo_eq hk
  rw [chanNat_chNo, chanNat_chNo, chanNat_chNo, chan_pzip f p q c (hf _ _)]

/-- A command that writes a channelwise function of two triples. -/
theorem next_onlyReg_pzip {f : Nat → Nat → Nat} (hf : ∀ a b : Byte, f a.toNat b.toNat < 2 ^ 8) {i : Instr}
    {s : State} {rd rs1 rs2 : Reg} (h : exec i s = .next (s.writeTriple rd (pzip f (s.triple rs1) (s.triple rs2)))) :
    ∃ t v, exec i s = .next t ∧ onlyReg s t rd v ∧ v < 2 ^ 24 ∧
      ∀ k, k < 3 → chanNat v k = f (chanNat (low s rs1 24) k) (chanNat (low s rs2 24) k) := by
  obtain ⟨t, hnext, hreg⟩ := next_onlyReg_triple h
  rw [low_eq_triple_toNat, low_eq_triple_toNat]
  exact ⟨t, _, hnext, hreg, (pzip f _ _).isLt, fun _ hk => chanNat_pzip hf _ _ hk⟩

/-! ### Saturation (R130) -/

theorem qaddN_le_maxN (n a b : Nat) : qaddN n a b ≤ maxN n := Nat.min_le_right ..

theorem qsubN_le (a b : Nat) : qsubN a b ≤ a := Nat.sub_le ..

theorem qaddN_eq_ite (n a b : Nat) : qaddN n a b = if a + b < 2 ^ n then a + b else 2 ^ n - 1 := by
  have htop := maxN_add_one n
  unfold qaddN
  split
  next h => exact Nat.min_eq_left (by omega)
  next h => exact Nat.min_eq_right (by omega)

theorem qsubN_eq_ite (a b : Nat) : qsubN a b = if b ≤ a then a - b else 0 := by
  unfold qsubN
  split
  next => rfl
  next h => exact Nat.sub_eq_zero_of_le (by omega)

theorem qsubN_cast (a b : Nat) : (qsubN a b : Int) = max ((a : Int) - b) 0 := by
  unfold qsubN
  omega

theorem qaddN_byte_lt (a b : Byte) : qaddN 8 a.toNat b.toNat < 2 ^ 8 :=
  (qaddN_le_maxN 8 _ _).trans_lt (by decide)

theorem qsubN_byte_lt (a b : Byte) : qsubN a.toNat b.toNat < 2 ^ 8 := (qsubN_le _ _).trans_lt a.isLt

/-! ### The statements -/

/-- Settles O38: both results keep to the operand range, so they fit the register. -/
theorem saturatingScalarCommands : Obligations.SaturatingScalarCommands := by
  intro s w rd rs1 rs2
  refine ⟨spelledBy_widthWord 0x1A rd rs1 rs2 0 w rfl rfl, spelledBy_widthWord 0x1B rd rs1 rs2 0 w rfl rfl,
    fun hs => ?_⟩
  rw [bitsN_eq_widthN]
  have ha := s.low_le_maxN (widthN w) rs1
  refine ⟨?_, ?_⟩
  · rw [← qaddN_eq_ite]
    exact next_onlyReg (exec_qadd hs w rd rs1 rs2) (lt_word_of_le_maxN (qaddN_le_maxN _ _ _))
  · rw [← qsubN_eq_ite]
    exact next_onlyReg (exec_qsub hs w rd rs1 rs2) (lt_word_of_le_maxN ((qsubN_le _ _).trans ha))

/-- Settles O39: each channel's result is a byte, so no channel carries into or borrows from another. -/
theorem saturatingPixelCommands : Obligations.SaturatingPixelCommands := by
  intro s rd rs1 rs2
  refine ⟨spelledBy_formatR 0x20 rd rs1 rs2 0 0 rfl rfl, spelledBy_formatR 0x21 rd rs1 rs2 0 0 rfl rfl,
    fun hs => ⟨next_onlyReg_pzip qaddN_byte_lt (exec_padd hs rd rs1 rs2), ?_⟩⟩
  obtain ⟨t, v, hnext, hreg, hv, hchan⟩ := next_onlyReg_pzip qsubN_byte_lt (exec_psub hs rd rs1 rs2)
  exact ⟨t, v, hnext, hreg, hv, fun k hk => by rw [hchan k hk, qsubN_cast]⟩

end Machine

end Sys2Proof
end

section
/-! PROOFS of the statements about spec/43_batch_scale.md. A step of the batch scaler, byte or word, scales each byte it
covers and no other; so the memory after the pipeline is each byte scaled as often as the steps cover it, and the steps
cover each byte of the extent once. For the word step before them, the lane arithmetic of R143. -/

namespace Sys2Proof.Machine
open Claims

/-! ### One byte scaled (R140) -/

/-- R140 on a byte, with `sc` = factor + 1. -/
def scaleByte (sc : Nat) (b : Byte) : Byte := BitVec.ofNat 8 (b.toNat * sc / 256)

theorem byte_mul_le {sc : Nat} (hsc : sc ≤ 256) (b : Byte) : b.toNat * sc ≤ 255 * 256 :=
  Nat.mul_le_mul (Nat.le_pred_of_lt b.isLt) hsc

theorem scaleByte_toNat {sc : Nat} (hsc : sc ≤ 256) (b : Byte) : (scaleByte sc b).toNat = b.toNat * sc / 256 := by
  have := byte_mul_le hsc b
  rw [scaleByte, BitVec.toNat_ofNat]
  omega

theorem scaleByte_toNat_eq_scaleFn {f : Nat} (hf : f ≤ 255) (b : Byte) :
    (scaleByte (f + 1) b).toNat = scaleFn 8 b.toNat f :=
  scaleByte_toNat (Nat.succ_le_succ hf) b

/-! ### The byte lanes of a word -/

/-- A word as the sum of its byte lanes. -/
theorem word_toNat_eq_lanes (w : Word) : w.toNat = (lane8 w 0).toNat + (lane8 w 1).toNat * 2 ^ 8 +
    (lane8 w 2).toNat * 2 ^ 16 + (lane8 w 3).toNat * 2 ^ 24 := by
  simp only [lane8_toNat]
  omega

theorem lane8_or (x y : Word) (j : Nat) : lane8 (x ||| y) j = lane8 x j ||| lane8 y j :=
  BitVec.extractLsb'_or

theorem lane8_ushiftRight (w : Word) (j : Nat) : lane8 (w >>> 8) j = lane8 w (j + 1) := by
  apply BitVec.eq_of_toNat_eq
  rw [lane8_toNat, lane8_toNat, BitVec.toNat_ushiftRight, Nat.shiftRight_eq_div_pow, Nat.div_div_eq_div_mul,
    ← pow_add, Nat.mul_succ, Nat.add_comm 8]

theorem lane8_shiftLeft_zero (w : Word) : lane8 (w <<< 8) 0 = 0#8 := by
  apply BitVec.eq_of_toNat_eq
  rw [lane8_toNat, BitVec.toNat_shiftLeft, Nat.shiftLeft_eq, BitVec.toNat_ofNat]
  omega

theorem lane8_shiftLeft_succ (w : Word) {j : Nat} (hj : j < 3) : lane8 (w <<< 8) (j + 1) = lane8 w j := by
  apply BitVec.eq_of_toNat_eq
  rw [lane8_toNat, lane8_toNat, BitVec.toNat_shiftLeft, Nat.shiftLeft_eq]
  interval_cases j <;> omega

/-- The mask of the even lanes. -/
theorem lane8_and_evenMask (w : Word) {j : Nat} (hj : j < 4) :
    lane8 (w &&& 0x00FF00FF#32) j = if j % 2 = 0 then lane8 w j else 0#8 := by
  have hand : lane8 (w &&& 0x00FF00FF#32) j = lane8 w j &&& lane8 0x00FF00FF#32 j := BitVec.extractLsb'_and
  rw [hand]
  interval_cases j
  · exact BitVec.and_allOnes
  · exact BitVec.and_zero
  · exact BitVec.and_allOnes
  · exact BitVec.and_zero

/-- A word's bytes are those it was read from, lowest address first (R42). -/
theorem lane8_read4 (m : Memory) (a : Nat) {j : Nat} (hj : j < 4) : lane8 (m.read4 a) j = m.read (a + j) := by
  apply BitVec.eq_of_toNat_eq
  rw [lane8_toNat, Memory.read4_toNat]
  interval_cases j
  · simp only [Nat.add_zero]
    omega
  all_goals omega

/-! ### The packed-lane multiply (R142, R143) -/

/-- One of the two multiplies of R142: the even lanes scaled in their 16-bit fields, the odd ones cleared. -/
def scaleEvenLanes (sc : Nat) (w : Word) : Word :=
  (((w &&& 0x00FF00FF#32) * BitVec.ofNat 32 sc) >>> 8) &&& 0x00FF00FF#32

/-- The odd lanes are the even lanes of the word moved down by a byte. -/
theorem lanes_eq_or (w : Word) (sc : Nat) :
    lanes w sc = scaleEvenLanes sc w ||| (scaleEvenLanes sc (w >>> 8) <<< 8) := by
  have hodd : (w &&& 0xFF00FF00#32) >>> 8 = (w >>> 8) &&& 0x00FF00FF#32 := BitVec.ushiftRight_and_distrib ..
  rw [lanes, hodd]
  rfl

/-- A byte times `sc` stays within its 16-bit field, so the product holds the two lanes' products side by side. -/
theorem evenLanes_mul_toNat {sc : Nat} (hsc : sc ≤ 256) (w : Word) :
    ((w &&& 0x00FF00FF#32) * BitVec.ofNat 32 sc).toNat =
      (lane8 w 0).toNat * sc + (lane8 w 2).toNat * sc * 2 ^ 16 := by
  have h0 := byte_mul_le hsc (lane8 w 0)
  have h2 := byte_mul_le hsc (lane8 w 2)
  have heven : (w &&& 0x00FF00FF#32).toNat = (lane8 w 0).toNat + (lane8 w 2).toNat * 2 ^ 16 := by
    rw [word_toNat_eq_lanes]
    simp [lane8_and_evenMask]
  rw [BitVec.toNat_mul, heven, BitVec.toNat_ofNat, Nat.mod_eq_of_lt (by omega : sc < 2 ^ 32), Nat.add_mul,
    Nat.mul_right_comm, Nat.mod_eq_of_lt (by omega)]

theorem lane8_scaleEvenLanes {sc : Nat} (hsc : sc ≤ 256) (w : Word) {j : Nat} (hj : j < 4) :
    lane8 (scaleEvenLanes sc w) j = if j % 2 = 0 then scaleByte sc (lane8 w j) else 0#8 := by
  rw [scaleEvenLanes, lane8_and_evenMask _ hj, lane8_ushiftRight]
  split
  next heven =>
    have h0 := byte_mul_le hsc (lane8 w 0)
    have h2 := byte_mul_le hsc (lane8 w 2)
    apply BitVec.eq_of_toNat_eq
    rw [scaleByte_toNat hsc, lane8_toNat, evenLanes_mul_toNat hsc]
    obtain rfl | rfl : j = 0 ∨ j = 2 := by omega
    all_goals omega
  next => rfl

/-- R143: each lane of the packed multiply is scaled alone. An even lane comes from the first product and an odd one
from the second; the other product is 0 there. -/
theorem lane8_lanes {sc : Nat} (hsc : sc ≤ 256) (w : Word) {j : Nat} (hj : j < 4) :
    lane8 (lanes w sc) j = scaleByte sc (lane8 w j) := by
  rw [lanes_eq_or, lane8_or, lane8_scaleEvenLanes hsc _ hj]
  cases j with
  | zero => rw [lane8_shiftLeft_zero, if_pos rfl, BitVec.or_zero]
  | succ j =>
    rw [lane8_shiftLeft_succ _ (by omega), lane8_scaleEvenLanes hsc _ (by omega), lane8_ushiftRight]
    by_cases h : j % 2 = 0
    · rw [if_neg (by omega), if_pos h, BitVec.zero_or]
    · rw [if_pos (by omega), if_neg h, BitVec.or_zero]

/-! ### Each step scales the bytes it covers -/

theorem covers_iff_touches (b : Nat) (x : BatchStep) : covers b x = true ↔ x.touches b := by
  cases x <;> exact decide_eq_true_iff

theorem batchStep_read_of_touches {sc : Nat} (hsc : sc ≤ 256) (m : Memory) {x : BatchStep} {b : Nat}
    (h : x.touches b) : (batchStep sc m x).read b = scaleByte sc (m.read b) := by
  cases x with
  | byte a =>
    obtain rfl : b = a := h
    rw [batchStep_byte_read, if_pos rfl, scaleByte]
  | word a =>
    obtain ⟨hlo, hhi⟩ : a ≤ b ∧ b < a + 4 := h
    have hj : b - a < 4 := by omega
    rw [batchStep_word_read, if_pos ⟨hlo, hhi⟩, lane8_lanes hsc _ hj, lane8_read4 _ _ hj, Nat.add_sub_cancel' hlo]

/-- After any steps, a byte has been scaled once for each step that covers it. -/
theorem foldl_batchStep_read {sc : Nat} (hsc : sc ≤ 256) (xs : List BatchStep) (m : Memory) (b : Nat) :
    (xs.foldl (batchStep sc) m).read b = (scaleByte sc)^[xs.countP (covers b)] (m.read b) := by
  induction xs generalizing m with
  | nil => rfl
  | cons x xs ih =>
    rw [List.foldl_cons, ih]
    by_cases h : x.touches b
    · rw [List.countP_cons_of_pos ((covers_iff_touches b x).2 h), Function.iterate_succ_apply,
        batchStep_read_of_touches hsc m h]
    · rw [List.countP_cons_of_neg (mt (covers_iff_touches b x).1 h), batchStep_out sc m x h]

/-! ### The steps cover each byte of the extent once (R144 to R146) -/

/-- Steps of `k` bytes each, one after the other from `a` on. -/
theorem countP_covers_row {step : Nat → BatchStep} {a k b : Nat}
    (h : ∀ i, covers b (step i) = true ↔ a + k * i ≤ b ∧ b < a + k * i + k) (n : Nat) :
    ((List.range n).map step).countP (covers b) = if a ≤ b ∧ b < a + k * n then 1 else 0 := by
  induction n with
  | zero => exact (if_neg (by omega)).symm
  | succ n ih =>
    rw [List.range_succ, List.map_append, List.countP_append, ih, List.map_singleton, List.countP_singleton,
      Nat.mul_succ]
    simp only [h]
    split_ifs <;> omega

theorem countP_covers_byteSteps (a n b : Nat) :
    (byteSteps a n).countP (covers b) = if a ≤ b ∧ b < a + n then 1 else 0 := by
  have hrow := countP_covers_row (step := fun i => .byte (a + i)) (a := a) (k := 1) (b := b)
    (fun i => (covers_iff_touches b _).trans (by simp only [BatchStep.touches]; omega)) n
  rwa [Nat.one_mul] at hrow

theorem countP_covers_wordSteps (a n b : Nat) :
    (wordSteps a n).countP (covers b) = if a ≤ b ∧ b < a + 4 * n then 1 else 0 :=
  countP_covers_row (fun _ => covers_iff_touches b _) n

/-- R141: the three regions make up the extent. -/
theorem splitExtent_sum (a n : Nat) :
    (splitExtent a n).head + 4 * (splitExtent a n).words + (splitExtent a n).tail = n := by
  simp only [splitExtent]
  omega

/-! ### The statements -/

/-- Settles O52: the head, the words and the tail follow one another and end where the extent ends. -/
theorem batchStepsCoverExtentOnce : Obligations.BatchStepsCoverExtentOnce := by
  intro threshold a n b
  unfold batchSteps
  split
  next h => rw [if_neg (by omega), List.countP_nil]
  next =>
    split
    next => exact countP_covers_byteSteps a n b
    next =>
      have hsum := splitExtent_sum a n
      rw [List.countP_append, List.countP_append, countP_covers_byteSteps, countP_covers_wordSteps,
        countP_covers_byteSteps]
      split_ifs <;> omega

/-- Settles O53: a byte is scaled as often as the steps cover it, which is once inside the extent and never outside. -/
theorem batchScaleIsPerByteMap : Obligations.BatchScaleIsPerByteMap := by
  intro threshold a n f m b hf
  rw [batchScale, foldl_batchStep_read (Nat.succ_le_succ hf), batchStepsCoverExtentOnce]
  split
  next => exact scaleByte_toNat_eq_scaleFn hf _
  next => rfl

end Sys2Proof.Machine
end

section
/-! PROOFS of the statements about spec/44_lerp.md. `LDIV` and `LNEXT` act on the accumulator by `Lerp.divide` and
`Lerp.advance`, so each proof puts together what these do to one channel and what the command writes besides. -/

namespace Sys2Proof.Machine
open Claims

/-! ### The count -/

theorem half_toNat_eq_zero_iff {n : Half} : n.toNat = 0 ↔ n = 0 := BitVec.toNat_inj (y := 0)

/-! ### The step of one channel (R164 to R166) -/

/-- The two ways to say that a quotient is rounded toward zero. -/
theorem truncdiv_eq_tdiv (a b : Int) : truncdiv a b = a.tdiv b := by
  unfold truncdiv
  split
  next h => exact (Int.tdiv_eq_ediv_of_nonneg h).symm
  next h => rw [← Int.tdiv_eq_ediv_of_nonneg (by omega), Int.neg_tdiv, Int.neg_neg]

theorem stepDelta_toNat (d : Half) (n : Nat) : ((stepDelta d n).toNat : Int) = 2 * truncdiv d.toInt n % 65536 := by
  rw [stepDelta, BitVec.toNat_ofInt, truncdiv_eq_tdiv]
  exact Int.toNat_of_nonneg (Int.emod_nonneg _ (by decide))

/-! ### The accumulator after `LDIV` (R164, R167) -/

/-- The accumulators themselves stay. -/
theorem Lerp.divide_frame (l : Lerp) (n : Half) :
    l.divide n = { l with del := (l.divide n).del, rem := (l.divide n).rem } := by
  unfold Lerp.divide
  split <;> rfl

@[simp] theorem Lerp.divide_rem (l : Lerp) (n : Half) : (l.divide n).rem = n := by
  unfold Lerp.divide
  split
  next h => exact h.symm
  next => rfl

theorem Lerp.divide_del (l : Lerp) (n : Half) (c : Chan) :
    (l.divide n).del.get c = if n.toNat = 0 then l.del.get c else stepDelta (l.del.get c) n.toNat := by
  simp only [half_toNat_eq_zero_iff, Lerp.divide]
  split
  next => rfl
  next => cases c <;> rfl

/-! ### The triple that the accumulator yields (R168) -/

theorem topByte_toNat (a : Half) : (topByte a).toNat = a.toNat / 256 := by
  rw [topByte, toNat_extract]
  omega

theorem Lerp.triple_toNat (l : Lerp) : l.triple.toNat =
    l.acc.c0.toNat / 256 * 2 ^ 16 + l.acc.c1.toNat / 256 * 2 ^ 8 + l.acc.c2.toNat / 256 := by
  rw [Lerp.triple, pack_toNat, topByte_toNat, topByte_toNat, topByte_toNat]

theorem onlyReg_writeTriple (s : State) (rd : Reg) (p : Pixel) : onlyReg s (s.writeTriple rd p) rd p.toNat := by
  rw [State.writeTriple_eq_writeNat]
  exact onlyReg_writeNat s rd (p.isLt.trans (by decide))

/-! ### The statements -/

/-- Settles O48: the count written is the divisor, and the accumulators stay whether or not it is 0. -/
theorem lerpDivide : Obligations.LerpDivide := by
  intro s rs1
  refine ⟨spelledBy_formatR 0x42 0 rs1 0 0 0 rfl rfl, fun hs => ⟨_, exec_ldiv hs rs1, ?_, ?_, fun c => ?_⟩⟩
  · exact congrArg (fun l => (s.setLerp l).setLx false) (s.lerp.divide_frame _)
  · rw [State.setLx_lerp, State.setLerp_lerp, Lerp.divide_rem, State.halfOf_toNat, low]
  · have hcount : (s.halfOf rs1).toNat = low s rs1 16 := s.halfOf_toNat rs1
    rw [State.setLx_lerp, State.setLerp_lerp, Lerp.divide_del, hcount]
    split
    next => rfl
    next => exact stepDelta_toNat _ _

/-- Settles O49: the triple is taken from the accumulators before they advance. -/
theorem lerpNext : Obligations.LerpNext := by
  intro s rd
  refine ⟨spelledBy_formatR 0x43 rd 0 0 0 0 rfl rfl, fun hs hr => ?_, fun hs hr => ?_⟩
  · exact exec_lnext_exhausted hs rd (half_toNat_eq_zero_iff.1 hr)
  · obtain ⟨-, hval, hframe⟩ := onlyReg_writeTriple s rd s.lerp.triple
    refine ⟨_, exec_lnext hs rd (mt half_toNat_eq_zero_iff.2 hr), rfl, ?_, hframe, ?_, fun c => ?_⟩
    · exact hval.trans s.lerp.triple_toNat
    · exact BitVec.toNat_sub_of_le (Nat.pos_of_ne_zero hr)
    · exact (congrArg BitVec.toNat (s.lerp.advance_acc c)).trans (BitVec.toNat_add _ _)

end Sys2Proof.Machine
end

section
/-! PROOFS of the statements about spec/45_hue.md. `HSV2RGB` writes what the general lines of R183 give, since its two
short-circuits return the same. `HDIST` writes a wrapping difference times 128, which a signed word holds. -/

namespace Sys2Proof.Machine
open Claims

/-! ### Channels of a triple -/

theorem byte_le_maxN (b : Byte) : b.toNat ≤ maxN 8 := Nat.le_pred_of_lt b.isLt

theorem chanNat_zero (p : Pixel) : chanNat p.toNat 0 = (chan p .c0).toNat := chanNat_chNo p .c0
theorem chanNat_one (p : Pixel) : chanNat p.toNat 1 = (chan p .c1).toNat := chanNat_chNo p .c1
theorem chanNat_two (p : Pixel) : chanNat p.toNat 2 = (chan p .c2).toNat := chanNat_chNo p .c2

theorem pmap_congr_byte {f g : Nat → Nat} (h : ∀ b : Byte, f b.toNat = g b.toNat) (p : Pixel) :
    pmap f p = pmap g p := by
  simp only [pmap, h]

/-- A function that keeps to a byte is applied to each channel alone. -/
theorem chanNat_pmap {f : Nat → Nat} (hf : ∀ b : Byte, f b.toNat < 2 ^ 8) (p : Pixel) {k : Nat} (hk : k < 3) :
    chanNat (pmap f p).toNat k = f (chanNat p.toNat k) := by
  obtain ⟨c, rfl⟩ := exists_chNo_eq hk
  rw [chanNat_chNo, chanNat_chNo, chan_pmap f p c (hf _)]

/-! ### Scaling never exceeds the factor (R100) -/

theorem scaleN_le_factor {n i : Nat} (hi : i ≤ maxN n) (k : Nat) : scaleN n i k ≤ k := by
  have hlt : i < 2 ^ n := maxN_add_one n ▸ Nat.lt_succ_of_le hi
  exact Nat.le_of_lt_succ (Nat.div_lt_of_lt_mul (Nat.mul_lt_mul_of_pos_right hlt k.succ_pos))

theorem scaleN_byte_zero (b : Byte) : scaleN 8 b.toNat 0 = 0 :=
  Nat.le_zero.1 (scaleN_le_factor (byte_le_maxN b) 0)

theorem scaleN_top_byte (b : Byte) : scaleN 8 255 b.toNat = b.toNat := by
  have := b.isLt
  unfold scaleN
  omega

theorem chanNat_pscale (p : Pixel) (v : Byte) {k : Nat} (hk : k < 3) :
    chanNat (pscale p v.toNat).toNat k = scaleN 8 (chanNat p.toNat k) v.toNat :=
  chanNat_pmap (fun b => (scaleN_le b.toNat (byte_le_maxN v)).trans_lt b.isLt) p hk

theorem pscale_zero (p : Pixel) : pscale p 0 = 0 :=
  have hblack : packNat 0 0 0 = 0 := by decide
  (pmap_congr_byte (f := (scaleN 8 · 0)) (g := fun _ => 0) scaleN_byte_zero p).trans hblack

theorem pscale_white (v : Byte) : pscale (packNat 255 255 255) v.toNat = pack v v v := by
  simp [pscale, pmap, packNat, scaleN_top_byte]

/-! ### Saturation toward the floor (R183) -/

theorem desaturationFloor_le (sat : Nat) : desaturationFloor sat ≤ 255 :=
  have hsat : 255 - sat ≤ maxN 8 := Nat.sub_le ..
  (scaleN_le _ hsat).trans hsat

/-- One channel scaled toward the floor and the floor added back, as a sum of numbers. -/
def desaturate (sat t : Nat) : Nat := scaleN 8 t (255 - desaturationFloor sat) + desaturationFloor sat

/-- R183 (1): the scaled channel is at most `255 − floor`, so adding the floor never saturates. -/
theorem qaddN_floor (sat : Nat) (t : Byte) :
    qaddN 8 (scaleN 8 t.toNat (255 - desaturationFloor sat)) (desaturationFloor sat) = desaturate sat t.toNat := by
  have hscaled := scaleN_le_factor (byte_le_maxN t) (255 - desaturationFloor sat)
  have hfloor := desaturationFloor_le sat
  exact Nat.min_eq_left (Nat.add_le_of_le_sub hfloor hscaled)

theorem chanNat_saturate (c : Pixel) (sat : Nat) (v : Byte) {k : Nat} (hk : k < 3) :
    chanNat (saturate c sat v.toNat).toNat k = scaleN 8 (desaturate sat (chanNat c.toNat k)) v.toNat := by
  have hbyte (t : Byte) : desaturate sat t.toNat < 2 ^ 8 :=
    qaddN_floor sat t ▸ (qaddN_le_maxN 8 _ _).trans_lt (by decide)
  rw [saturate, chanNat_pscale _ _ hk, pmap_congr_byte (g := desaturate sat) (qaddN_floor sat),
    chanNat_pmap hbyte _ hk]

/-- With saturation 0 the floor is 255 and the factor 0: every colour becomes white before the value is applied. -/
theorem saturate_zero (c : Pixel) (v : Byte) : saturate c 0 v.toNat = pack v v v := by
  have hwhite : ∀ t : Byte, qaddN 8 (scaleN 8 t.toNat 0) 255 = 255 := fun t => by rw [scaleN_byte_zero]; rfl
  exact (congrArg (pscale · v.toNat) (pmap_congr_byte (g := fun _ => 255) hwhite c)).trans (pscale_white v)

/-! ### The conversion with its short-circuits (R183) -/

theorem hsvToRgb_of_value_eq_zero (cfg : Config) {p : Pixel} (hv : chan p .c2 = 0) : hsvToRgb cfg p = 0 := if_pos hv

theorem hsvToRgb_of_saturation_eq_zero (cfg : Config) {p : Pixel} (hv : chan p .c2 ≠ 0) (hs : chan p .c1 = 0) :
    hsvToRgb cfg p = pack (chan p .c2) (chan p .c2) (chan p .c2) :=
  (if_neg hv).trans (if_pos hs)

/-- R183 (2): the two short-circuits return what the general lines give. -/
theorem hsvToRgb_eq_saturate (cfg : Config) (p : Pixel) :
    hsvToRgb cfg p = saturate (hueRainbow cfg (chan p .c0)) (chan p .c1).toNat (chan p .c2).toNat := by
  by_cases hv : chan p .c2 = 0
  · rw [hsvToRgb_of_value_eq_zero cfg hv, hv]
    exact (pscale_zero _).symm
  · by_cases hs : chan p .c1 = 0
    · rw [hsvToRgb_of_saturation_eq_zero cfg hv hs, hs]
      exact (saturate_zero _ _).symm
    · exact (if_neg hv).trans (if_neg hs)

/-! ### The distance (R189, R190) -/

theorem hueDiff_cast (a b : Byte) : (hueDiff a b : Int) = ((b.toNat : Int) - a.toNat) % 256 := by
  have ha := a.isLt
  rw [hueDiff, BitVec.toNat_sub]
  omega

theorem hueDist_forward (a b : Byte) : hueDist a b .forward = (hueDiff a b : Int) * 128 := rfl

theorem hueDist_backwards (a b : Byte) : hueDist a b .backwards = -((hueDiff b a : Int) * 128) := rfl

/-- A derived direction is one of the two others, by the difference. -/
theorem hueDist_shortest (a b : Byte) :
    hueDist a b .shortest = if (hueDiff a b : Int) > 127 then hueDist a b .backwards else hueDist a b .forward := by
  rw [← ite_not]
  simp [hueDist, goesForward]

theorem hueDist_longest (a b : Byte) :
    hueDist a b .longest = if (hueDiff a b : Int) > 127 then hueDist a b .forward else hueDist a b .backwards := by
  simp [hueDist, goesForward]

theorem hueDist_bounds (a b : Byte) (d : Dir) : -32640 ≤ hueDist a b d ∧ hueDist a b d ≤ 32640 := by
  have hfwd : hueDiff a b < 256 := BitVec.isLt _
  have hback : hueDiff b a < 256 := BitVec.isLt _
  unfold hueDist
  split <;> omega

theorem ofInt_hueDist_toInt (a b : Byte) (d : Dir) : (BitVec.ofInt 32 (hueDist a b d)).toInt = hueDist a b d := by
  obtain ⟨hlo, hhi⟩ := hueDist_bounds a b d
  exact BitVec.toInt_ofInt_eq_self (by decide) (by omega) (by omega)

theorem dirBits_toNat (d : Dir) : (dirBits d).toNat = dirNo d := by cases d <;> rfl

/-! ### The statements -/

/-- Settles O42: each channel of the result is that of the general lines, whichever line the command took. -/
theorem hsvToRgbCommand : Obligations.HsvToRgbCommand := by
  intro s rd rs1
  refine ⟨spelledBy_formatR 0x31 rd rs1 0 0 0 rfl rfl, fun hs => ?_⟩
  obtain ⟨t, hnext, hreg⟩ := next_onlyReg_triple (exec_hsv2rgb hs rd rs1)
  simp only [low_eq_triple_toNat, chanNat_zero, chanNat_one, chanNat_two, BitVec.ofNat_toNat, BitVec.setWidth_eq]
  refine ⟨t, _, hnext, hreg, BitVec.isLt _, fun hv => ?_, fun hv hs0 => ?_, fun k hk => ?_⟩
  · rw [hsvToRgb_of_value_eq_zero _ (BitVec.eq_of_toNat_eq hv)]
    rfl
  · rw [hsvToRgb_of_saturation_eq_zero _ (fun h => hv (congrArg _ h)) (BitVec.eq_of_toNat_eq hs0), pack_toNat]
  · rw [hsvToRgb_eq_saturate]
    exact chanNat_saturate _ _ _ hk

/-- Settles O45: a derived direction takes the formula of the one it resolves to. -/
theorem hueDistanceCommand : Obligations.HueDistanceCommand := by
  intro s d rd rs1 rs2
  have hword := spelledBy_formatR 0x33 rd rs1 rs2 0 (dirBits d) (i := .hdist d rd rs1 rs2) rfl rfl
  rw [dirBits_toNat] at hword
  refine ⟨hword, fun hs => ⟨_, exec_hdist hs d rd rs1 rs2, rfl, ?_, fun r hr => s.setReg_reg_ne rd _ hr⟩⟩
  have hdiff (q r : Reg) : ((low s r 8 : Int) - low s q 8) % 256 = hueDiff (s.byteOf q) (s.byteOf r) := by
    rw [hueDiff_cast, State.byteOf_toNat, State.byteOf_toNat]
    rfl
  rw [State.setReg_reg_self, ofInt_hueDist_toInt, hdiff, hdiff]
  cases d with
  | forward => exact hueDist_forward _ _
  | backwards => exact hueDist_backwards _ _
  | shortest => exact hueDist_shortest _ _
  | longest => exact hueDist_longest _ _

end Sys2Proof.Machine
end

section
/-! PROOFS of the statements about spec/46_buffer_ops.md. A byte of a buffer is a channel of its pixel, which the loop of
a command reads and writes whole; so what the loop does to a pixel says what it does to each of its bytes. -/

namespace Sys2Proof.Machine
open Claims

/-! ### Bytes of a buffer as channels of its pixels (R23, R212) -/

theorem Memory.read_toNat_eq_chanNat (m : Memory) (a : Nat) {k : Nat} (hk : k < 3) :
    (m.read (a + k)).toNat = chanNat (m.readPix a).toNat k := by
  obtain ⟨c, rfl⟩ := exists_chNo_eq hk
  obtain ⟨h0, h1, h2⟩ := m.read_eq_chan a
  rw [chanNat_chNo]
  cases c with
  | c0 => exact congrArg BitVec.toNat h0
  | c1 => exact congrArg BitVec.toNat h1
  | c2 => exact congrArg BitVec.toNat h2

/-- The byte at offset `i` of a buffer is channel `i % 3` of pixel `i / 3`. -/
theorem Memory.read_toNat_eq_chanNat_div (m : Memory) (a i : Nat) :
    (m.read (a + i)).toNat = chanNat (m.readPix (a + 3 * (i / 3))).toNat (i % 3) := by
  rw [← m.read_toNat_eq_chanNat _ (Nat.mod_lt i (by decide)), Nat.add_assoc, Nat.div_add_mod]

/-! ### The buffer blend (R205, R206) -/

/-- The weights add up to 255, so the sum is at most 255 × 255 and a channel never overflows. -/
theorem bblend_byte_lt {amt : Nat} (hamt : amt ≤ 255) (c o : Byte) : bblend amt c.toNat o.toNat < 2 ^ 8 := by
  have hc : c.toNat * (255 - amt) ≤ 255 * (255 - amt) := Nat.mul_le_mul_right _ (byte_le_maxN c)
  have ho : o.toNat * amt ≤ 255 * amt := Nat.mul_le_mul_right _ (byte_le_maxN o)
  unfold bblend
  omega

theorem bblendLoop_read_toNat {amt : Nat} (hamt : amt ≤ 255) (o : Pixel) (n a : Nat) (m : Memory) {i : Nat}
    (hi : i < 3 * n) : ((bblendLoop o amt n a m).read (a + i)).toNat =
      bblend amt (m.read (a + i)).toNat (chanNat o.toNat (i % 3)) := by
  have hpixel : i / 3 < n := Nat.div_lt_of_lt_mul hi
  rw [Memory.read_toNat_eq_chanNat_div, Memory.read_toNat_eq_chanNat_div, bblendLoop_readPix o amt n a m hpixel,
    chanNat_pzip (bblend_byte_lt hamt) _ _ (Nat.mod_lt i (by decide))]

/-! ### The statements -/

/-- Settles O57: the loop blends each pixel of the extent channel by channel and writes no byte outside it. -/
theorem bufferBlendCommand : Obligations.BufferBlendCommand := by
  intro s rs1 rs2 rs3 rs4
  refine ⟨spelledBy_formatR 0x54 rs4 rs1 rs2 rs3 0 rfl rfl, fun hs => ?_⟩
  intro a n amt hin
  have hwindow : s.inWindow a (3 * n) = true := (s.inWindow_iff a (3 * n)).2 hin
  refine ⟨_, exec_bblend hs rs1 rs2 rs3 rs4 hwindow, rfl, fun i hi => ?_, fun b hb => ?_⟩
  · rw [low_eq_triple_toNat]
    exact bblendLoop_read_toNat (s.low_le_maxN 8 rs4) _ n a s.mem hi
  · exact bblendLoop_out _ _ n a s.mem hb

end Sys2Proof.Machine
end

section
/-! PROOFS of the statements about spec/30_encoding.md. The decoder answers a command on its encoding only, which is the
round trip both ways. A row of the opcode table is taken apart into what it asks of each field, as the decoder's arm of
the same opcode does. -/

namespace Sys2Proof
open Machine Claims

/-! ### The round trip -/

/-- Settles O3: a command's encoding is the word that decodes to it. -/
theorem decodeEncodeRoundTrip : Obligations.DecodeEncodeRoundTrip := fun _ hi => decode_eq_some_iff.2 ⟨rfl, hi⟩

/-- Settles O4: no other word decodes to a command than its encoding, and the decoder checks the operands. -/
theorem encodeDecodeUnique : Obligations.EncodeDecodeUnique := by
  intro w i h
  obtain ⟨hw, hi⟩ := decode_eq_some_iff.1 h
  exact ⟨hw.symm, hi⟩

/-- Settles O5, by running the decoder on the eleven words. -/
theorem specWordsDecode : Obligations.SpecWordsDecode := by
  unfold Obligations.SpecWordsDecode
  decide

/-! ### The rows of the opcode table -/

theorem eq_iff_fields {w p : Word} : w = p ↔ fieldOp w = fieldOp p ∧ fieldRd w = fieldRd p ∧
    fieldRs1 w = fieldRs1 p ∧ fieldRs2 w = fieldRs2 p ∧ fieldRs3 w = fieldRs3 p ∧ fieldFn w = fieldFn p := by
  refine ⟨fun h => by simp only [h, and_self], fun ⟨hop, hrd, hrs1, hrs2, hrs3, hfn⟩ => ?_⟩
  rw [← wordR_fields w, hop, hrd, hrs1, hrs2, hrs3, hfn, wordR_fields]

/-- A word matches a row when each of its fields does. -/
theorem and_eq_iff_fields {w m p : Word} : w &&& m = p ↔
    fieldOp w &&& m.extractLsb' 24 8 = p.extractLsb' 24 8 ∧ fieldRd w &&& m.extractLsb' 20 4 = p.extractLsb' 20 4 ∧
      fieldRs1 w &&& m.extractLsb' 16 4 = p.extractLsb' 16 4 ∧
      fieldRs2 w &&& m.extractLsb' 12 4 = p.extractLsb' 12 4 ∧
      fieldRs3 w &&& m.extractLsb' 8 4 = p.extractLsb' 8 4 ∧ fieldFn w &&& m.extractLsb' 0 8 = p.extractLsb' 0 8 := by
  rw [eq_iff_fields]
  simp only [fieldOp, fieldRd, fieldRs1, fieldRs2, fieldRs3, fieldFn, BitVec.extractLsb'_and]

/-- The word matches the row and meets its extra constraint. -/
def rowTest (w : Word) (r : Row) : Bool := (w &&& r.mask == r.pattern) && r.extra w

theorem opcode_of_rowTest {w : Word} {r : Row} (hr : r ∈ opcodeRows) (h : rowTest w r = true) :
    r.pattern.extractLsb' 24 8 = fieldOp w := by
  have hmask : ∀ r ∈ opcodeRows, r.mask.extractLsb' 24 8 = BitVec.allOnes 8 := by decide
  simp only [rowTest, Bool.and_eq_true, beq_iff_eq, and_eq_iff_fields] at h
  obtain ⟨⟨hop, -⟩, -⟩ := h
  rw [← hop, hmask r hr, BitVec.and_allOnes]

/-- Every row fixes the whole opcode, so only the rows of the word's opcode can match it. -/
theorem any_rowTest_eq (w : Word) : opcodeRows.any (rowTest w) =
    (opcodeRows.filter fun r => r.pattern.extractLsb' 24 8 == fieldOp w).any (rowTest w) := by
  rw [Bool.eq_iff_iff]
  simp only [List.any_eq_true, List.mem_filter, beq_iff_eq]
  exact ⟨fun ⟨r, hr, h⟩ => ⟨r, ⟨hr, opcode_of_rowTest hr h⟩, h⟩, fun ⟨r, ⟨hr, _⟩, h⟩ => ⟨r, hr, h⟩⟩

/-- The opcodes of R64. -/
def opcodeNumbers : List Nat :=
  [1, 2, 3, 4, 5, 6, 7, 8, 16, 17, 18, 19, 20, 21, 22, 23, 24, 25, 26, 27, 32, 33, 48, 49, 50, 51, 64, 65, 66, 67, 68,
    80, 81, 82, 83, 84, 88, 89, 90, 91]

theorem any_rowTest_of_reserved {w : Word} (h : (fieldOp w).toNat ∉ opcodeNumbers) :
    opcodeRows.any (rowTest w) = false := by
  have hcode : ∀ r ∈ opcodeRows, (r.pattern.extractLsb' 24 8).toNat ∈ opcodeNumbers := by decide
  rw [List.any_eq_false]
  intro r hr ht
  exact h (opcode_of_rowTest hr ht ▸ hcode r hr)

/-! ### What a row asks of a field of the word -/

theorem and_fifteen (x : BitVec 4) : x &&& 15#4 = x := BitVec.and_allOnes
theorem and_twoFiftyFive (x : Byte) : x &&& 255#8 = x := BitVec.and_allOnes

theorem any_ite_none {α : Type} {c : Prop} [Decidable c] (p : α → Bool) (o : Option α) :
    (if c then o else none).any p = true ↔ c ∧ o.any p = true := by
  split <;> simp_all

theorem any_map_iff {α β : Type} (p : β → Bool) (f : α → β) (o : Option α) :
    (o.map f).any p = true ↔ ∃ a, o = some a ∧ p (f a) = true := by
  cases o <;> simp

/-! ### What a mask and an extra constraint ask of `fn` and `imm16` -/

theorem exists_widthOf_iff (fn : Byte) : (∃ v, widthOf fn = some v) ↔ fn &&& 254#8 = 0#8 := by
  rw [← Option.isSome_iff_exists]
  revert fn
  decide

theorem exists_dirOf_iff (fn : Byte) : (∃ d, dirOf fn = some d) ↔ fn &&& 252#8 = 0#8 := by
  rw [← Option.isSome_iff_exists]
  revert fn
  decide

theorem exists_chanOf_iff (w : Word) :
    (∃ c, chanOf (fieldFn w) = some c) ↔ fieldFn w &&& 252#8 = 0#8 ∧ chLegal w = true := by
  have hfn : ∀ fn : Byte, (chanOf fn).isSome = true ↔ fn &&& 252#8 = 0#8 ∧ fn.toNat % 4 ≠ 3 := by decide
  have hch : w.toNat % 4 = (fieldFn w).toNat % 4 := by rw [fieldFn_toNat]; omega
  rw [← Option.isSome_iff_exists, hfn, chLegal, hch, decide_eq_true_iff]

theorem fieldImm_eq (w : Word) : w.toNat % 2 ^ 16 = (fieldImm w).toNat := by
  rw [fieldImm_toNat, Nat.pow_zero, Nat.div_one]

theorem exists_csrOf_iff (w : Word) : (∃ n, csrOf (fieldImm w) = some n) ↔ csrLegal w = true := by
  rw [csrLegal, fieldImm_eq, csrOf]
  split <;> simp_all

theorem exists_csrOf_writable_iff (w : Word) :
    (∃ n, csrOf (fieldImm w) = some n ∧ n.writable = true) ↔ csrWriteLegal w = true := by
  rw [csrWriteLegal, fieldImm_eq, csrOf]
  split <;> simp_all [Csr.writable]

theorem any_nscaleOf_iff (w : Word) (rs2 : Reg) :
    (nscaleOf (fieldFn w) (regOf (fieldRd w)) rs2).any Instr.wellFormed = true ↔
      fieldFn w &&& 254#8 = 2#8 ∨ fieldFn w &&& 254#8 = 4#8 ∧ evenLegal w = true ∨
        fieldFn w &&& 254#8 = 6#8 ∧ evenLegal w = true := by
  have hk2 : ∀ fn : Byte, fn &&& 254#8 = 2#8 ↔ fn.toNat = 2 ∨ fn.toNat = 3 := by decide
  have hk4 : ∀ fn : Byte, fn &&& 254#8 = 4#8 ↔ fn.toNat = 4 ∨ fn.toNat = 5 := by decide
  have hk6 : ∀ fn : Byte, fn &&& 254#8 = 6#8 ↔ fn.toNat = 6 ∨ fn.toNat = 7 := by decide
  have heven : evenLegal w = true ↔ (fieldFn w).toNat % 2 = 0 ∨ (regOf (fieldRd w)).val % 2 = 0 := by
    rw [evenLegal, decide_eq_true_iff, ← regBits_toNat, regBits_regOf, fieldFn_toNat, fieldRd_toNat]
    omega
  rw [hk2, hk4, hk6, heven, nscaleOf]
  split <;> simp_all [Instr.wellFormed, laneRegOk]

/-- Settles O2: under each opcode the decoder's arm and the rows of that opcode ask the same of the other fields. -/
theorem decodeMatchesOpcodeTable : Obligations.DecodeMatchesOpcodeTable := by
  intro w
  change _ = opcodeRows.any (rowTest w)
  rw [decode, decodeFields]
  split <;> rename_i hop
  -- no row has the opcode
  case h_41 =>
    rw [any_rowTest_of_reserved (by simp_all [opcodeNumbers])]
    rfl
  all_goals
    replace hop := eq_ofNat_of_toNat_eq hop
    rw [any_rowTest_eq, Bool.eq_iff_iff, hop]
    simp [-Bool.coe_iff_coe, opcodeRows, rowTest, anyWord, and_eq_iff_fields, hop, and_fifteen, and_twoFiftyFive,
      any_ite_none, any_map_iff, Instr.wellFormed, exists_widthOf_iff, exists_dirOf_iff, exists_chanOf_iff,
      exists_csrOf_iff, exists_csrOf_writable_iff, any_nscaleOf_iff, and_assoc, and_or_left]

end Sys2Proof
end

section
/-! PROOFS of the statements about spec/60_exceptions.md, spec/70_reset_and_hazards.md and the step. What a command can
do to the invariant is read off the ways in which `exec` can answer (`ExecNext`): each fault it raises records a word
that the fault can come from. -/

namespace Sys2Proof.Machine
open Claims

/-! ### The step on each input -/

theorem step_command {s : State} {w : Word} {rest : List HostInput} (h : s.inputs = .command w :: rest) :
    step s = runWord w { s with inputs := rest } := by
  rw [step_input h, runInput, State.popInput_eq h]

theorem step_reset {s : State} {rest : List HostInput} (h : s.inputs = .reset :: rest) :
    step s = .next ({ s with inputs := rest } : State).applyReset := by
  rw [step_input h, runInput, State.popInput_eq h]

theorem step_writeByte {s : State} {a : Word} {b : Byte} {rest : List HostInput}
    (h : s.inputs = .writeByte a b :: rest) :
    step s = .next (({ s with inputs := rest } : State).hostWriteByte a b) := by
  rw [step_input h, runInput, State.popInput_eq h]

/-- In the faulted state every word, legal or not, is without effect (R244). -/
theorem runWord_faulted {s : State} (h : s.status.f = true) (w : Word) : runWord w s = .next s := by
  cases hd : decode w with
  | some i => rw [runWord_some hd, exec_faulted h]
  | none => rw [runWord_none hd, illegalWord_faulted h]

theorem withFetchWord_eq (s : State) (w : Word) : s.withFetchWord 32 w.toNat = s.presentFirst w := by
  rw [State.withFetchWord, Nat.mod_eq_of_lt w.isLt, BitVec.ofNat_toNat, BitVec.setWidth_eq]

/-- Settles O1: the word taken from the port is run by `runWord`, which asks the decoder. -/
theorem stepRunsDecodedCommand : Obligations.StepRunsDecodedCommand := by
  intro s w rest h
  refine ⟨fun i hi => ⟨(decode_eq_some_iff.1 hi).2, ?_⟩, fun hn => ?_, fun u => ?_⟩
  · rw [step_command h, runWord_some hi]
  · rw [step_command h, runWord_none hn]
  · rw [withFetchWord_eq, step_command (State.presentFirst_inputs u w)]
    rfl

/-- Settles O6: the word goes to `illegalWord`, which in a live unit is fault entry. -/
theorem illegalWordRecordsFault : Obligations.IllegalWordRecordsFault := by
  intro s w rest hs h hn
  have hlive : ({ s with inputs := rest } : State).status.f = false := hs
  rw [step_command h, runWord_none hn, illegalWord_live hlive]
  rfl

/-- Settles O7: of all inputs only reset writes `F`. -/
theorem faultedStateIgnoresEveryWord : Obligations.FaultedStateIgnoresEveryWord := by
  intro s hf
  refine ⟨exec_faulted hf, fun w rest h => ?_, fun t ht => ?_⟩
  · exact (step_command h).trans (runWord_faulted (s := { s with inputs := rest }) hf w)
  · have hpop : s.popInput.status.f = true := hf
    obtain ⟨-, rfl⟩ | ⟨w, rest, i, -, -, hi⟩ | ⟨w, rest, -, -, rfl⟩ | ⟨rest, hin, -⟩ | ⟨a, b, rest, -, rfl⟩ :=
      step_cases ht
    · exact .inl hf
    · rw [exec_faulted hpop] at hi
      cases hi
      exact .inl hf
    · rw [illegalWord_faulted hpop]
      exact .inl hf
    · exact .inr ⟨rest, hin⟩
    · exact .inl hf

/-- Settles O8, by induction on the words: each is taken and changes nothing else. -/
theorem wordsAfterFaultHaveNoEffect : Obligations.WordsAfterFaultHaveNoEffect := by
  intro ws s hf hin
  induction ws with
  | nil =>
    have hpresent : s.present [] = s := by rw [State.present, List.map_nil, List.append_nil]
    rw [hpresent]
    rfl
  | cons w ws ih =>
    have hinputs : (s.present (w :: ws)).inputs = .command w :: ws.map HostInput.command := by
      rw [State.present_inputs, hin, List.map_cons, List.nil_append]
    have hrest : { s.present (w :: ws) with inputs := ws.map HostInput.command } = s.present ws := by
      simp only [State.present, hin, List.nil_append]
    have hstep : step (s.present (w :: ws)) = .next (s.present ws) := by
      rw [step_command hinputs, hrest, runWord_faulted (s := s.present ws) hf]
    rw [List.length_cons, run_succ hstep, ih]

/-! ### The host's reset and memory writes -/

theorem reset_reg (r : Reg) : State.reset.reg r = 0 := by
  simp [State.reg, State.reset]

theorem reset_csrRead (n : Csr) : State.reset.csrRead n = if n = .id then 0x43435531 else 0 := by
  cases n with
  | lacc c => cases c <;> rfl
  | ldel c => cases c <;> rfl
  | _ => rfl

/-- A control register reads the same from two states that agree on what R15 reads. -/
theorem applyReset_csrRead (s : State) (n : Csr) : s.applyReset.csrRead n = State.reset.csrRead n := by
  cases n <;> rfl

/-- Settles O9: the registers are those of `State.reset`, the rest is kept. -/
theorem resetInputGivesResetState : Obligations.ResetInputGivesResetState := by
  intro s rest h
  exact ⟨_, step_reset h, reset_reg, fun n => (applyReset_csrRead _ n).trans (reset_csrRead n), rfl, rfl, rfl, rfl⟩

/-- Settles O10: the queue is empty, or a byte is written. -/
theorem hostActionsBetweenCommands : Obligations.HostActionsBetweenCommands :=
  ⟨fun _ h => step_idle h, fun s a b _ h => ⟨_, step_writeByte h, rfl, s.mem.read_write a.toNat b⟩⟩

/-! ### The fault record (R17, R18, R240) -/

/-- Settles O12: no fault is recorded and no byte listed. -/
theorem resetHasInvariant : Obligations.ResetHasInvariant := ⟨rfl, State.reset_mem_wf⟩

theorem statusWord_toNat (st : Status) :
    (statusWord st).toNat = (if st.f then 1 else 0) + 16 * st.fc.toNat + (if st.lx then 256 else 0) := by
  simp only [statusWord, toNat_append_add, BitVec.toNat_ofBool, BitVec.ofNat_eq_ofNat, BitVec.toNat_ofNat]
  cases st.f <;> cases st.lx <;> simp <;> omega

/-- The three causes that `FC` can name, with what the record says besides, or no fault. -/
theorem faultRecord_cases {s : State} (h : s.faultRecordOk = true) :
    (s.status.f = false ∧ s.status.fc = 0 ∧ s.finfo = 0 ∧ s.fcmd = 0) ∨
      (s.status.f = true ∧ (s.status.fc = 1 ∨ s.status.fc = 2 ∨ s.status.fc = 3)) := by
  unfold State.faultRecordOk at h
  cases hf : s.status.f <;> simp_all
  tauto

/-- Settles O13, by the four fault codes that a consistent record can have. -/
theorem statusAgreesWithFaultCode : Obligations.StatusAgreesWithFaultCode := by
  rintro s ⟨hrec, -⟩
  have hstatus := statusWord_toNat s.status
  rw [State.csrRead, hstatus]
  obtain ⟨hf, hfc, hinfo, hcmd⟩ | ⟨hf, hfc⟩ := faultRecord_cases hrec
  · rw [hf, hfc]
    refine ⟨?_, ?_, fun _ => ⟨hinfo, hcmd⟩⟩ <;> cases s.status.lx <;> simp
  · rw [hf]
    obtain hfc | hfc | hfc := hfc <;> rw [hfc] <;> cases s.status.lx <;> simp

/-! ### Every step keeps the invariant -/

/-- Whether a command has an extent does not depend on the state. -/
theorem isMemoryCommand_eq (s : State) (i : Instr) : isMemoryCommand i = (extentOf s i).isSome := by
  cases i <;> rfl

/-- The invariant speaks of the fault record and memory only. -/
theorem State.Inv.congr {s t : State} (h : s.Inv) (hr : s.SameRecord t) (hm : t.mem.wf = true) : t.Inv := by
  refine ⟨?_, hm⟩
  rw [State.faultRecordOk, hr.f, hr.fc, hr.finfo, hr.fcmd]
  exact h.1

theorem State.raiseFault_illegal_inv {s : State} (h : s.Inv) {w : Word} (hw : decode w = none) :
    (s.raiseFault .illegal 0 w).Inv :=
  ⟨by simp [State.faultRecordOk, faultNumber, hw], h.2⟩

theorem State.raiseFault_access_inv {s : State} (h : s.Inv) {w : Word} {i : Instr} (hw : decode w = some i)
    (hi : isMemoryCommand i = true) (info : Word) : (s.raiseFault .access info w).Inv :=
  ⟨by simp [State.faultRecordOk, faultNumber, hw, hi], h.2⟩

theorem State.raiseFault_spectrum_inv {s : State} (h : s.Inv) {w : Word} {rd rs1 : Reg}
    (hw : decode w = some (.hsv2spc rd rs1)) (p : Pixel) : (s.raiseFault .spectrum (p.setWidth 32) w).Inv := by
  have hp : p.toNat % 2 ^ 32 < 2 ^ 24 := (Nat.mod_le _ _).trans_lt p.isLt
  exact ⟨by simpa [State.faultRecordOk, faultNumber, hw, isSpectrumCommand] using hp, h.2⟩

theorem State.illegalWord_inv {s : State} (h : s.Inv) {w : Word} (hw : decode w = none) : (s.illegalWord w).Inv := by
  cases hf : s.status.f with
  | true => rwa [illegalWord_faulted hf]
  | false =>
    rw [illegalWord_live hf]
    exact State.raiseFault_illegal_inv h hw

/-- A term that is no command has no word. -/
theorem decode_encode_of_illFormed {i : Instr} (hi : i.wellFormed = false) : decode (encode i) = none := by
  rw [decode, decodeFields_encode, Option.filter_some, hi]
  rfl

/-- Each fault records the encoding of the command that raised it, which decodes to that command if to anything. -/
theorem ExecNext.inv {i : Instr} {s t : State} (h : ExecNext i s t) (hs : s.Inv) : t.Inv := by
  cases h with
  | faulted => exact hs
  | illegal hf hi => exact State.raiseFault_illegal_inv hs (decode_encode_of_illFormed hi)
  | access hf hi a n he hw =>
    exact State.raiseFault_access_inv hs (decode_eq_some_iff.2 ⟨rfl, hi⟩)
      ((isMemoryCommand_eq s i).trans (he ▸ rfl)) _
  | spectrum hf rd rs1 hi hb =>
    subst hi
    exact State.raiseFault_spectrum_inv hs (decode_eq_some_iff.2 ⟨rfl, rfl⟩) _
  | effect hf hi t hr hw hn hm => exact hs.congr hr (hm hs.2)

/-- Settles O11, by the kinds of a step. -/
theorem stepKeepsInvariant : Obligations.StepKeepsInvariant := by
  intro s t hs h
  have hpop : s.popInput.Inv := hs
  obtain ⟨-, rfl⟩ | ⟨w, rest, i, -, -, hi⟩ | ⟨w, rest, -, hd, rfl⟩ | ⟨rest, -, rfl⟩ | ⟨a, b, rest, -, rfl⟩ :=
    step_cases h
  · exact hs
  · exact (exec_cases hi).inv hpop
  · exact State.illegalWord_inv hpop hd
  · exact ⟨rfl, hs.2⟩
  · exact ⟨hs.1, Memory.wf_write hs.2 a.isLt b⟩

end Sys2Proof.Machine
end

section
/-! PROOFS of the statements about every command at once. Each command has one of three frames around its effect
(`exec_frame`), and its effect is described once, by what it depends on and what it leaves alone. -/

namespace Sys2Proof.Machine
open Claims

/-! ### Memories that agree on an extent -/

/-- The same bytes from `a` on, `n` of them. -/
def Memory.AgreeOn (m m' : Memory) (a n : Nat) : Prop := ∀ b, a ≤ b → b < a + n → m.read b = m'.read b

theorem Memory.AgreeOn.readPix {m m' : Memory} {a n k : Nat} (h : m.AgreeOn m' a (3 * n)) (hk : k < n) :
    m.readPix (a + 3 * k) = m'.readPix (a + 3 * k) :=
  Memory.readPix_congr fun b hlo hhi => h b (by omega) (by omega)

/-- Memories with the same pixels have the same bytes. -/
theorem Memory.agreeOn_of_readPix {m m' : Memory} {a n : Nat}
    (h : ∀ k, k < n → m.readPix (a + 3 * k) = m'.readPix (a + 3 * k)) : m.AgreeOn m' a (3 * n) := by
  intro b hlo hhi
  have hpixel : (b - a) / 3 < n := Nat.div_lt_of_lt_mul (by omega)
  apply BitVec.eq_of_toNat_eq
  rw [← Nat.add_sub_cancel' hlo, Memory.read_toNat_eq_chanNat_div, Memory.read_toNat_eq_chanNat_div, h _ hpixel]

/-! ### An effect that keeps to the extent -/

/-- The effect at `s` changes no byte outside the extent, and bytes outside it influence nothing. -/
structure Confined (effect : State → State) (s : State) (a n : Nat) : Prop where
  out : ∀ b, ¬ (a ≤ b ∧ b < a + n) → (effect s).mem.read b = s.mem.read b
  frame : ∀ m : Memory, m.AgreeOn s.mem a n → effect (s.setMem m) = (effect s).setMem (effect (s.setMem m)).mem
  inside : ∀ m : Memory, m.AgreeOn s.mem a n → (effect (s.setMem m)).mem.AgreeOn (effect s).mem a n

/-- A change of memory that keeps to the extent. -/
structure KeepsTo (f : Memory → Memory) (a n : Nat) : Prop where
  out : ∀ m b, ¬ (a ≤ b ∧ b < a + n) → (f m).read b = m.read b
  inside : ∀ m m', Memory.AgreeOn m m' a n → (f m).AgreeOn (f m') a n

/-- A command that stores: the rest of the state it leaves does not depend on memory. -/
theorem Confined.of_store {effect : State → State} {s u : State} {f : Memory → Memory} {a n : Nat}
    (h : KeepsTo f a n) (he : ∀ m, effect (s.setMem m) = u.setMem (f m)) : Confined effect s a n := by
  have hs : effect s = u.setMem (f s.mem) := he s.mem
  refine ⟨fun b hb => ?_, fun m _ => ?_, fun m hm => ?_⟩
  · rw [hs]
    exact h.out s.mem b hb
  · rw [he, hs]
    rfl
  · rw [he, hs]
    exact h.inside m s.mem hm

/-- A command that loads: it leaves memory alone. -/
theorem Confined.of_load {effect : State → State} {s : State} {rd : Reg} {v : Memory → Word} {a n : Nat}
    (hv : ∀ m m', Memory.AgreeOn m m' a n → v m = v m')
    (he : ∀ m, effect (s.setMem m) = (s.setReg rd (v m)).setMem m) : Confined effect s a n := by
  have hs : effect s = s.setReg rd (v s.mem) := he s.mem
  refine ⟨fun _ _ => ?_, fun m hm => ?_, fun m hm => ?_⟩
  · rw [hs]
    rfl
  · rw [he, hs, hv m s.mem hm]
    rfl
  · rw [he, hs]
    exact hm

theorem keepsTo_fillLoop (p : Pixel) (n a : Nat) : KeepsTo (fillLoop p n a) a (3 * n) where
  out m _ hb := fillLoop_out p n a m hb
  inside m m' _ := Memory.agreeOn_of_readPix fun k hk => by
    rw [fillLoop_readPix p n a m hk, fillLoop_readPix p n a m' hk]

theorem keepsTo_bblendLoop (o : Pixel) (amt n a : Nat) : KeepsTo (bblendLoop o amt n a) a (3 * n) where
  out m _ hb := bblendLoop_out o amt n a m hb
  inside m m' h := Memory.agreeOn_of_readPix fun k hk => by
    rw [bblendLoop_readPix o amt n a m hk, bblendLoop_readPix o amt n a m' hk, h.readPix hk]

theorem keepsTo_lfillLoop (n a : Nat) (l : Lerp) : KeepsTo (fun m => (lfillLoop n a l m).2) a (3 * n) where
  out m _ hb := lfillLoop_out n a l m hb
  inside m m' _ := Memory.agreeOn_of_readPix fun k hk => by
    rw [lfillLoop_readPix n a l m hk, lfillLoop_readPix n a l m' hk]

/-- A pixel depends on its right neighbour too, which the last one does not have. -/
theorem keepsTo_blur (a n amount : Nat) : KeepsTo (blur a n amount) a (3 * n) where
  out m _ hb := blurLoop_out _ _ n a 0 m hb
  inside m m' h := Memory.agreeOn_of_readPix fun k hk => by
    simp only [blur, blurLoop_readPix _ _ n a 0 _ hk, h.readPix hk]
    split
    · rfl
    · rw [show a + 3 * k + 3 = a + 3 * (k + 1) by omega, h.readPix (by omega)]

theorem keepsTo_batchScale (threshold a n : Nat) {f : Nat} (hf : f ≤ 255) :
    KeepsTo (batchScale threshold a n f) a n where
  out m _ hb := batchScale_out threshold a n f m hb
  inside m m' h b hlo hhi := by
    apply BitVec.eq_of_toNat_eq
    rw [batchScaleIsPerByteMap _ _ _ _ _ _ hf, batchScaleIsPerByteMap _ _ _ _ _ _ hf, h b hlo hhi]

theorem keepsTo_writePix (a : Nat) (p : Pixel) : KeepsTo (fun m => m.writePix a p) a 3 :=
  keepsTo_fillLoop p 1 a

theorem keepsTo_write (a : Nat) (v : Byte) : KeepsTo (fun m => m.write a v) a 1 where
  out m b hb := m.read_write_ne v (by omega)
  inside m m' _ b hlo hhi := by
    obtain rfl : b = a := by omega
    rw [Memory.read_write_self, Memory.read_write_self]

/-! ### The three frames -/

/-- A command that cannot fault once decoded: it neither reads nor writes memory. -/
structure PlainFrame (i : Instr) (effect : State → State) : Prop where
  exec_eq : ∀ s, exec i s = checkedCommand i.wellFormed i s effect
  extent : ∀ s, extentOf s i = none
  setMem : ∀ s m, effect (s.setMem m) = (effect s).setMem m
  lerp : touchesLerp i = false → ∀ s, (effect s).lerp = s.lerp

/-- A memory command: its effect keeps to its extent. -/
structure MemoryFrame (i : Instr) (effect : State → State) : Prop where
  exec_eq : ∀ s, exec i s = memoryCommand i s effect
  extent : ∀ s, ∃ e, extentOf s i = some e
  confined : ∀ s a n, extentOf s i = some (a, n) → Confined effect s a n
  lerp : touchesLerp i = false → ∀ s, (effect s).lerp = s.lerp

theorem csrWrite_lerp {n : Csr} {rs1 : Reg} (h : touchesLerp (.csrw n rs1) = false) (s : State) (v : Word) :
    (s.csrWrite n v).lerp = s.lerp := by
  cases n
  case lacc | ldel | lrem => cases h
  all_goals rfl

theorem csrWrite_setMem (s : State) (n : Csr) (v : Word) (m : Memory) :
    (s.setMem m).csrWrite n v = (s.csrWrite n v).setMem m := by
  cases n <;> rfl

theorem nscaleEffect_lerp (k : Nat) (w : Width) (rd rs2 : Reg) (s : State) :
    (nscaleEffect k w rd rs2 s).lerp = s.lerp := by
  cases w
  · rfl
  · simp only [nscaleEffect]
    split <;> rfl

theorem nscaleEffect_setMem (k : Nat) (w : Width) (rd rs2 : Reg) (s : State) (m : Memory) :
    nscaleEffect k w rd rs2 (s.setMem m) = (nscaleEffect k w rd rs2 s).setMem m := by
  cases w
  · rfl
  · simp only [nscaleEffect]
    split <;> rfl

theorem lfillEffect_setMem (a : Nat) (s : State) (m : Memory) :
    lfillEffect a (s.setMem m) =
      (s.setLerp { (lfillLoop s.lerp.rem.toNat a s.lerp s.mem).1 with rem := 0 }).setMem
        (lfillLoop s.lerp.rem.toNat a s.lerp m).2 := by
  simp only [lfillEffect, State.setMem_lerp, State.setMem_mem, lfillLoop_lerp]
  rfl

/-! ### The memory commands -/

theorem memoryFrame_lfill (rs1 : Reg) : MemoryFrame (.lfill rs1)
    (fun s => lfillEffect (s.count rs1) s) where
  exec_eq _ := rfl
  extent _ := ⟨_, rfl⟩
  confined s _ _ he := by
    cases he
    exact .of_store (u := s.setLerp { (lfillLoop s.lerp.rem.toNat (s.count rs1) s.lerp s.mem).1 with rem := 0 })
      (keepsTo_lfillLoop s.lerp.rem.toNat (s.count rs1) s.lerp) fun m => lfillEffect_setMem _ s m
  lerp := nofun

theorem memoryFrame_bscale (rs1 rs2 rs3 : Reg) : MemoryFrame (.bscale rs1 rs2 rs3)
    (fun s => s.setMem (batchScale s.config.batchThreshold (s.count rs1) (s.count rs2) (s.low 8 rs3) s.mem)) where
  exec_eq _ := rfl
  extent _ := ⟨_, rfl⟩
  confined s _ _ he := by
    cases he
    exact .of_store (u := s)
      (keepsTo_batchScale s.config.batchThreshold (s.count rs1) (s.count rs2) (s.low_le_maxN 8 rs3)) fun _ => rfl
  lerp _ _ := rfl

theorem memoryFrame_fade (rs1 rs2 rs3 : Reg) : MemoryFrame (.fade rs1 rs2 rs3)
    (fun s => s.setMem
      (batchScale s.config.batchThreshold (s.count rs1) (3 * s.count rs2) (255 - s.low 8 rs3) s.mem)) where
  exec_eq _ := rfl
  extent _ := ⟨_, rfl⟩
  confined s _ _ he := by
    cases he
    exact .of_store (u := s)
      (keepsTo_batchScale s.config.batchThreshold (s.count rs1) (3 * s.count rs2) (Nat.sub_le 255 (s.low 8 rs3)))
      fun _ => rfl
  lerp _ _ := rfl

theorem memoryFrame_blur (rs1 rs2 rs3 : Reg) : MemoryFrame (.blur rs1 rs2 rs3)
    (fun s => s.setMem (blur (s.count rs1) (s.count rs2) (s.low 8 rs3) s.mem)) where
  exec_eq _ := rfl
  extent _ := ⟨_, rfl⟩
  confined s _ _ he := by
    cases he
    exact .of_store (u := s) (keepsTo_blur (s.count rs1) (s.count rs2) (s.low 8 rs3)) fun _ => rfl
  lerp _ _ := rfl

theorem memoryFrame_fill (rs1 rs2 rs3 : Reg) : MemoryFrame (.fill rs1 rs2 rs3)
    (fun s => s.setMem (fillLoop (s.triple rs3) (s.count rs2) (s.count rs1) s.mem)) where
  exec_eq _ := rfl
  extent _ := ⟨_, rfl⟩
  confined s _ _ he := by
    cases he
    exact .of_store (u := s) (keepsTo_fillLoop (s.triple rs3) (s.count rs2) (s.count rs1)) fun _ => rfl
  lerp _ _ := rfl

theorem memoryFrame_bblend (rs1 rs2 rs3 rs4 : Reg) : MemoryFrame (.bblend rs1 rs2 rs3 rs4)
    (fun s => s.setMem (bblendLoop (s.triple rs3) (s.low 8 rs4) (s.count rs2) (s.count rs1) s.mem)) where
  exec_eq _ := rfl
  extent _ := ⟨_, rfl⟩
  confined s _ _ he := by
    cases he
    exact .of_store (u := s) (keepsTo_bblendLoop (s.triple rs3) (s.low 8 rs4) (s.count rs2) (s.count rs1))
      fun _ => rfl
  lerp _ _ := rfl

theorem memoryFrame_ldp (rd rs1 : Reg) (off : Byte) : MemoryFrame (.ldp rd rs1 off)
    (fun s => s.setReg rd ((s.mem.readPix (s.effective rs1 off)).setWidth 32)) where
  exec_eq _ := rfl
  extent _ := ⟨_, rfl⟩
  confined s _ _ he := by
    cases he
    exact .of_load (v := fun m => (m.readPix (s.effective rs1 off)).setWidth 32)
      (fun m m' h => congrArg _ (Memory.readPix_congr h)) fun _ => rfl
  lerp _ _ := rfl

theorem memoryFrame_stp (rs2 rs1 : Reg) (off : Byte) : MemoryFrame (.stp rs2 rs1 off)
    (fun s => s.setMem (s.mem.writePix (s.effective rs1 off) (s.triple rs2))) where
  exec_eq _ := rfl
  extent _ := ⟨_, rfl⟩
  confined s _ _ he := by
    cases he
    exact .of_store (u := s) (keepsTo_writePix (s.effective rs1 off) (s.triple rs2)) fun _ => rfl
  lerp _ _ := rfl

theorem memoryFrame_ldb (rd rs1 : Reg) (off : Byte) : MemoryFrame (.ldb rd rs1 off)
    (fun s => s.setReg rd ((s.mem.read (s.effective rs1 off)).setWidth 32)) where
  exec_eq _ := rfl
  extent _ := ⟨_, rfl⟩
  confined s _ _ he := by
    cases he
    exact .of_load (v := fun m => (m.read (s.effective rs1 off)).setWidth 32)
      (fun m m' h => congrArg _ (h _ (Nat.le_refl _) (Nat.lt_succ_self _))) fun _ => rfl
  lerp _ _ := rfl

theorem memoryFrame_stb (rs2 rs1 : Reg) (off : Byte) : MemoryFrame (.stb rs2 rs1 off)
    (fun s => s.setMem (s.mem.write (s.effective rs1 off) (s.byteOf rs2))) where
  exec_eq _ := rfl
  extent _ := ⟨_, rfl⟩
  confined s _ _ he := by
    cases he
    exact .of_store (u := s) (keepsTo_write (s.effective rs1 off) (s.byteOf rs2)) fun _ => rfl
  lerp _ _ := rfl

/-! ### Every command -/

/-- The frame of every command, with `HSV2SPC` on its own. -/
theorem exec_frame (i : Instr) :
    (∃ effect, PlainFrame i effect) ∨ (∃ effect, MemoryFrame i effect) ∨ ∃ rd rs1, i = .hsv2spc rd rs1 := by
  cases i
  case hsv2spc rd rs1 => exact .inr (.inr ⟨rd, rs1, rfl⟩)
  case csrw n rs1 =>
    exact .inl ⟨_, fun _ => rfl, fun _ => rfl, fun s m => csrWrite_setMem s n _ m, fun h s => csrWrite_lerp h s _⟩
  case nscale2 w rd rs2 =>
    exact .inl ⟨_, fun _ => rfl, fun _ => rfl, nscaleEffect_setMem 2 w rd rs2, fun _ => nscaleEffect_lerp 2 w rd rs2⟩
  case nscale3 w rd rs2 =>
    exact .inl ⟨_, fun _ => rfl, fun _ => rfl, nscaleEffect_setMem 3 w rd rs2, fun _ => nscaleEffect_lerp 3 w rd rs2⟩
  case nscale4 w rd rs2 =>
    exact .inl ⟨_, fun _ => rfl, fun _ => rfl, nscaleEffect_setMem 4 w rd rs2, fun _ => nscaleEffect_lerp 4 w rd rs2⟩
  case lsetd | lsete | ldiv => exact .inl ⟨_, fun _ => rfl, fun _ => rfl, fun _ _ => rfl, nofun⟩
  case lnext rd =>
    refine .inl ⟨_, fun _ => rfl, fun _ => rfl, fun s m => ?_, nofun⟩
    by_cases h : s.lerp.rem = 0
    · rw [if_pos h, if_pos (c := (s.setMem m).lerp.rem = 0) h]
      rfl
    · rw [if_neg h, if_neg (c := (s.setMem m).lerp.rem = 0) h]
      rfl
  case lfill rs1 => exact .inr (.inl ⟨_, memoryFrame_lfill rs1⟩)
  case bscale rs1 rs2 rs3 => exact .inr (.inl ⟨_, memoryFrame_bscale rs1 rs2 rs3⟩)
  case fade rs1 rs2 rs3 => exact .inr (.inl ⟨_, memoryFrame_fade rs1 rs2 rs3⟩)
  case blur rs1 rs2 rs3 => exact .inr (.inl ⟨_, memoryFrame_blur rs1 rs2 rs3⟩)
  case fill rs1 rs2 rs3 => exact .inr (.inl ⟨_, memoryFrame_fill rs1 rs2 rs3⟩)
  case bblend rs1 rs2 rs3 rs4 => exact .inr (.inl ⟨_, memoryFrame_bblend rs1 rs2 rs3 rs4⟩)
  case ldp rd rs1 off => exact .inr (.inl ⟨_, memoryFrame_ldp rd rs1 off⟩)
  case stp rs2 rs1 off => exact .inr (.inl ⟨_, memoryFrame_stp rs2 rs1 off⟩)
  case ldb rd rs1 off => exact .inr (.inl ⟨_, memoryFrame_ldb rd rs1 off⟩)
  case stb rs2 rs1 off => exact .inr (.inl ⟨_, memoryFrame_stb rs2 rs1 off⟩)
  all_goals exact .inl ⟨_, fun _ => rfl, fun _ => rfl, fun _ _ => rfl, fun _ _ => rfl⟩

end Sys2Proof.Machine
end

section
/-! PROOFS of the statements about faults, the accumulator and the window, for every command by its frame. -/

namespace Sys2Proof.Machine
open Claims

/-! ### Every command answers (R5) -/

theorem command_next (s : State) (effect : State → State) : ∃ t, command s effect = .next t := by
  unfold command
  split <;> exact ⟨_, rfl⟩

theorem checkedCommand_next (ok : Bool) (i : Instr) (s : State) (effect : State → State) :
    ∃ t, checkedCommand ok i s effect = .next t := by
  unfold checkedCommand
  split
  · exact command_next s effect
  · exact ⟨_, rfl⟩

theorem memoryCommand_next (i : Instr) (s : State) (effect : State → State) :
    ∃ t, memoryCommand i s effect = .next t := by
  unfold memoryCommand
  split
  · exact ⟨_, rfl⟩
  · split
    · exact ⟨_, rfl⟩
    · split <;> exact ⟨_, rfl⟩

theorem execHsv2spc_next {s : State} (h : spectrumTotal s.config) (rd rs1 : Reg) :
    ∃ t, execHsv2spc rd rs1 s = .next t := by
  cases hf : s.status.f with
  | true => exact ⟨_, execHsv2spc_faulted hf rd rs1⟩
  | false =>
    cases hb : spectrumBad s.config (s.triple rs1) with
    | true => exact ⟨_, execHsv2spc_bad hf rd rs1 hb⟩
    | false =>
      obtain ⟨c, hc⟩ := Option.isSome_iff_exists.1 (h _ hb)
      exact ⟨_, execHsv2spc_good hf rd rs1 hb hc⟩

theorem exec_next {s : State} (h : spectrumTotal s.config) (i : Instr) : ∃ t, exec i s = .next t := by
  obtain ⟨effect, hi⟩ | ⟨effect, hi⟩ | ⟨rd, rs1, rfl⟩ := exec_frame i
  · rw [hi.exec_eq]
    exact checkedCommand_next _ i s effect
  · rw [hi.exec_eq]
    exact memoryCommand_next i s effect
  · exact execHsv2spc_next h rd rs1

theorem ExecNext.config_inputs {i : Instr} {s t : State} (h : ExecNext i s t) :
    t.config = s.config ∧ t.inputs = s.inputs := by
  cases h with
  | effect hf hi t hr hw hn hm => exact ⟨hr.config, hr.inputs⟩
  | _ => exact ⟨rfl, rfl⟩

/-- Settles O14: only `HSV2SPC` can be refused, and not with a total `SPECTRUM`. -/
theorem everyCommandAnswersNextState : Obligations.EveryCommandAnswersNextState := by
  intro i s h
  obtain ⟨t, ht⟩ := exec_next h i
  exact ⟨t, ht, (exec_cases ht).config_inputs⟩

/-! ### Faults (R240, R243) -/

theorem spectrumBad_iff_violates (cfg : Config) (p : Pixel) :
    spectrumBad cfg p = true ↔ violates cfg (chan p .c0).toNat (chan p .c2).toNat := by
  unfold spectrumBad violates
  cases cfg.spectrumPre <;> simp

theorem raiseFault_eq_faultRecord (s : State) (c : FaultCode) (info w : Word) :
    s.raiseFault c info w = faultRecord s (faultNumber c).toNat info w := by
  cases c <;> rfl

/-- Settles O15: an ill-formed term is excluded, so `ILLEGAL` is; an effect leaves a live unit live. -/
theorem onlyTwoCausesAfterDecoding : Obligations.OnlyTwoCausesAfterDecoding := by
  intro i s t hi hs h ht
  cases exec_cases h with
  | faulted hf => exact absurd (hs.symm.trans hf) Bool.false_ne_true
  | illegal _ hbad => exact absurd (hbad.symm.trans hi) Bool.false_ne_true
  | access _ _ a n he hw => exact .inl ⟨rfl, a, n, he, (s.inWindow_eq_false_iff a n).1 hw⟩
  | spectrum _ rd rs1 hi hb =>
    refine .inr ⟨rfl, rd, rs1, hi, ?_⟩
    have hv := (spectrumBad_iff_violates _ _).1 hb
    have hhue : (s.triple rs1).toNat / 2 ^ 16 < 2 ^ 8 := Nat.div_lt_of_lt_mul (s.triple rs1).isLt
    rwa [chan_c0_toNat, chan_c2_toNat, Nat.pow_zero, Nat.div_one, Nat.mod_eq_of_lt hhue, State.triple_toNat] at hv
  | effect hf _ _ hr => exact absurd ((hr.f.trans hf).symm.trans ht) Bool.false_ne_true

/-- Settles O16: each of the three faults is fault entry on the state before. -/
theorem faultChangesNothingElse : Obligations.FaultChangesNothingElse := by
  intro i s t hs h ht
  cases exec_cases h with
  | faulted hf => exact absurd (hs.symm.trans hf) Bool.false_ne_true
  | effect hf _ _ hr => exact absurd ((hr.f.trans hf).symm.trans ht) Bool.false_ne_true
  | _ => exact raiseFault_eq_faultRecord s _ _ _

/-- A memory command of a live unit with its extent not inside the window does not come to its effect. -/
theorem exec_outside {i : Instr} {s : State} {a n : Nat} (hs : s.status.f = false)
    (he : extentOf s i = some (a, n)) (hw : s.inWindow a n = false) :
    exec i s = .next (s.raiseFault .access (BitVec.ofNat 32 a) (encode i)) := by
  obtain ⟨effect, hi⟩ | ⟨effect, hi⟩ | ⟨rd, rs1, rfl⟩ := exec_frame i
  · cases (hi.extent s).symm.trans he
  · rw [hi.exec_eq, memoryCommand_outside hs he hw]
  · cases he

/-- Settles O18: the extent checked is the one of R41. -/
theorem extentOutsideWindowFaults : Obligations.ExtentOutsideWindowFaults := by
  intro i s a n hs he hn
  exact exec_outside hs he ((s.inWindow_eq_false_iff a n).2 hn)

/-- No byte at 2^32 or above is inside a window, since `WLIMIT` is a word. -/
theorem not_inside_of_overflow (s : State) {a n : Nat} (ha : 2 ^ 32 ≤ a) (hn : n ≠ 0) : ¬ inside s a n := by
  have := s.wlimit.isLt
  unfold inside
  omega

/-- Settles O20: the four effective addresses are the first bytes of extents that no window holds. -/
theorem effectiveAddressOverflowFaults : Obligations.EffectiveAddressOverflowFaults := by
  intro s r rs1 off hs h i hi
  have hx := (s.reg rs1).isLt
  have hoff := off.isLt
  have hext : ∃ n, n ≠ 0 ∧ extentOf s i = some ((s.reg rs1).toNat + off.toNat, n) := by
    simp only [List.mem_cons, List.not_mem_nil, or_false] at hi
    obtain rfl | rfl | rfl | rfl := hi <;> exact ⟨_, by decide, rfl⟩
  obtain ⟨n, hn, he⟩ := hext
  have hinfo : BitVec.ofNat 32 ((s.reg rs1).toNat + off.toNat) =
      BitVec.ofNat 32 ((s.reg rs1).toNat + off.toNat - 2 ^ 32) := by
    apply BitVec.eq_of_toNat_eq
    rw [BitVec.toNat_ofNat, BitVec.toNat_ofNat]
    omega
  rw [extentOutsideWindowFaults i s _ n hs he (not_inside_of_overflow s h hn), hinfo]

/-! ### The accumulator (R265) -/

/-- Settles O24: no fault writes the accumulator, and by the command's frame neither does its effect. -/
theorem onlyLerpCommandsTouchAccumulator : Obligations.OnlyLerpCommandsTouchAccumulator := by
  intro i s t hi h
  obtain ⟨effect, hx⟩ | ⟨effect, hx⟩ | ⟨rd, rs1, rfl⟩ := exec_frame i
  · rw [hx.exec_eq] at h
    obtain ⟨-, rfl⟩ | ⟨-, -, rfl⟩ | ⟨-, -, rfl⟩ := checkedCommand_cases h
    · rfl
    · rfl
    · exact hx.lerp hi s
  · rw [hx.exec_eq] at h
    obtain ⟨e, he⟩ := hx.extent s
    obtain ⟨-, rfl⟩ | ⟨-, -, rfl⟩ | ⟨-, -, rfl⟩ := memoryCommand_cases he h
    · rfl
    · rfl
    · exact hx.lerp hi s
  · obtain ⟨-, rfl⟩ | ⟨-, -, rfl⟩ | ⟨-, -, c, -, rfl⟩ := execHsv2spc_cases h <;> rfl

/-! ### With another memory -/

@[simp] theorem extentOf_setMem (s : State) (m : Memory) (i : Instr) : extentOf (s.setMem m) i = extentOf s i := by
  cases i <;> rfl

@[simp] theorem State.setMem_inWindow (s : State) (m : Memory) (a n : Nat) :
    (s.setMem m).inWindow a n = s.inWindow a n := rfl

theorem checkedCommand_setMem {ok : Bool} {i : Instr} {s t : State} {effect : State → State} {m : Memory}
    (he : effect (s.setMem m) = (effect s).setMem m) (h : checkedCommand ok i s effect = .next t) :
    checkedCommand ok i (s.setMem m) effect = .next (t.setMem m) := by
  obtain ⟨hf, rfl⟩ | ⟨hf, hok, rfl⟩ | ⟨hf, hok, rfl⟩ := checkedCommand_cases h
  · cases ok with
    | true => rw [checkedCommand_ok rfl, command_faulted (s := t.setMem m) hf]
    | false => rw [checkedCommand_illegal rfl, illegalWord_faulted (s := t.setMem m) hf]
  · rw [checkedCommand_illegal hok, illegalWord_live (s := s.setMem m) hf]
    rfl
  · rw [checkedCommand_ok hok, command_live (s := s.setMem m) hf, he]

theorem execHsv2spc_setMem {rd rs1 : Reg} {s t : State} (h : execHsv2spc rd rs1 s = .next t) (m : Memory) :
    execHsv2spc rd rs1 (s.setMem m) = .next (t.setMem m) := by
  obtain ⟨hf, rfl⟩ | ⟨hf, hb, rfl⟩ | ⟨hf, hb, c, hc, rfl⟩ := execHsv2spc_cases h
  · exact execHsv2spc_faulted (s := t.setMem m) hf rd rs1
  · exact execHsv2spc_bad (s := s.setMem m) hf rd rs1 hb
  · exact execHsv2spc_good (s := s.setMem m) hf rd rs1 hb hc

/-- A command without an extent does the same whatever memory holds, and leaves it. -/
theorem exec_setMem_of_extent_none {i : Instr} {s t : State} (he : extentOf s i = none) (h : exec i s = .next t)
    (m : Memory) : exec i (s.setMem m) = .next (t.setMem m) := by
  obtain ⟨effect, hi⟩ | ⟨effect, hi⟩ | ⟨rd, rs1, rfl⟩ := exec_frame i
  · rw [hi.exec_eq] at h ⊢
    exact checkedCommand_setMem (hi.setMem s m) h
  · obtain ⟨e, he'⟩ := hi.extent s
    cases he.symm.trans he'
  · exact execHsv2spc_setMem h m

theorem ExecNext.mem_of_extent_none {i : Instr} {s t : State} (h : ExecNext i s t) (he : extentOf s i = none) :
    t.mem = s.mem := by
  cases h with
  | effect hf hi t hr hw hn hm => exact hn he
  | _ => rfl

/-- Settles O17: a command without an extent has a frame in which memory plays no part. -/
theorem onlyTenCommandsAccessMemory : Obligations.OnlyTenCommandsAccessMemory :=
  ⟨fun _ _ _ _ _ _ _ => ⟨rfl, rfl, rfl, rfl, rfl, rfl, rfl, rfl, rfl, rfl⟩,
    fun _ _ _ he h => ⟨(exec_cases h).mem_of_extent_none he, exec_setMem_of_extent_none he h⟩⟩

/-! ### The window (R19, R46) -/

/-- The window holds every byte of an extent that is inside it. -/
theorem State.window_of_inWindow {s : State} {a n b : Nat} (hw : s.inWindow a n = true) (hlo : a ≤ b)
    (hhi : b < a + n) : s.wbase.toNat ≤ b ∧ b < s.wlimit.toNat := by
  obtain h | ⟨h1, h2⟩ := (s.inWindow_iff a n).1 hw <;> omega

/-- The statement of isolation for one run and another memory. -/
structure Isolated (s t : State) (m : Memory) (t' : State) : Prop where
  kept : ∀ a, ¬ (s.wbase.toNat ≤ a ∧ a < s.wlimit.toNat) → t.mem.read a = s.mem.read a
  frame : t' = t.setMem t'.mem
  agree : ∀ a, s.wbase.toNat ≤ a → a < s.wlimit.toNat → t'.mem.read a = t.mem.read a
  kept' : ∀ a, ¬ (s.wbase.toNat ≤ a ∧ a < s.wlimit.toNat) → t'.mem.read a = m.read a

/-- A run that leaves memory alone. -/
theorem Isolated.of_mem_eq {s t : State} {m : Memory}
    (hm : ∀ a, s.wbase.toNat ≤ a → a < s.wlimit.toNat → m.read a = s.mem.read a) (ht : t.mem = s.mem) :
    Isolated s t m (t.setMem m) :=
  ⟨fun _ _ => by rw [ht], rfl, fun a hlo hhi => by rw [ht]; exact hm a hlo hhi, fun _ _ => rfl⟩

/-- An effect that keeps to an extent inside the window. -/
theorem Isolated.of_confined {s : State} {m : Memory} {effect : State → State} {a n : Nat}
    (hm : ∀ a, s.wbase.toNat ≤ a → a < s.wlimit.toNat → m.read a = s.mem.read a) (hw : s.inWindow a n = true)
    (hs : Confined effect s a n) (hs' : Confined effect (s.setMem m) a n) :
    Isolated s (effect s) m (effect (s.setMem m)) := by
  have hagree : m.AgreeOn s.mem a n := fun b hlo hhi =>
    have hb := State.window_of_inWindow hw hlo hhi
    hm b hb.1 hb.2
  have hout : ∀ b, ¬ (s.wbase.toNat ≤ b ∧ b < s.wlimit.toNat) → ¬ (a ≤ b ∧ b < a + n) :=
    fun b hb h => hb (State.window_of_inWindow hw h.1 h.2)
  refine ⟨fun b hb => hs.out b (hout b hb), hs.frame m hagree, fun b hlo hhi => ?_, fun b hb => hs'.out b (hout b hb)⟩
  by_cases h : a ≤ b ∧ b < a + n
  · exact hs.inside m hagree b h.1 h.2
  · rw [hs.out b h, hs'.out b h]
    exact hm b hlo hhi

theorem exec_isolated {i : Instr} {s t : State} {m : Memory}
    (hm : ∀ a, s.wbase.toNat ≤ a → a < s.wlimit.toNat → m.read a = s.mem.read a) (h : exec i s = .next t) :
    ∃ t', exec i (s.setMem m) = .next t' ∧ Isolated s t m t' := by
  obtain he | ⟨⟨a, n⟩, he⟩ := Option.eq_none_or_eq_some (extentOf s i)
  · exact ⟨_, exec_setMem_of_extent_none he h m, .of_mem_eq hm ((exec_cases h).mem_of_extent_none he)⟩
  have he' : extentOf (s.setMem m) i = some (a, n) := (extentOf_setMem s m i).trans he
  obtain ⟨effect, hi⟩ | ⟨effect, hi⟩ | ⟨rd, rs1, rfl⟩ := exec_frame i
  · cases (hi.extent s).symm.trans he
  · rw [hi.exec_eq] at h ⊢
    obtain ⟨hf, rfl⟩ | ⟨hf, hw, rfl⟩ | ⟨hf, hw, rfl⟩ := memoryCommand_cases he h
    · exact ⟨_, memoryCommand_faulted (s := t.setMem m) hf i effect, .of_mem_eq hm rfl⟩
    · exact ⟨_, memoryCommand_outside (s := s.setMem m) hf he' hw effect,
        .of_mem_eq (t := s.raiseFault .access (BitVec.ofNat 32 a) (encode i)) hm rfl⟩
    · exact ⟨_, memoryCommand_inside (s := s.setMem m) hf he' hw effect,
        .of_confined hm hw (hi.confined s a n he) (hi.confined _ a n he')⟩
  · cases he

/-- Settles O21: effects keep to their extents, and these to the window. -/
theorem windowIsolatesMemory : Obligations.WindowIsolatesMemory := by
  intro i s t m hm h
  obtain ⟨t', ht', hiso⟩ := exec_isolated hm h
  exact ⟨hiso.kept, t', ht', hiso.frame, hiso.agree, hiso.kept'⟩

end Sys2Proof.Machine
end

section
/-! PROOFS of the statements about the memory port. Each access of a command lies in its extent, which the check has put
inside the window; and a command that can change memory writes every byte of its extent. -/

namespace Sys2Proof.Machine
open Claims

/-! ### Accesses inside an extent (R44, R45) -/

/-- The access is one byte of the extent, or four of it at a multiple of four. -/
def Access.FitsIn (x : Access) (a n : Nat) : Prop :=
  a ≤ x.addr ∧ x.addr + x.width ≤ a + n ∧ (x.width = 1 ∨ (x.width = 4 ∧ x.addr % 4 = 0))

theorem Access.FitsIn.mono {x : Access} {a n a' n' : Nat} (h : x.FitsIn a n) (hlo : a' ≤ a)
    (hhi : a + n ≤ a' + n') : x.FitsIn a' n' := by
  obtain ⟨h1, h2, h3⟩ := h
  exact ⟨by omega, by omega, h3⟩

theorem fitsIn_of_mem_pixelAccesses {k : AccessKind} {a : Nat} {x : Access} (hx : x ∈ pixelAccesses k a) :
    x.FitsIn a 3 := by
  simp only [pixelAccesses, List.mem_cons, List.not_mem_nil, or_false] at hx
  obtain rfl | rfl | rfl := hx
  all_goals exact ⟨by simp, by simp, .inl rfl⟩

/-- A loop whose accesses for the pixel at `b` keep to it and the pixels after it. -/
theorem fitsIn_of_mem_pixelLoop {per : Nat → Nat → List Access}
    (hper : ∀ left b, ∀ x ∈ per left b, x.FitsIn b (3 * (left + 1))) {n a : Nat} {x : Access}
    (hx : x ∈ pixelLoop per n a) : x.FitsIn a (3 * n) := by
  induction n generalizing a with
  | zero => cases hx
  | succ n ih =>
    obtain h | h := List.mem_append.1 hx
    · exact hper n a x h
    · exact (ih h).mono (by omega) (by omega)

theorem fitsIn_of_mem_fillAccesses (left b : Nat) (x : Access) (hx : x ∈ fillAccesses left b) :
    x.FitsIn b (3 * (left + 1)) :=
  (fitsIn_of_mem_pixelAccesses hx).mono (Nat.le_refl b) (by omega)

theorem fitsIn_of_mem_bblendAccesses (left b : Nat) (x : Access) (hx : x ∈ bblendAccesses left b) :
    x.FitsIn b (3 * (left + 1)) := by
  obtain h | h := List.mem_append.1 hx <;> exact (fitsIn_of_mem_pixelAccesses h).mono (Nat.le_refl b) (by omega)

/-- `BLUR` reads the next pixel only when there is one (R201). -/
theorem fitsIn_of_mem_blurAccesses (left b : Nat) (x : Access) (hx : x ∈ blurAccesses left b) :
    x.FitsIn b (3 * (left + 1)) := by
  rw [blurAccesses, List.mem_append, List.mem_append] at hx
  obtain (h | h) | h := hx
  · exact (fitsIn_of_mem_pixelAccesses h).mono (Nat.le_refl b) (by omega)
  · split at h
    · cases h
    · exact (fitsIn_of_mem_pixelAccesses h).mono (by omega) (by omega)
  · exact (fitsIn_of_mem_pixelAccesses h).mono (Nat.le_refl b) (by omega)

/-- The word steps begin where the head ends, at a multiple of four (R141). -/
theorem word_aligned_of_mem_batchSteps {threshold a n w : Nat} (hx : BatchStep.word w ∈ batchSteps threshold a n) :
    w % 4 = 0 := by
  unfold batchSteps at hx
  split at hx
  · cases hx
  · split at hx
    · simp [byteSteps] at hx
    · simp only [byteSteps, wordSteps, splitExtent, List.mem_append, List.mem_map, List.mem_range, reduceCtorEq,
        and_false, exists_false, false_or, or_false, BatchStep.word.injEq] at hx
      obtain ⟨j, hj, rfl⟩ := hx
      omega

theorem fitsIn_of_mem_batchAccesses {threshold a n : Nat} {x : Access}
    (hx : x ∈ (batchSteps threshold a n).flatMap stepAccesses) : x.FitsIn a n := by
  obtain ⟨st, hst, hx⟩ := List.mem_flatMap.1 hx
  cases st with
  | byte w =>
    have hw := batchSteps_touches hst (b := w) rfl
    simp only [stepAccesses, List.mem_cons, List.not_mem_nil, or_false] at hx
    obtain rfl | rfl := hx <;> exact ⟨hw.1, hw.2, .inl rfl⟩
  | word w =>
    have hlo := batchSteps_touches hst (b := w) ⟨Nat.le_refl w, by omega⟩
    have hhi := batchSteps_touches hst (b := w + 3) ⟨by omega, by omega⟩
    have hal := word_aligned_of_mem_batchSteps hst
    simp only [stepAccesses, List.mem_cons, List.not_mem_nil, or_false] at hx
    obtain rfl | rfl := hx <;> exact ⟨hlo.1, hhi.2, .inr ⟨rfl, hal⟩⟩

theorem fitsIn_of_mem_effectAccesses {i : Instr} {s : State} {a n : Nat} (he : extentOf s i = some (a, n))
    {x : Access} (hx : x ∈ effectAccesses s i) : x.FitsIn a n := by
  cases i <;> cases he
  case bscale => exact fitsIn_of_mem_batchAccesses hx
  case fade => exact fitsIn_of_mem_batchAccesses hx
  case lfill | fill => exact fitsIn_of_mem_pixelLoop fitsIn_of_mem_fillAccesses hx
  case blur => exact fitsIn_of_mem_pixelLoop fitsIn_of_mem_blurAccesses hx
  case bblend => exact fitsIn_of_mem_pixelLoop fitsIn_of_mem_bblendAccesses hx
  case ldp | stp => exact fitsIn_of_mem_pixelAccesses hx
  case ldb | stb =>
    obtain rfl := List.mem_singleton.1 hx
    exact ⟨Nat.le_refl _, Nat.le_refl _, .inl rfl⟩

/-- A command makes accesses only when live and with its extent inside the window (R46, R244). -/
theorem mem_accesses_iff {i : Instr} {s : State} {x : Access} : x ∈ accesses i s ↔
    s.status.f = false ∧ ∃ a n, extentOf s i = some (a, n) ∧ s.inWindow a n = true ∧ x ∈ effectAccesses s i := by
  unfold accesses
  cases s.status.f with
  | true => simp
  | false =>
    cases extentOf s i with
    | none => simp
    | some e =>
      obtain ⟨a, n⟩ := e
      simp

/-- Settles O22: an access has a byte, so an extent that holds one is not empty and lies inside the window. -/
theorem accessesAlignedInsideWindow : Obligations.AccessesAlignedInsideWindow := by
  intro i s x hx
  obtain ⟨-, a, n, he, hw, hx⟩ := mem_accesses_iff.1 hx
  obtain ⟨hlo, hhi, hwidth⟩ := fitsIn_of_mem_effectAccesses he hx
  obtain h | ⟨h1, h2⟩ := (s.inWindow_iff a n).1 hw
  · omega
  · exact ⟨by omega, by omega, hwidth⟩

/-! ### Every byte that a storing command may change is written -/

/-- One of the accesses writes the byte at `b`. -/
def WritesByte (l : List Access) (b : Nat) : Prop :=
  ∃ x ∈ l, x.kind = .write ∧ x.addr ≤ b ∧ b < x.addr + x.width

theorem WritesByte.mono {l l' : List Access} {b : Nat} (h : WritesByte l b) (hl : ∀ x ∈ l, x ∈ l') :
    WritesByte l' b := by
  obtain ⟨x, hx, hwrite⟩ := h
  exact ⟨x, hl x hx, hwrite⟩

theorem writesByte_pixelAccesses {a b : Nat} (hlo : a ≤ b) (hhi : b < a + 3) :
    WritesByte (pixelAccesses .write a) b := by
  obtain rfl | rfl | rfl : b = a ∨ b = a + 1 ∨ b = a + 2 := by omega
  all_goals exact ⟨⟨.write, _, 1⟩, by simp [pixelAccesses], rfl, Nat.le_refl _, Nat.lt_succ_self _⟩

/-- A loop that writes every pixel it comes to. -/
theorem writesByte_pixelLoop {per : Nat → Nat → List Access}
    (hper : ∀ left b, ∀ x ∈ pixelAccesses .write b, x ∈ per left b) {n a b : Nat} (hlo : a ≤ b)
    (hhi : b < a + 3 * n) : WritesByte (pixelLoop per n a) b := by
  induction n generalizing a with
  | zero => omega
  | succ n ih =>
    by_cases h : b < a + 3
    · exact (writesByte_pixelAccesses hlo h).mono fun x hx => List.mem_append_left _ (hper n a x hx)
    · exact (ih (a := a + 3) (by omega) (by omega)).mono fun x hx => List.mem_append_right _ hx

/-- The step that covers a byte writes it. -/
theorem writesByte_batchAccesses (threshold : Nat) {a n b : Nat} (hlo : a ≤ b) (hhi : b < a + n) :
    WritesByte ((batchSteps threshold a n).flatMap stepAccesses) b := by
  have hcount := batchStepsCoverExtentOnce threshold a n b
  rw [if_pos ⟨hlo, hhi⟩] at hcount
  obtain ⟨st, hst, hcov⟩ := List.countP_pos_iff.1 (hcount ▸ Nat.one_pos)
  have htouch := (covers_iff_touches b st).1 hcov
  have hstep : WritesByte (stepAccesses st) b := by
    cases st with
    | byte w =>
      obtain rfl : b = w := htouch
      exact ⟨⟨.write, b, 1⟩, by simp [stepAccesses], rfl, Nat.le_refl _, Nat.lt_succ_self _⟩
    | word w => exact ⟨⟨.write, w, 4⟩, by simp [stepAccesses], rfl, htouch.1, htouch.2⟩
  exact hstep.mono fun x hx => List.mem_flatMap.2 ⟨st, hst, hx⟩

/-- The two commands that read memory and do not write it. -/
def isLoad : Instr → Bool
  | .ldp _ _ _ => true
  | .ldb _ _ _ => true
  | _ => false

theorem writesByte_effectAccesses {i : Instr} {s : State} {a n b : Nat} (he : extentOf s i = some (a, n))
    (hi : isLoad i = false) (hlo : a ≤ b) (hhi : b < a + n) : WritesByte (effectAccesses s i) b := by
  cases i <;> cases he
  case bscale => exact writesByte_batchAccesses _ hlo hhi
  case fade => exact writesByte_batchAccesses _ hlo hhi
  case lfill | fill => exact writesByte_pixelLoop (fun _ _ _ hx => hx) hlo hhi
  case blur | bblend => exact writesByte_pixelLoop (fun _ _ _ hx => List.mem_append_right _ hx) hlo hhi
  case stp => exact writesByte_pixelAccesses hlo hhi
  case stb => exact ⟨_, List.mem_singleton_self _, rfl, hlo, hhi⟩
  case ldp | ldb => cases hi

theorem MemoryFrame.mem_of_effect {i : Instr} {effect : State → State} {s t : State} (hi : MemoryFrame i effect)
    (h : exec i s = .next t) (hm : (effect s).mem = s.mem) : t.mem = s.mem := by
  obtain ⟨e, he⟩ := hi.extent s
  rw [hi.exec_eq] at h
  obtain ⟨-, rfl⟩ | ⟨-, -, rfl⟩ | ⟨-, -, rfl⟩ := memoryCommand_cases he h
  · rfl
  · rfl
  · exact hm

theorem exec_mem_of_isLoad {i : Instr} {s t : State} (hi : isLoad i = true) (h : exec i s = .next t) :
    t.mem = s.mem := by
  cases i <;> cases hi
  case ldp rd rs1 off => exact (memoryFrame_ldp rd rs1 off).mem_of_effect h rfl
  case ldb rd rs1 off => exact (memoryFrame_ldb rd rs1 off).mem_of_effect h rfl

/-- A byte that a command changes lies in its extent, which is inside the window. -/
theorem extent_of_changed {i : Instr} {s t : State} {b : Nat} (h : exec i s = .next t)
    (hb : t.mem.read b ≠ s.mem.read b) :
    s.status.f = false ∧ ∃ a n, extentOf s i = some (a, n) ∧ s.inWindow a n = true ∧ a ≤ b ∧ b < a + n := by
  obtain he | ⟨⟨a, n⟩, he⟩ := Option.eq_none_or_eq_some (extentOf s i)
  · exact absurd (congrArg (Memory.read · b) ((exec_cases h).mem_of_extent_none he)) hb
  obtain ⟨effect, hi⟩ | ⟨effect, hi⟩ | ⟨rd, rs1, rfl⟩ := exec_frame i
  · cases (hi.extent s).symm.trans he
  · rw [hi.exec_eq] at h
    obtain ⟨hf, rfl⟩ | ⟨hf, hw, rfl⟩ | ⟨hf, hw, rfl⟩ := memoryCommand_cases he h
    · exact absurd rfl hb
    · exact absurd rfl hb
    · exact ⟨hf, a, n, he, hw, Classical.not_not.1 fun hn => hb ((hi.confined s a n he).out b hn)⟩
  · cases he

/-- Settles O23: the changed byte is in the extent, of which a command that is no load writes every byte. -/
theorem changedBytesAreWritten : Obligations.ChangedBytesAreWritten := by
  intro i s t b h hb
  obtain ⟨hf, a, n, he, hw, hlo, hhi⟩ := extent_of_changed h hb
  have hi : isLoad i = false := Bool.eq_false_iff.2 fun hi => hb (by rw [exec_mem_of_isLoad hi h])
  exact (writesByte_effectAccesses he hi hlo hhi).mono fun x hx => mem_accesses_iff.2 ⟨hf, a, n, he, hw, hx⟩

end Sys2Proof.Machine
end

section
/-! PROOFS of the statements about spec/40_move_system.md. Each command is one register write or one write of a control
register; before them, for the statements of every family, the words of format I and the writing of a word. -/

namespace Sys2Proof

namespace Claims
open Machine

theorem wordI_eq_cmdI (op : Byte) (rd rs1 : BitVec 4) (imm : Half) :
    wordI op rd rs1 imm = cmdI op.toNat rd.toNat rs1.toNat imm.toNat := by
  rw [cmdI, ← wordI_toNat, BitVec.ofNat_toNat, BitVec.setWidth_eq]

/-- The word of a command of format I. -/
theorem spelledBy_formatI (op : Byte) (rd rs1 : Reg) (imm : Half) {i : Instr} (hi : i.wellFormed = true)
    (he : encode i = wordI op (regBits rd) (regBits rs1) imm) : spelledBy i (cmdI op.toNat rd rs1 imm.toNat) := by
  have hw := spelledBy_encode hi
  rwa [he, wordI_eq_cmdI] at hw

theorem csrNumber_toNat (n : Csr) : (csrNumber n).toNat = csrNo n := by
  cases n with
  | lacc c => cases c <;> rfl
  | ldel c => cases c <;> rfl
  | _ => rfl

theorem chanBits_toNat (c : Chan) : (chanBits c).toNat = chNo c := by cases c <;> rfl

/-- The word of a command with a `ch` field (R65). -/
theorem spelledBy_chanWord (op : Byte) (rd rs1 rs2 : Reg) (c : Chan) {i : Instr} (hi : i.wellFormed = true)
    (he : encode i = wordR op (regBits rd) (regBits rs1) (regBits rs2) 0 (chanBits c)) :
    spelledBy i (cmdR op.toNat rd rs1 rs2 0 (chNo c)) :=
  chanBits_toNat c ▸ spelledBy_formatR op rd rs1 rs2 0 (chanBits c) hi he

end Claims

namespace Machine
open Claims

/-! ### Writing a word -/

theorem next_onlyReg_setReg {i : Instr} {s : State} {rd : Reg} {v : Word} {k : Nat}
    (h : exec i s = .next (s.setReg rd v)) (hv : v.toNat = k) : ∃ t, exec i s = .next t ∧ onlyReg s t rd k := by
  refine ⟨_, h, rfl, ?_, fun r hr => s.setReg_reg_ne rd v hr⟩
  rw [State.setReg_reg_self, hv]

theorem setWidth_word_toNat {n : Nat} (x : BitVec n) (hn : n ≤ 32) : (x.setWidth 32).toNat = x.toNat := by
  rw [BitVec.toNat_setWidth, Nat.mod_eq_of_lt (x.isLt.trans_le (Nat.pow_le_pow_right (by decide) hn))]

/-! ### Control registers as numbers (R15, R17, R21) -/

theorem signExtend_half_toNat (d : Half) :
    (d.signExtend 32).toNat = if d.toNat < 2 ^ 15 then d.toNat else d.toNat + (2 ^ 32 - 2 ^ 16) := by
  have hd := d.isLt
  rw [BitVec.toNat_signExtend, BitVec.msb_eq_decide, setWidth_word_toNat d (by decide)]
  simp only [decide_eq_true_eq]
  split <;> split <;> omega

theorem csrRead_toNat (s : State) (n : Csr) : (s.csrRead n).toNat = csrReads s n := by
  cases n with
  | status => exact statusWord_toNat s.status
  | lacc c => exact setWidth_word_toNat _ (by decide)
  | ldel c => exact signExtend_half_toNat _
  | lrem => exact setWidth_word_toNat _ (by decide)
  | _ => rfl

/-! ### Terms that are no command -/

/-- Only the commands with a check of R67 (d) or (e) have ill-formed terms. -/
theorem exec_of_illFormed {i : Instr} {s : State} (hs : s.status.f = false) (hi : i.wellFormed = false) :
    exec i s = .next (faultRecord s 1 0 (encode i)) := by
  have hill : Host.Outcome.next (s.illegalWord (encode i)) = (.next (faultRecord s 1 0 (encode i)) : Result) := by
    rw [illegalWord_live hs]
    rfl
  cases i
  case csrw | nscale3 | nscale4 => exact (checkedCommand_illegal hi _ s _).trans hill
  all_goals cases hi

/-! ### The statements -/

/-- Settles O25: each result is one word written to `x[rd]`. -/
theorem moveCommands : Obligations.MoveCommands := by
  intro s rd rs1 imm
  refine ⟨spelledBy_formatR 0x01 0 0 0 0 0 rfl rfl, spelledBy_formatI 0x02 rd 0 imm rfl rfl,
    spelledBy_formatI 0x03 rd 0 imm rfl rfl, spelledBy_formatR 0x04 rd rs1 0 0 0 rfl rfl, ?_,
    fun hs => ⟨?_, ?_, ?_⟩⟩
  · cases hf : s.status.f with
    | true => exact exec_faulted hf _
    | false => exact exec_nop hf
  · exact next_onlyReg_setReg (exec_li hs rd imm) (setWidth_word_toNat imm (by decide))
  · refine next_onlyReg_setReg (exec_lih hs rd imm) ?_
    rw [toNat_append_add, State.halfOf_toNat, low]
  · exact next_onlyReg_setReg (exec_mv hs rd rs1) rfl

/-- Settles O26: the word written is the register as it reads. -/
theorem csrrReadsEveryRegister : Obligations.CsrrReadsEveryRegister := by
  intro s rd n
  have hword := spelledBy_formatI 0x05 rd 0 (csrNumber n) (i := .csrr rd n) rfl rfl
  rw [csrNumber_toNat] at hword
  exact ⟨hword, csrRead_toNat s n, fun hs => next_onlyReg_setReg (exec_csrr hs rd n) (csrRead_toNat s n)⟩

/-- Settles O27: of the accumulator registers only the one named is put, with the low 16 bits. -/
theorem csrwWritesEveryRegister : Obligations.CsrwWritesEveryRegister := by
  intro s rs1 hs
  have hlow : ((s.reg rs1).setWidth 16).toNat = low s rs1 16 := BitVec.toNat_setWidth ..
  refine ⟨fun n hn => ?_, exec_csrw hs rfl rs1, exec_csrw hs rfl rs1, fun c => ?_, fun c => ?_, ?_⟩
  · have hword := spelledBy_formatI 0x06 0 rs1 (csrNumber n) (i := .csrw n rs1) hn rfl
    rwa [csrNumber_toNat] at hword
  · refine ⟨_, exec_csrw hs rfl rs1, rfl, ?_, fun d hd => PerChan.get_put_ne _ _ hd⟩
    exact (congrArg BitVec.toNat (PerChan.get_put_self ..)).trans hlow
  · refine ⟨_, exec_csrw hs rfl rs1, rfl, ?_, fun d hd => PerChan.get_put_ne _ _ hd⟩
    exact (congrArg BitVec.toNat (PerChan.get_put_self ..)).trans hlow
  · exact ⟨_, exec_csrw hs rfl rs1, hlow, rfl⟩

/-- Settles O28: the words are the encodings of terms that are no command. -/
theorem illFormedCommandsAreIllegal : Obligations.IllFormedCommandsAreIllegal := by
  intro s n rd rs hs
  refine ⟨fun hn => ?_, fun hrd => ?_⟩
  · have hword : encode (.csrw n rs) = cmdI 0x06 0 rs (csrNo n) := by
      rw [← csrNumber_toNat]
      exact wordI_eq_cmdI 0x06 0 (regBits rs) (csrNumber n)
    rw [← hword]
    exact ⟨decode_encode_of_illFormed hn, exec_of_illFormed hs hn⟩
  · have hlane : laneRegOk .w16 rd = false := by simp [laneRegOk, hrd]
    have hword3 : encode (.nscale3 .w16 rd rs) = cmdR 0x19 rd 0 rs 0 5 :=
      wordR_eq_cmdR 0x19 (regBits rd) 0 (regBits rs) 0 5
    have hword4 : encode (.nscale4 .w16 rd rs) = cmdR 0x19 rd 0 rs 0 7 :=
      wordR_eq_cmdR 0x19 (regBits rd) 0 (regBits rs) 0 7
    rw [← hword3, ← hword4]
    exact ⟨decode_encode_of_illFormed hlane, decode_encode_of_illFormed hlane, exec_of_illFormed hs hlane,
      exec_of_illFormed hs hlane⟩

/-- Settles O29: a triple as the sum of its channels, and a channel by its number. -/
theorem packAndChan : Obligations.PackAndChan := by
  intro s rd rs1 rs2 rs3 c
  refine ⟨spelledBy_formatR 0x07 rd rs1 rs2 rs3 0 rfl rfl, spelledBy_chanWord 0x08 rd rs1 0 c rfl rfl,
    fun hs => ⟨?_, ?_⟩⟩
  · have hpack := next_onlyReg_triple (exec_pack hs rd rs1 rs2 rs3)
    rwa [pack_toNat, State.byteOf_toNat, State.byteOf_toNat, State.byteOf_toNat] at hpack
  · refine next_onlyReg_setReg (exec_chan hs rd rs1 c) ?_
    rw [setWidth_word_toNat _ (by decide), low_eq_triple_toNat, chanNat_chNo]

end Machine

end Sys2Proof
end

section
/-! PROOFS of the statements about spec/41_scalar_fixed_point.md that a function of R100 to R106 obeys a law, and of the
x-wide scale of R120. The laws are proved at every width; only the half-range threshold of R104 asks for N ≥ 1, and the
zeros of the raw dim for N even. -/

namespace Sys2Proof.Machine
open Claims

/-! ### Laws of the scalar functions (R107) -/

section Laws
variable {n x y : Nat}

theorem scaleN_maxN (n x : Nat) : scaleN n x (maxN n) = x := by
  rw [scaleN, maxN_add_one, Nat.mul_div_cancel _ (Nat.two_pow_pos n)]

theorem scaleN_zero (hx : x < 2 ^ n) : scaleN n x 0 = 0 := by
  rw [scaleN, Nat.zero_add, Nat.mul_one, Nat.div_eq_of_lt hx]

/-- The 1 that R101 adds keeps a product of non-zero operands from collapsing. -/
theorem scaleVideoN_eq_zero_iff (n x y : Nat) : scaleVideoN n x y = 0 ↔ x = 0 ∨ y = 0 := by
  unfold scaleVideoN
  split
  next h => exact ⟨fun h0 => absurd h0 (Nat.succ_ne_zero _), fun h0 => by omega⟩
  next h =>
    have hzero : x = 0 ∨ y = 0 := by omega
    obtain rfl | rfl := hzero <;> simp

theorem blendN_zero (hy : y < 2 ^ n) (x : Nat) : blendN n x y 0 = x := by
  rw [blendN_eq, Nat.sub_zero, maxN_add_one, Nat.zero_add, Nat.mul_one, Nat.mul_comm,
    Nat.mul_add_div (Nat.two_pow_pos n), Nat.div_eq_of_lt hy, Nat.add_zero]

theorem blendN_maxN (hx : x < 2 ^ n) (y : Nat) : blendN n x y (maxN n) = y := by
  rw [blendN_eq, Nat.sub_self, maxN_add_one, Nat.zero_add, Nat.mul_one, Nat.add_comm, Nat.mul_comm,
    Nat.mul_add_div (Nat.two_pow_pos n), Nat.div_eq_of_lt hx, Nat.add_zero]

theorem dimVideoN_eq_zero_iff (n x : Nat) : dimVideoN n x = 0 ↔ x = 0 :=
  (scaleVideoN_eq_zero_iff n x x).trans (or_self_iff ..)

/-- `x (x + 1)` reaches `h²` exactly when `x` reaches `h`. -/
theorem mul_succ_lt_sq_iff (x h : Nat) : x * (x + 1) < h * h ↔ x < h := by
  constructor
  · intro hlt
    by_contra hle
    exact absurd (Nat.mul_le_mul (Nat.not_lt.1 hle) (Nat.le_succ_of_le (Nat.not_lt.1 hle))) (Nat.not_le.2 hlt)
  · intro hlt
    exact Nat.mul_lt_mul_of_lt_of_le hlt hlt (Nat.zero_lt_of_lt hlt)

theorem dimRawN_eq_zero_iff (hn : n % 2 = 0) (x : Nat) : dimRawN n x = 0 ↔ x < 2 ^ (n / 2) := by
  have hsq : 2 ^ n = 2 ^ (n / 2) * 2 ^ (n / 2) := by rw [← pow_add]; congr 1; omega
  rw [dimRawN, scaleN, Nat.div_eq_zero_iff_lt (Nat.two_pow_pos n), hsq, mul_succ_lt_sq_iff]

theorem two_pow_eq_half (hn : 0 < n) : 2 ^ n = 2 ^ (n - 1) * 2 := by
  rw [← pow_succ, Nat.sub_add_cancel hn]

/-- From the half range on, `dim_raw` is at least the halving that R104 has below it. -/
theorem halved_le_dimRawN (hn : 0 < n) (hx : 2 ^ (n - 1) ≤ x) : (x + 1) / 2 ≤ dimRawN n x := by
  rw [dimRawN, scaleN, two_pow_eq_half hn]
  calc (x + 1) / 2 = 2 ^ (n - 1) * (x + 1) / (2 ^ (n - 1) * 2) := (Nat.mul_div_mul_left _ _ (Nat.two_pow_pos _)).symm
    _ ≤ x * (x + 1) / (2 ^ (n - 1) * 2) := Nat.div_le_div_right (Nat.mul_le_mul_right _ hx)

theorem dimLinN_eq_zero_iff (hn : 0 < n) (x : Nat) : dimLinN n x = 0 ↔ x = 0 := by
  have hpos := Nat.two_pow_pos (n - 1)
  unfold dimLinN
  split
  next => omega
  next h =>
    have := halved_le_dimRawN hn (Nat.not_lt.1 h)
    omega

/-- R104: the two lines meet at the half range. -/
theorem dimLinN_threshold (hn : 1 < n) : dimLinN n (2 ^ (n - 1) - 1) = dimLinN n (2 ^ (n - 1)) := by
  have hpos := Nat.two_pow_pos (n - 1)
  have heven := two_pow_eq_half (n := n - 1) (by omega)
  rw [dimLinN, if_pos (by omega), dimLinN, if_neg (Nat.lt_irrefl _), dimRawN, scaleN,
    two_pow_eq_half (n := n) (by omega), Nat.mul_div_mul_left _ _ hpos]
  omega

end Laws

/-! ### Monotonicity (R107 g) -/

section Monotone
variable {n x y z u : Nat}

theorem scaleN_mono (hxy : x ≤ y) (hzu : z ≤ u) : scaleN n x z ≤ scaleN n y u :=
  Nat.div_le_div_right (Nat.mul_le_mul hxy (Nat.succ_le_succ hzu))

theorem scaleVideoN_mono (hxy : x ≤ y) (hzu : z ≤ u) : scaleVideoN n x z ≤ scaleVideoN n y u := by
  refine Nat.add_le_add (Nat.div_le_div_right (Nat.mul_le_mul hxy hzu)) ?_
  by_cases h : x ≠ 0 ∧ z ≠ 0
  · obtain ⟨hx, hz⟩ := h
    rw [if_pos ⟨hx, hz⟩, if_pos ⟨by omega, by omega⟩]
  · rw [if_neg h]
    exact Nat.zero_le _

theorem dimLinN_mono (hn : 0 < n) (hxy : x ≤ y) : dimLinN n x ≤ dimLinN n y := by
  unfold dimLinN
  split
  next hx =>
    split
    next => omega
    next hy => exact (by omega : (x + 1) / 2 ≤ (y + 1) / 2).trans (halved_le_dimRawN hn (Nat.not_lt.1 hy))
  next hx =>
    rw [if_neg (by omega)]
    exact scaleN_mono hxy hxy

theorem blendN_mono (hxy : x ≤ y) (hzu : z ≤ u) (amt : Nat) : blendN n x z amt ≤ blendN n y u amt := by
  rw [blendN_eq, blendN_eq]
  exact Nat.div_le_div_right (Nat.add_le_add (Nat.mul_le_mul_right _ hxy) (Nat.mul_le_mul_right _ hzu))

/-- A mirrored function (R105) is monotone with the function it mirrors. -/
theorem mirrored_mono {f : Nat → Nat} (hf : ∀ {a b}, a ≤ b → f a ≤ f b) (top : Nat) (hxy : x ≤ y) :
    top - f (top - x) ≤ top - f (top - y) :=
  Nat.sub_le_sub_left (hf (Nat.sub_le_sub_left hxy top)) top

end Monotone

theorem widthN_pos (w : Width) : 1 < widthN w := by cases w <;> decide
theorem widthN_even (w : Width) : widthN w % 2 = 0 := by cases w <;> rfl

/-- Settles O34, law by law; both widths are even and above 1. -/
theorem scalarLaws : Obligations.ScalarLaws := by
  intro w x y hx hy
  rw [bitsN_eq_widthN] at *
  have hn := widthN_pos w
  have hy' : y ≤ maxN (widthN w) := Nat.le_pred_of_lt hy
  have hx' : x ≤ maxN (widthN w) := Nat.le_pred_of_lt hx
  exact ⟨scaleN_maxN _ x, scaleN_zero hx, scaleVideoN_eq_zero_iff _ x y, (scaleVideoN_le x hy').trans hx',
    blendN_zero hy x, blendN_maxN hx y, dimLinN_eq_zero_iff (by omega) x, dimVideoN_eq_zero_iff _ x,
    dimRawN_eq_zero_iff (widthN_even w) x, dimLinN_threshold hn, fun h8 => by rw [h8, scaleN]; omega⟩

/-- Settles O35: products, quotients by 2^N and mirrored functions are monotone. -/
theorem scalarFunctionsMonotone : Obligations.ScalarFunctionsMonotone := by
  intro w x y z u
  rw [bitsN_eq_widthN]
  intro n hxy _ hzu _
  have hn : 0 < n := Nat.zero_lt_of_lt (widthN_pos w)
  have hraw : ∀ {a b}, a ≤ b → dimRawN n a ≤ dimRawN n b := fun h => scaleN_mono h h
  have hvideo : ∀ {a b}, a ≤ b → dimVideoN n a ≤ dimVideoN n b := fun h => scaleVideoN_mono h h
  exact ⟨scaleN_mono hxy hzu, scaleVideoN_mono hxy hzu, hraw hxy, hvideo hxy, dimLinN_mono hn hxy,
    mirrored_mono hraw _ hxy, mirrored_mono hvideo _ hxy, mirrored_mono (dimLinN_mono hn) _ hxy,
    fun amt _ => blendN_mono hxy hzu amt⟩

/-! ### The lanes of the x-wide scale (R120) -/

theorem lane8_append (a b c d : Byte) : lane8 (a ++ b ++ c ++ d) 0 = d ∧ lane8 (a ++ b ++ c ++ d) 1 = c ∧
    lane8 (a ++ b ++ c ++ d) 2 = b ∧ lane8 (a ++ b ++ c ++ d) 3 = a := by
  refine ⟨?_, ?_, ?_, ?_⟩
  all_goals
    apply BitVec.eq_of_toNat_eq
    simp only [lane8_toNat, toNat_append_add]
    omega

theorem lane8_scaleLanes8 (k s : Nat) (w : Word) {j : Nat} (hj : j < 4) :
    lane8 (scaleLanes8 k s w) j = scaledLane8 k s w j := by
  obtain ⟨h0, h1, h2, h3⟩ := lane8_append (scaledLane8 k s w 3) (scaledLane8 k s w 2) (scaledLane8 k s w 1)
    (scaledLane8 k s w 0)
  obtain rfl | rfl | rfl | rfl : j = 0 ∨ j = 1 ∨ j = 2 ∨ j = 3 := by omega
  · exact h0
  · exact h1
  · exact h2
  · exact h3

theorem lane16_scaleLanes16 (k s : Nat) (w : Word) {j : Nat} (hj : j < 2) :
    lane16 (scaleLanes16 k s w) j = scaledLane16 k s w j := by
  apply BitVec.eq_of_toNat_eq
  rw [lane16_toNat, scaleLanes16, toNat_append_add]
  obtain rfl | rfl : j = 0 ∨ j = 1 := by omega
  all_goals omega

/-- A scaled lane keeps to its lane, since the scale never exceeds its first operand. -/
theorem scaledLane8_toNat (k : Nat) {s : Nat} (hs : s ≤ maxN 8) (w : Word) (j : Nat) :
    (scaledLane8 k s w j).toNat = if j < k then scaleFn 8 (lane8 w j).toNat s else (lane8 w j).toNat := by
  rw [scaledLane8]
  split
  next =>
    rw [BitVec.toNat_ofNat, Nat.mod_eq_of_lt ((scaleN_le _ hs).trans_lt (lane8 w j).isLt)]
    rfl
  next => rfl

theorem scaledLane16_toNat (k : Nat) {s : Nat} (hs : s ≤ maxN 16) (w : Word) (j : Nat) :
    (scaledLane16 k s w j).toNat = if j < k then scaleFn 16 (lane16 w j).toNat s else (lane16 w j).toNat := by
  rw [scaledLane16]
  split
  next =>
    rw [BitVec.toNat_ofNat, Nat.mod_eq_of_lt ((scaleN_le _ hs).trans_lt (lane16 w j).isLt)]
    rfl
  next => rfl

theorem scaleLanes8_lane_toNat (k : Nat) {s : Nat} (hs : s ≤ maxN 8) (w : Word) {j : Nat} (hj : j < 4) :
    (scaleLanes8 k s w).toNat / 2 ^ (8 * j) % 2 ^ 8 =
      if j < k then scaleFn 8 (w.toNat / 2 ^ (8 * j) % 2 ^ 8) s else w.toNat / 2 ^ (8 * j) % 2 ^ 8 := by
  rw [← lane8_toNat, lane8_scaleLanes8 _ _ _ hj, scaledLane8_toNat _ hs, lane8_toNat]

theorem scaleLanes16_lane_toNat (k : Nat) {s : Nat} (hs : s ≤ maxN 16) (w : Word) {j : Nat} (hj : j < 2) :
    (scaleLanes16 k s w).toNat / 2 ^ (16 * j) % 2 ^ 16 =
      if j < k then scaleFn 16 (w.toNat / 2 ^ (16 * j) % 2 ^ 16) s else w.toNat / 2 ^ (16 * j) % 2 ^ 16 := by
  rw [← lane16_toNat, lane16_scaleLanes16 _ _ _ hj, scaledLane16_toNat _ hs, lane16_toNat]

/-- Settles O36: the factor is read from the state before, so `rs2` = `rd` makes no difference. -/
theorem nscaleByteLanes : Obligations.NscaleByteLanes := by
  intro s rd rs2 hs
  refine ⟨spelledBy_formatR 0x19 rd 0 rs2 0 2 rfl rfl, spelledBy_formatR 0x19 rd 0 rs2 0 4 rfl rfl,
    spelledBy_formatR 0x19 rd 0 rs2 0 6 rfl rfl, fun p hp => ?_⟩
  have hexec : exec p.1 s = .next (s.setReg rd (scaleLanes8 p.2 (s.low 8 rs2) (s.reg rd))) := by
    simp only [List.mem_cons, List.not_mem_nil, or_false] at hp
    obtain rfl | rfl | rfl := hp
    · exact exec_nscale2 hs .w8 rd rs2
    · exact exec_nscale3 hs rfl rs2
    · exact exec_nscale4 hs rfl rs2
  refine ⟨_, hexec, rfl, fun r hr => s.setReg_reg_ne rd _ hr, fun j hj => ?_⟩
  rw [State.setReg_reg_self]
  exact scaleLanes8_lane_toNat p.2 (s.low_le_maxN 8 rs2) _ hj

theorem nextReg_eq {rd nx : Reg} (h : nx.val = rd.val + 1) : nextReg rd = nx := by
  apply Fin.ext
  rw [nextReg, Fin.val_add, h]
  exact Nat.mod_eq_of_lt (h ▸ nx.isLt)

/-- A word as its two half-word lanes. -/
theorem word_toNat_eq_halves (w : Word) :
    w.toNat = w.toNat / 2 ^ (16 * 1) % 2 ^ 16 * 2 ^ 16 + w.toNat / 2 ^ (16 * 0) % 2 ^ 16 := by
  omega

/-- Settles O37: two lanes are in `x[rd]`, the others in the next register, which is not `rd`. -/
theorem nscaleHalfLanes : Obligations.NscaleHalfLanes := by
  intro s rd nx rs2 hs
  have hf := s.low_le_maxN 16 rs2
  refine ⟨spelledBy_formatR 0x19 rd 0 rs2 0 3 rfl rfl, ?_, fun hrd hnx => ?_⟩
  · refine next_onlyReg_setReg (exec_nscale2 hs .w16 rd rs2) ?_
    have hhi : (s.reg rd).toNat / 2 ^ (16 * 1) % 2 ^ 16 = (s.reg rd).toNat / 2 ^ 16 := by omega
    have hlo : (s.reg rd).toNat / 2 ^ (16 * 0) % 2 ^ 16 = (s.reg rd).toNat % 2 ^ 16 := by omega
    rw [word_toNat_eq_halves, scaleLanes16_lane_toNat 2 hf _ (by decide), scaleLanes16_lane_toNat 2 hf _ (by decide),
      hhi, hlo]
    rfl
  · have hlane : laneRegOk .w16 rd = true := by simp [laneRegOk, hrd]
    have hne : nx ≠ rd := fun h => by subst h; omega
    refine ⟨spelledBy_formatR 0x19 rd 0 rs2 0 5 hlane rfl, spelledBy_formatR 0x19 rd 0 rs2 0 7 hlane rfl,
      fun p hp => ?_⟩
    have hexec : 2 < p.2 ∧ exec p.1 s = .next ((s.setReg rd (scaleLanes16 p.2 (s.low 16 rs2) (s.reg rd))).setReg nx
        (scaleLanes16 (p.2 - 2) (s.low 16 rs2) (s.reg nx))) := by
      rw [← nextReg_eq hnx]
      simp only [List.mem_cons, List.not_mem_nil, or_false] at hp
      obtain rfl | rfl := hp
      · exact ⟨Nat.lt_of_sub_eq_succ rfl, exec_nscale3 hs hlane rs2⟩
      · exact ⟨Nat.lt_of_sub_eq_succ rfl, exec_nscale4 hs hlane rs2⟩
    obtain ⟨hk, hexec⟩ := hexec
    refine ⟨_, hexec, rfl, fun r hr hr' => ?_, fun j hj => ⟨?_, ?_⟩⟩
    · rw [State.setReg_reg_ne _ _ _ hr', State.setReg_reg_ne _ _ _ hr]
    · rw [State.setReg_reg_ne _ _ _ hne.symm, State.setReg_reg_self, scaleLanes16_lane_toNat _ hf _ hj,
        if_pos (by omega)]
      rfl
    · rw [State.setReg_reg_self, scaleLanes16_lane_toNat _ hf _ hj]
      simp only [Nat.lt_sub_iff_add_lt]
      rfl

end Sys2Proof.Machine
end

section
/-! PROOFS of the statements about spec/45_hue.md that remain: the formulas of the default mappings, whose channels are
sums of bounded parts, the command `HSV2SPC`, and the ranges of the hue distance. -/

namespace Sys2Proof.Machine
open Claims

/-! ### A triple of three numbers (R14) -/

theorem packNat_toNat {a b c : Nat} (ha : a < 2 ^ 8) (hb : b < 2 ^ 8) (hc : c < 2 ^ 8) :
    (packNat a b c).toNat = a * 2 ^ 16 + b * 2 ^ 8 + c := by
  rw [packNat, pack_toNat, BitVec.toNat_ofNat, BitVec.toNat_ofNat, BitVec.toNat_ofNat, Nat.mod_eq_of_lt ha,
    Nat.mod_eq_of_lt hb, Nat.mod_eq_of_lt hc]

/-- Every channel is within a bound that the three numbers keep. -/
theorem chanNat_packNat_le {a b c v : Nat} (hv : v < 2 ^ 8) (ha : a ≤ v) (hb : b ≤ v) (hc : c ≤ v) {k : Nat}
    (hk : k < 3) : chanNat (packNat a b c).toNat k ≤ v := by
  rw [packNat_toNat (by omega) (by omega) (by omega)]
  obtain rfl | rfl | rfl : k = 0 ∨ k = 1 ∨ k = 2 := by omega
  all_goals
    simp only [chanNat]
    omega

/-! ### The default rainbow (R182) -/

theorem rainbowDefault_toNat (h : Byte) :
    let off8 := h.toNat % 32 * 8
    let row := rainbowRow (h.toNat / 32) (scaleFn 8 off8 85) (scaleFn 8 off8 170)
    (rainbowDefault h).toNat = row.1 * 2 ^ 16 + row.2.1 * 2 ^ 8 + row.2.2 := by
  intro off8 row
  have hthird : scaleN 8 (hueOffset h) 85 ≤ 83 := by unfold scaleN hueOffset; omega
  have htwo : scaleN 8 (hueOffset h) 170 ≤ 165 := by unfold scaleN hueOffset; omega
  have hh := h.isLt
  obtain hs | hs | hs | hs | hs | hs | hs | hs : h.toNat / 32 = 0 ∨ h.toNat / 32 = 1 ∨ h.toNat / 32 = 2 ∨
    h.toNat / 32 = 3 ∨ h.toNat / 32 = 4 ∨ h.toNat / 32 = 5 ∨ h.toNat / 32 = 6 ∨ h.toNat / 32 = 7 := by omega
  all_goals
    simp only [rainbowDefault, hueSection, hs, row, rainbowRow]
    exact packNat_toNat (by omega) (by omega) (by omega)

/-- Settles O40: in each section of the default the three channels are bytes. -/
theorem hueToRgbCommand : Obligations.HueToRgbCommand := by
  refine ⟨fun s rd rs1 => ⟨spelledBy_formatR 0x30 rd rs1 0 0 0 rfl rfl, fun hs => ?_⟩, fun cfg h hcfg => ?_⟩
  · have hbyte : BitVec.ofNat 8 (low s rs1 8) = s.byteOf rs1 := (eq_ofNat_of_toNat_eq (s.byteOf_toNat rs1)).symm
    rw [hbyte]
    exact next_onlyReg_triple (exec_hue2rgb hs rd rs1)
  · rw [hueRainbow, hcfg]
    exact rainbowDefault_toNat h

/-- The green channel of section 1 does not decrease (R181 constraint 5). -/
theorem rainbow_green_rising (cfg : Config) {h k : Byte} (hh : 32 ≤ h.toNat) (hhk : h.toNat ≤ k.toNat)
    (hk : k.toNat < 64) : (chan (hueRainbow cfg h) .c1).toNat ≤ (chan (hueRainbow cfg k) .c1).toNat := by
  have hl := cfg.lawful
  simp only [rainbowConstraints, Bool.and_eq_true] at hl
  obtain ⟨⟨-, -, hrising⟩, -⟩ := hl
  simp only [hueRainbow, ← rampAt_of_hue _ _ 1 h (by omega), ← rampAt_of_hue _ _ 1 k (by omega)]
  exact rising_le hrising (by omega) (by omega)

/-- Settles O41: the standard configuration holds the default mappings, and every configuration is lawful. -/
theorem defaultRainbowIsLawful : Obligations.DefaultRainbowIsLawful := by
  obtain ⟨hsection0, hsection1, hlawful⟩ := Config_rainbowLawful Config.standard
  refine ⟨hlawful, fun h k hhk hk => ?_, fun h k hh hhk hk => ?_⟩
  · simp only [chanNat_zero, chanNat_one]
    exact hsection0 h k hhk hk
  · simp only [chanNat_zero, chanNat_one]
    exact ⟨congrArg BitVec.toNat (hsection1 h k hh (by omega) (by omega) hk),
      rainbow_green_rising Config.standard hh hhk hk⟩

/-! ### The spectrum path (R187, R188) -/

/-- Settles O43, by the three ways `HSV2SPC` can go in a live unit. -/
theorem spectrumCommand : Obligations.SpectrumCommand := by
  intro s rd rs1
  refine ⟨spelledBy_formatR 0x32 rd rs1 0 0 0 rfl rfl, fun hs => ?_⟩
  have hword : encode (.hsv2spc rd rs1) = cmdR 0x32 rd rs1 0 0 0 :=
    wordR_eq_cmdR 0x32 (regBits rd) (regBits rs1) 0 0 0
  rw [low_eq_triple_toNat, ← hword]
  simp only [chanNat_zero, chanNat_two, ← spectrumBad_iff_violates, Bool.not_eq_true, BitVec.ofNat_toNat,
    BitVec.setWidth_eq]
  refine ⟨fun hb => ?_, fun hb => ⟨fun c hc => ?_, fun hc => ?_⟩⟩
  · exact (execHsv2spc_bad hs rd rs1 hb).trans (congrArg _ (raiseFault_eq_faultRecord s _ _ _))
  · exact next_onlyReg_triple (exec_hsv2spc hs rd hb hc)
  · exact execHsv2spc_undefined hs rd rs1 hb hc

theorem spectrumValue_builtin {cfg : Config} (hcfg : cfg.spectrum = .builtin) {p : Pixel}
    (hp : (chan p .c0).toNat ≤ 191) : spectrumValue cfg p = some (spectrumDefault p) := by
  rw [spectrumValue, hcfg]
  exact if_pos hp

/-- A share `off / 64` of the amplitude, with the floor, is at most the value. -/
theorem spectrumRamp_le {off v floor : Nat} (hoff : off ≤ 63) (hfloor : floor ≤ v) :
    off * (v - floor) / 64 + floor ≤ v := by
  have hshare : off * (v - floor) / 64 ≤ v - floor :=
    Nat.div_le_of_le_mul (Nat.mul_le_mul_right _ (hoff.trans (by decide)))
  omega

/-- Settles O44: in each section the channels are the rising ramp, the falling one and the floor. -/
theorem defaultSpectrumFormula : Obligations.DefaultSpectrumFormula := by
  refine ⟨fun cfg p hcfg hp => ?_, fun p hp => ?_⟩
  · intro h v floor amp up down
    have hhue : h ≤ 191 := hp
    have hv : v < 2 ^ 8 := Nat.mod_lt _ (by decide)
    have hfloor : floor ≤ v := Nat.div_le_of_le_mul ((Nat.mul_le_mul_left v (by omega)).trans_eq (Nat.mul_comm ..))
    have hup : up ≤ v := spectrumRamp_le (by omega) hfloor
    have hdown : down ≤ v := spectrumRamp_le (by omega) hfloor
    rw [chanNat_zero] at hp
    refine ⟨_, spectrumValue_builtin hcfg hp, ?_⟩
    have hdefault : spectrumDefault p = match h / 64 with
        | 0 => packNat down up floor
        | 1 => packNat floor down up
        | _ => packNat up floor down := by
      simp only [spectrumDefault, ← chanNat_zero, ← chanNat_one, ← chanNat_two] <;> rfl
    rw [hdefault]
    obtain hs | hs | hs : h / 64 = 0 ∨ h / 64 = 1 ∨ h / 64 = 2 := by omega
    · rw [hs, if_pos (by omega)]
      exact ⟨fun k hk => chanNat_packNat_le hv hdown hup hfloor hk, packNat_toNat (by omega) (by omega) (by omega)⟩
    · rw [hs, if_neg (by omega), if_pos (by omega)]
      exact ⟨fun k hk => chanNat_packNat_le hv hfloor hdown hup hk, packNat_toNat (by omega) (by omega) (by omega)⟩
    · rw [hs, if_neg (by omega), if_neg (by omega)]
      exact ⟨fun k hk => chanNat_packNat_le hv hup hfloor hdown hk, packNat_toNat (by omega) (by omega) (by omega)⟩
  · have hhue : (chan p .c0).toNat ≤ 191 := by
      by_contra hgt
      have hbad := (spectrumBad_iff_violates Config.standard p).2 (.inr (.inr ⟨rfl, .inr (Nat.lt_of_not_le hgt)⟩))
      exact Bool.false_ne_true (hp.symm.trans hbad)
    rw [spectrumValue_builtin rfl hhue]
    rfl

/-! ### The hue distance (R190) -/

theorem hueDiff_self (a : Byte) : hueDiff a a = 0 := by
  rw [hueDiff, BitVec.sub_self]
  rfl

/-- The two ways round the hue circle make up the whole circle, unless the hues are equal. -/
theorem hueDiff_add {a b : Byte} (h : a ≠ b) :
    0 < hueDiff a b ∧ 0 < hueDiff b a ∧ hueDiff a b + hueDiff b a = 256 := by
  have hne : a.toNat ≠ b.toNat := fun h' => h (BitVec.eq_of_toNat_eq h')
  have ha := a.isLt
  have hb := b.isLt
  simp only [hueDiff, BitVec.toNat_sub]
  omega

/-- Settles O46: for unequal hues the distances in the two directions add up to 256 steps. -/
theorem hueDistanceRanges : Obligations.HueDistanceRanges := by
  intro a b
  rw [hueDist_shortest, hueDist_longest, hueDist_forward, hueDist_backwards]
  by_cases h : a = b
  · subst h
    simp only [hueDiff_self]
    refine ⟨by decide, by decide, by decide, by decide, by decide, fun hne => absurd rfl hne, fun d => ?_⟩
    cases d <;> simp [hueDist_shortest, hueDist_longest, hueDist_forward, hueDist_backwards, hueDiff_self]
  · obtain ⟨hfwd, hback, hsum⟩ := hueDiff_add h
    refine ⟨by omega, by omega, by omega, by omega, ?_, fun _ => ?_, fun d => ?_⟩
    · rw [abs_le]
      split <;> omega
    · rw [le_abs]
      split <;> omega
    · refine iff_of_false ?_ h
      cases d with
      | forward => rw [hueDist_forward]; omega
      | backwards => rw [hueDist_backwards]; omega
      | shortest => rw [hueDist_shortest, hueDist_forward, hueDist_backwards]; split <;> omega
      | longest => rw [hueDist_longest, hueDist_forward, hueDist_backwards]; split <;> omega

end Sys2Proof.Machine
end

section
/-! PROOFS of the statements about spec/44_lerp.md that remain: the construction of a channel, and the fill, whose triple
`k` is what the accumulator yields after `k` advances. -/

namespace Sys2Proof.Machine
open Claims

theorem startAcc_toNat (start : Byte) : (startAcc start).toNat = start.toNat * 256 := by
  simpa [startAcc] using toNat_append_add start 0#8

/-- The distance is at most 255 × 128 either way, which a signed half-word holds (R163). -/
theorem endDistance_toInt (start stop : Byte) :
    (endDistance start stop).toInt = ((stop.toNat : Int) - start.toNat) * 128 := by
  have hstart := start.isLt
  have hstop := stop.isLt
  exact BitVec.toInt_ofInt_eq_self (by decide) (by omega) (by omega)

/-- Settles O47: both commands write the accumulator and the delta of the one channel. -/
theorem lerpConstruction : Obligations.LerpConstruction := by
  intro s c rs1 rs2
  have hstart : (startAcc (s.byteOf rs1)).toNat = low s rs1 8 * 256 := by
    rw [startAcc_toNat, State.byteOf_toNat, low]
  refine ⟨spelledBy_chanWord 0x40 0 rs1 rs2 c rfl rfl, spelledBy_chanWord 0x41 0 rs1 rs2 c rfl rfl,
    fun hs => ⟨⟨_, exec_lsetd hs c rs1 rs2, rfl, ?_, ?_, fun d hd => ⟨?_, ?_⟩⟩,
      ⟨_, exec_lsete hs c rs1 rs2, rfl, ?_, ?_, fun d hd => ⟨?_, ?_⟩⟩⟩⟩
  · exact (congrArg BitVec.toNat (PerChan.get_put_self ..)).trans hstart
  · exact (congrArg BitVec.toNat (PerChan.get_put_self ..)).trans (s.halfOf_toNat rs2)
  · exact PerChan.get_put_ne _ _ hd
  · exact PerChan.get_put_ne _ _ hd
  · exact (congrArg BitVec.toNat (PerChan.get_put_self ..)).trans hstart
  · refine (congrArg BitVec.toInt (PerChan.get_put_self ..)).trans ?_
    rw [endDistance_toInt, State.byteOf_toNat, State.byteOf_toNat]
    rfl
  · exact PerChan.get_put_ne _ _ hd
  · exact PerChan.get_put_ne _ _ hd

/-! ### The fill (R170, R172) -/

theorem chan_triple (l : Lerp) (c : Chan) : chan l.triple c = topByte (l.acc.get c) := by
  cases c
  · exact chan_pack_c0 _ _ _
  · exact chan_pack_c1 _ _ _
  · exact chan_pack_c2 _ _ _

theorem chNo_lt (c : Chan) : chNo c < 3 := by cases c <;> decide

theorem lfillLoop_read_toNat (n a : Nat) (l : Lerp) (m : Memory) {k : Nat} (hk : k < n) (c : Chan) :
    ((lfillLoop n a l m).2.read (a + 3 * k + chNo c)).toNat =
      ((l.acc.get c).toNat + k * (l.del.get c).toNat) % 65536 / 256 := by
  rw [Memory.read_toNat_eq_chanNat _ _ (chNo_lt c), lfillLoop_readPix n a l m hk, chanNat_chNo, chan_triple,
    topByte_toNat, Lerp.advance_iterate_acc]
  rfl

/-- The fill leaves the accumulators advanced once for each triple, and no triple left. -/
theorem lfillEffect_eq (a : Nat) (s : State) : lfillEffect a s =
    (s.setMem (lfillLoop s.lerp.rem.toNat a s.lerp s.mem).2).setLerp
      { s.lerp with acc := (Lerp.advance^[s.lerp.rem.toNat] s.lerp).acc, rem := 0 } := by
  simp only [lfillEffect, lfillLoop_lerp, Lerp.advance_iterate_del]

/-- Settles O50, from what the loop leaves in each pixel and in the accumulator. -/
theorem lerpFillClosedForm : Obligations.LerpFillClosedForm := by
  intro s rs1
  refine ⟨spelledBy_formatR 0x44 0 rs1 0 0 0 rfl rfl, fun hs => ?_⟩
  intro a n hin
  have hexec := exec_lfill hs rs1 ((s.inWindow_iff a (3 * n)).2 hin)
  rw [lfillEffect_eq] at hexec
  exact ⟨_, hexec, rfl, s.lerp.advance_iterate_acc n, fun k c hk => lfillLoop_read_toNat n a s.lerp s.mem hk c,
    fun b hb => lfillLoop_out n a s.lerp s.mem hb⟩

end Sys2Proof.Machine
end

section
/-! PROOFS of the statements about spec/20_memory.md, spec/43_batch_scale.md and spec/46_buffer_ops.md that remain. A byte
of a buffer is a channel of its pixel, and what a command's loop leaves in a pixel is known from the loop. -/

namespace Sys2Proof.Machine
open Claims

/-! ### The word access (R42) -/

/-- Settles O60: byte `k` of the word is its lane `k`. -/
theorem wordAccessIsLittleEndian : Obligations.WordAccessIsLittleEndian := by
  intro m a v
  refine ⟨?_, fun k hk => ?_, fun b hb => ?_⟩
  · rw [Memory.read4_toNat]
    omega
  · rw [Memory.read_write4, if_pos ⟨by omega, by omega⟩, Nat.add_sub_cancel_left, lane8_toNat]
  · rw [Memory.read_write4, if_neg hb]

/-! ### Batch scaling (R142 to R149) -/

/-- Settles O51: the byte at position `j` is lane `j`, which is scaled alone. -/
theorem lanesScaleEachByte : Obligations.LanesScaleEachByte := by
  intro w sc j _ hsc hj
  calc (lanes w sc).toNat / 2 ^ (8 * j) % 256 = (lane8 (lanes w sc) j).toNat := (lane8_toNat _ j).symm
    _ = (scaleByte sc (lane8 w j)).toNat := by rw [lane8_lanes hsc w hj]
    _ = (lane8 w j).toNat * sc / 256 := scaleByte_toNat hsc _
    _ = w.toNat / 2 ^ (8 * j) % 256 * sc / 256 := congrArg (· * sc / 256) (lane8_toNat w j)

/-- Settles O54: the batch scaler is the per-byte map, with the factor of each command. -/
theorem batchCommands : Obligations.BatchCommands := by
  intro s rs1 rs2 rs3
  refine ⟨spelledBy_formatR 0x50 0 rs1 rs2 rs3 0 rfl rfl, spelledBy_formatR 0x51 0 rs1 rs2 rs3 0 rfl rfl,
    fun hs => ?_⟩
  intro a n f
  refine ⟨fun hin => ?_, fun hin => ?_⟩
  · exact ⟨_, exec_bscale hs rs1 rs2 rs3 ((s.inWindow_iff a n).2 hin), rfl,
      fun b => batchScaleIsPerByteMap _ a n f s.mem b (s.low_le_maxN 8 rs3)⟩
  · exact ⟨_, exec_fade hs rs1 rs2 rs3 ((s.inWindow_iff a (3 * n)).2 hin), rfl,
      fun b => batchScaleIsPerByteMap _ a (3 * n) (255 - f) s.mem b (Nat.sub_le ..)⟩

/-! ### The blur (R200 to R203) -/

theorem chanNat_padd {p q : Pixel} {k : Nat} (hk : k < 3) (h : chanNat p.toNat k + chanNat q.toNat k ≤ 255) :
    chanNat (padd p q).toNat k = chanNat p.toNat k + chanNat q.toNat k := by
  rw [padd, chanNat_pzip qaddN_byte_lt p q hk]
  exact Nat.min_eq_left h

theorem chanNat_pscale_of_le (p : Pixel) {s : Nat} (hs : s ≤ maxN 8) {k : Nat} (hk : k < 3) :
    chanNat (pscale p s).toNat k = scaleN 8 (chanNat p.toNat k) s :=
  chanNat_pmap (fun b => (scaleN_le b.toNat hs).trans_lt b.isLt) p hk

theorem chanNat_black (k : Nat) : chanNat (0 : Pixel).toNat k = 0 := by
  simp [chanNat]

theorem chanNat_le (p k : Nat) : chanNat p k ≤ maxN 8 := Nat.le_pred_of_lt (Nat.mod_lt _ (by decide))

/-- What a first pixel does without: the carry it receives is black. -/
theorem chanNat_carry (p : Pixel) {s : Nat} (hs : s ≤ maxN 8) (isFirst : Prop) [Decidable isFirst] {k : Nat}
    (hk : k < 3) : chanNat (if isFirst then (0 : Pixel) else pscale p s).toNat k =
      if isFirst then 0 else scaleN 8 (chanNat p.toNat k) s := by
  split
  · exact chanNat_black k
  · exact chanNat_pscale_of_le p hs hk

/-- R202 for one channel: the kept share of `c`, the seeping share of it unless the pixel is the first, and the seeping
share of the right neighbour's `d` unless it is the last. -/
def blurChannel (amt c d : Nat) (isFirst isLast : Prop) [Decidable isFirst] [Decidable isLast] : Nat :=
  scaleN 8 c (blurKeep amt) + (if isFirst then 0 else scaleN 8 c (blurSeep amt)) +
    if isLast then 0 else scaleN 8 d (blurSeep amt)

/-- A scaled byte is at most the factor, and `keep` and twice `seep` are at most 255: no addition saturates. -/
theorem blur_pixel_chanNat {amt : Nat} (hamt : amt ≤ 255) (p q : Pixel) (isFirst isLast : Prop) [Decidable isFirst]
    [Decidable isLast] {k : Nat} (hk : k < 3) :
    chanNat (let cur := padd (pscale p (blurKeep amt)) (if isFirst then 0 else pscale p (blurSeep amt))
      if isLast then cur else padd cur (pscale q (blurSeep amt))).toNat k =
      blurChannel amt (chanNat p.toNat k) (chanNat q.toNat k) isFirst isLast := by
  have hkeep : blurKeep amt ≤ maxN 8 := Nat.sub_le ..
  have hseep : blurSeep amt ≤ maxN 8 := (Nat.div_le_self ..).trans hamt
  have hsum : blurKeep amt + blurSeep amt + blurSeep amt ≤ 255 := by unfold blurKeep blurSeep; omega
  have hkept := scaleN_le_factor (chanNat_le p.toNat k) (blurKeep amt)
  have hown := scaleN_le_factor (chanNat_le p.toNat k) (blurSeep amt)
  have hnext := scaleN_le_factor (chanNat_le q.toNat k) (blurSeep amt)
  have hp := chanNat_pscale_of_le p hkeep hk
  have hq := chanNat_pscale_of_le q hseep hk
  have hcarry := chanNat_carry p hseep isFirst hk
  have hle : (if isFirst then 0 else scaleN 8 (chanNat p.toNat k) (blurSeep amt)) ≤ blurSeep amt := by
    split <;> omega
  have hcur := chanNat_padd (p := pscale p (blurKeep amt))
    (q := if isFirst then 0 else pscale p (blurSeep amt)) hk (by rw [hp, hcarry]; omega)
  rw [hp, hcarry] at hcur
  unfold blurChannel
  by_cases hlast : isLast
  · rw [if_pos hlast, if_pos hlast, hcur, Nat.add_zero]
  · rw [if_neg hlast, if_neg hlast, chanNat_padd hk (by rw [hcur, hq]; omega), hcur, hq]

theorem blur_read_toNat {amt : Nat} (hamt : amt ≤ 255) (n a : Nat) (m : Memory) {o : Nat} (ho : o < 3 * n) :
    ((blur a n amt m).read (a + o)).toNat =
      blurChannel amt (m.read (a + o)).toNat (m.read (a + o + 3)).toNat (o / 3 = 0) (n = o / 3 + 1) := by
  have hpixel : o / 3 < n := Nat.div_lt_of_lt_mul ho
  have hk : o % 3 < 3 := Nat.mod_lt o (by decide)
  have hnext : (m.read (a + o + 3)).toNat = chanNat (m.readPix (a + 3 * (o / 3) + 3)).toNat (o % 3) := by
    rw [Nat.add_assoc, Memory.read_toNat_eq_chanNat_div, Nat.add_mod_right, Nat.add_div_right _ (by decide),
      Nat.mul_succ, Nat.add_assoc]
  rw [hnext, Memory.read_toNat_eq_chanNat_div, Memory.read_toNat_eq_chanNat_div, blur,
    blurLoop_readPix _ _ n a 0 m hpixel]
  exact blur_pixel_chanNat hamt _ _ _ _ hk

/-- Settles O55: offset `o` is in the first pixel below 3 and in the last from `3 n − 3` on. -/
theorem blurClosedForm : Obligations.BlurClosedForm := by
  intro s rs1 rs2 rs3
  refine ⟨spelledBy_formatR 0x52 0 rs1 rs2 rs3 0 rfl rfl, fun hs => ?_⟩
  intro a n keep seep old hin
  refine ⟨_, exec_blur hs rs1 rs2 rs3 ((s.inWindow_iff a (3 * n)).2 hin), rfl, fun o ho => ?_,
    fun b hb => blurLoop_out _ _ n a 0 s.mem hb⟩
  have hfirst : ¬ o / 3 = 0 ↔ 3 ≤ o := by omega
  have hlast : ¬ n = o / 3 + 1 ↔ o + 3 < 3 * n := by omega
  refine (blur_read_toNat (s.low_le_maxN 8 rs3) n a s.mem ho).trans ?_
  rw [blurChannel, ← ite_not, if_congr hfirst rfl rfl, ← ite_not (n = _), if_congr hlast rfl rfl]
  rfl

/-! ### Fill, loads and stores (R204 to R212) -/

theorem fillLoop_read_toNat (p : Pixel) (n a : Nat) (m : Memory) {o : Nat} (ho : o < 3 * n) :
    ((fillLoop p n a m).read (a + o)).toNat = chanNat p.toNat (o % 3) := by
  rw [Memory.read_toNat_eq_chanNat_div, fillLoop_readPix p n a m (Nat.div_lt_of_lt_mul ho)]

theorem writePix_read_toNat (m : Memory) (a : Nat) (p : Pixel) {k : Nat} (hk : k < 3) :
    ((m.writePix a p).read (a + k)).toNat = chanNat p.toNat k := by
  rw [Memory.read_toNat_eq_chanNat _ _ hk, Memory.readPix_writePix]

/-- Settles O56: offset `o` is channel `o % 3` of a pixel of the one colour. -/
theorem fillCommand : Obligations.FillCommand := by
  intro s rs1 rs2 rs3
  refine ⟨spelledBy_formatR 0x53 0 rs1 rs2 rs3 0 rfl rfl, fun hs => ?_⟩
  intro a n hin
  refine ⟨_, exec_fill hs rs1 rs2 rs3 ((s.inWindow_iff a (3 * n)).2 hin), rfl, fun o ho => ?_,
    fun b hb => fillLoop_out _ n a s.mem hb⟩
  rw [low_eq_triple_toNat]
  exact fillLoop_read_toNat _ n a s.mem ho

/-- Settles O58: a loaded triple or byte is zero-extended. -/
theorem loadCommands : Obligations.LoadCommands := by
  intro s rd rs1 off
  refine ⟨spelledBy_formatR 0x58 rd rs1 0 0 off rfl rfl, spelledBy_formatR 0x5A rd rs1 0 0 off rfl rfl, fun hs => ?_⟩
  intro ea
  refine ⟨fun hlo hhi => ?_, fun hlo hhi => ?_⟩
  · have hload := next_onlyReg_triple (exec_ldp hs rd rs1 off ((s.inWindow_iff ea 3).2 (.inr ⟨hlo, hhi⟩)))
    rwa [Memory.readPix, pack_toNat] at hload
  · exact next_onlyReg_setReg (exec_ldb hs rd rs1 off ((s.inWindow_iff ea 1).2 (.inr ⟨hlo, hhi⟩)))
      (setWidth_word_toNat _ (by decide))

/-- Settles O59: a store writes its bytes and keeps every other. -/
theorem storeCommands : Obligations.StoreCommands := by
  intro s rs2 rs1 off
  refine ⟨spelledBy_formatR 0x59 0 rs1 rs2 0 off rfl rfl, spelledBy_formatR 0x5B 0 rs1 rs2 0 off rfl rfl, fun hs => ?_⟩
  intro ea
  refine ⟨fun hlo hhi => ?_, fun hlo hhi => ?_⟩
  · refine ⟨_, exec_stp hs rs2 rs1 off ((s.inWindow_iff ea 3).2 (.inr ⟨hlo, hhi⟩)), rfl, fun k hk => ?_,
      fun b hb => Memory.read_writePix_out s.mem ea _ hb⟩
    rw [low_eq_triple_toNat]
    exact writePix_read_toNat s.mem ea _ hk
  · refine ⟨_, exec_stb hs rs2 rs1 off ((s.inWindow_iff ea 1).2 (.inr ⟨hlo, hhi⟩)), rfl, ?_,
      fun b hb => s.mem.read_write_ne _ hb⟩
    exact (congrArg BitVec.toNat (s.mem.read_write_self ea _)).trans (s.byteOf_toNat rs2)

end Sys2Proof.Machine
end
